-- ==== Sys2Proof/Word.lean ====
section
/-! DEFINITION. The word types of the machine (spec/00_scope.md R6, R7: bit 0 is
the least significant bit of every word). -/

namespace Sys2Proof

/-- A byte of memory or of an instruction. -/
abbrev Byte := BitVec 8

/-- A linear address, an instruction pointer or a general register, at its
64-bit width; in 32-bit mode only the low 32 bits are used (log entry 14). -/
abbrev Addr := BitVec 64

/-- The whole of a vector register of the widest machine (`MAX_VL = 512`). -/
abbrev VecWord := BitVec 512

/-- A half-precision value, by its encoding (spec/40_vcvtph2ps.md R76). -/
abbrev Half := BitVec 16

/-- A single-precision value, by its encoding (spec/40_vcvtph2ps.md R76). -/
abbrev Single := BitVec 32

end Sys2Proof
end

