-- ==== Sys2Proof/Config.lean ====
section
/-! DEFINITION. What an implementation or a launch fixes (spec/00_scope.md R4)
and the one free value of the model. The parameters are plain data and are held
in `State`, because a step is a function of the state alone (log entry 4). -/

namespace Sys2Proof

/-- `MODE` (spec/60_exceptions.md R112). -/
inductive Mode where
  | m64
  | m32
  deriving DecidableEq, Repr

/-- `KWIDTH`, the width of an opmask register (spec/10_state.md R12). -/
inductive KWidth where
  | k16
  | k64
  deriving DecidableEq, Repr

/-- The parameters of spec/00_scope.md R4 that are not a register, a mode or a
memory range: no step changes one (spec/10_state.md R21). -/
structure Params where
  /-- `HAS_F16C`. -/
  hasF16c : Bool
  /-- `HAS_AVX512F`. -/
  hasAvx512f : Bool
  /-- `HAS_AVX512VL`. -/
  hasAvx512vl : Bool
  /-- Whether `MAX_VL` is 256 and not 128 where neither `HAS_AVX512F` nor
  `HAS_F16C` is set; read nowhere else. -/
  baseMaxVl256 : Bool
  /-- `KWIDTH`. -/
  kwidth : KWidth
  /-- `EVEX_FAULT_SUPPRESSION` (spec/20_memory.md R44). -/
  evexFaultSuppression : Bool
  /-- `EVEX_REPORTS_AC` (spec/60_exceptions.md R105). -/
  evexReportsAc : Bool
  /-- Where `cvt_h2s` differs from the recommended body of spec/40_vcvtph2ps.md
  R76: an input, its result, and whether it is Invalid; the first entry of an
  input counts. The domain is finite, so every function is some such list, and
  the empty list is the recommended body (log entry 11). -/
  cvtDiff : List (Half × Single × Bool)
  deriving DecidableEq, Repr

namespace Config

/-- Free value: whether the alignment-check exception that spec/60_exceptions.md
R105 lets an EVEX form raise does occur, at the `n`-th time it could (log entry
10). It has no body, so nothing can be proved of it. -/
opaque acOccurs : Nat → Bool

end Config

end Sys2Proof
end

