-- ==== Sys2Proof/Syntax.lean ====
section
/-! DEFINITION. The instructions: one constructor of `Instr` per row of
spec/opcode_table.json, and the operand forms of spec/30_encoding.md R50 to R57.
An operand keeps the fields of its encoding that carry a meaning, so that the
encoded length (R66) is a function of the instruction. -/

namespace Sys2Proof

/-- The displacement of a memory operand with a base register: absent, or the
byte or the four bytes as encoded (spec/30_encoding.md R56), unscaled. -/
inductive Disp where
  | none
  | d8 (d : BitVec 8)
  | d32 (d : BitVec 32)
  deriving DecidableEq, Repr

/-- The memory operand forms of spec/30_encoding.md R53 and R54. Register
numbers have four bits: the extension bit and the three bits of the field. -/
inductive MemForm where
  /-- No SIB byte: base register and displacement. -/
  | base (b : BitVec 4) (d : Disp)
  /-- No SIB byte, `mod = 00b`, `r/m = 101b`: RIP-relative in 64-bit mode
  (R55), absolute in 32-bit mode (R54). -/
  | dispOnly (d : BitVec 32)
  /-- SIB byte with a base register; index 0100b means no index. -/
  | sib (b : BitVec 4) (idx : BitVec 4) (scale : BitVec 2) (d : Disp)
  /-- SIB byte, `mod = 00b`, `SIB.base = 101b`: no base register. -/
  | sibNoBase (idx : BitVec 4) (scale : BitVec 2) (d : BitVec 32)
  deriving DecidableEq, Repr

/-- Operand 2 of a VEX form (spec/30_encoding.md R52: registers 0 to 15). -/
inductive VexSrc where
  | reg (n : BitVec 4)
  | mem (m : MemForm)
  deriving DecidableEq, Repr

/-- Operand 2 of an EVEX form (spec/30_encoding.md R52: registers 0 to 31). -/
inductive EvexSrc where
  | reg (n : BitVec 5)
  | mem (m : MemForm)
  deriving DecidableEq, Repr

/-- The rows of spec/opcode_table.json, all of mnemonic VCVTPH2PS. `aaa` is the
opmask field (0: no writemask) and `z` selects zeroing-masking (R63). -/
inductive Instr where
  /-- VCVTPH2PS xmm1, xmm2/m64 (spec/40_vcvtph2ps.md R80). -/
  | vex128 (dst : BitVec 4) (src : VexSrc)
  /-- VCVTPH2PS ymm1, xmm2/m128 (R81). -/
  | vex256 (dst : BitVec 4) (src : VexSrc)
  /-- VCVTPH2PS xmm1 with mask, xmm2/m64 (R82). -/
  | evex128 (dst : BitVec 5) (src : EvexSrc) (aaa : BitVec 3) (z : Bool)
  /-- VCVTPH2PS ymm1 with mask, xmm2/m128 (R83). -/
  | evex256 (dst : BitVec 5) (src : EvexSrc) (aaa : BitVec 3) (z : Bool)
  /-- VCVTPH2PS zmm1 with mask, ymm2/m256 (R84). -/
  | evex512 (dst : BitVec 5) (src : EvexSrc) (aaa : BitVec 3) (z : Bool)
  /-- VCVTPH2PS zmm1 with mask, ymm2, exceptions suppressed (R85). -/
  | evex512Sae (dst : BitVec 5) (src : BitVec 5) (aaa : BitVec 3) (z : Bool)
  deriving DecidableEq, Repr

/-- The form of a decoded instruction (spec/30_encoding.md R49). -/
inductive Form where
  | vex128
  | vex256
  | evex128
  | evex256
  | evex512
  deriving DecidableEq, Repr

/-- The source of a decoded instruction: a vector register or a linear address
(spec/30_encoding.md R49). -/
inductive Source where
  | reg (n : BitVec 5)
  | mem (a : Addr)
  deriving DecidableEq, Repr

/-- The decoded instruction record of spec/30_encoding.md R49, the input of the
shared execution sequence. -/
structure Inst where
  form : Form
  dst  : BitVec 5
  src  : Source
  aaa  : BitVec 3
  z    : Bool
  sae  : Bool
  len  : Nat
  deriving DecidableEq, Repr

end Sys2Proof
end

