-- ==== Sys2Proof/WellFormed.lean ====
section
/-! DEFINITION. The checks on an instruction as syntax: the values the encoding
of spec/30_encoding.md can hold, in a mode. The decoder yields only
instructions that pass, and the encoder is right on those. -/

namespace Sys2Proof

/-- A base register without SIB: `r/m = 100b` announces a SIB byte, and
`mod = 00b` with `r/m = 101b` means no base (spec/30_encoding.md R53). -/
def Disp.okWithBase (d : Disp) (low : BitVec 3) : Bool :=
  match d with
  | .none => low != 5#3
  | .d8 _ | .d32 _ => true

/-- Bit 3 of a register number is an extension bit, stored complemented; in
32-bit mode only registers 0 to 7 can be named (spec/30_encoding.md R58). -/
def gprOk (m : Mode) (n : BitVec 4) : Bool :=
  match m with
  | .m64 => true
  | .m32 => n.toNat < 8

/-- `NVEC`, the number of vector registers a form can name (spec/10_state.md
R11). -/
def nvec (m : Mode) (evex : Bool) : Nat :=
  match m with
  | .m32 => 8
  | .m64 => if evex then 32 else 16

/-- The memory operand forms that have an encoding of their own. -/
def MemForm.wf (m : Mode) : MemForm → Bool
  | .base b d => gprOk m b && b.setWidth 3 != 4#3 && d.okWithBase (b.setWidth 3)
  | .dispOnly _ => true
  | .sib b idx _ d => gprOk m b && gprOk m idx && d.okWithBase (b.setWidth 3)
  | .sibNoBase idx _ _ => gprOk m idx

/-- Operand 2 of a VEX form. -/
def VexSrc.wf (m : Mode) : VexSrc → Bool
  | .reg n => n.toNat < nvec m false
  | .mem f => f.wf m

/-- Operand 2 of an EVEX form. -/
def EvexSrc.wf (m : Mode) : EvexSrc → Bool
  | .reg n => n.toNat < nvec m true
  | .mem f => f.wf m

/-- Zeroing-masking needs a writemask (spec/30_encoding.md R63). -/
def maskOk (aaa : BitVec 3) (z : Bool) : Bool := !z || aaa != 0#3

/-- The well-formed instructions of a mode. -/
def Instr.wf (m : Mode) : Instr → Bool
  | .vex128 dst src | .vex256 dst src => dst.toNat < nvec m false && src.wf m
  | .evex128 dst src aaa z | .evex256 dst src aaa z | .evex512 dst src aaa z =>
    dst.toNat < nvec m true && src.wf m && maskOk aaa z
  | .evex512Sae dst src aaa z =>
    dst.toNat < nvec m true && src.toNat < nvec m true && maskOk aaa z

end Sys2Proof
end

