-- ==== Sys2Proof/Decode.lean ====
section
/-! DEFINITION. The total decoder of spec/30_encoding.md R67, the encoded length
of R66, and after them the encoder, written from the same tables (R47, R48,
R50). Prefix bits written with an overline in the spec are stored complemented. -/

namespace Sys2Proof

/-- The encodings the model gives no meaning (spec/30_encoding.md R67). All are
raised by `decode` and all are safe: the model stops where the chip would go on
or run another instruction. -/
inductive DecodeRefusal where
  /-- `refuse(NotVCVTPH2PS)`: another instruction, or none (R61, R65). -/
  | notVcvtph2ps
  /-- `refuse(LegacyPrefix)`: segment-override or address-size prefix (R64). -/
  | legacyPrefix
  /-- `refuse(ExtBitIn32BitMode)`: an extension bit stored 0 in 32-bit mode
  (R58). -/
  | extBitIn32BitMode
  /-- `refuse(SaeWithOtherLL)`: `b = 1` with a register source and `L'L` other
  than `10b` (R62). -/
  | saeWithOtherLL
  /-- The bytes end where a line of R67 needs one more (log entry 16). -/
  | truncated
  deriving DecidableEq, Repr

/-- What the decoder answers: an instruction, `UD`, or a refusal (R67). -/
inductive Decoded where
  | instr (i : Instr)
  | ud
  | refuse (why : DecodeRefusal)
  deriving DecidableEq, Repr

/-! ### The fields of a byte -/

/-- Bits `lo+w-1 : lo` of a byte. -/
abbrev bits (b : Byte) (lo w : Nat) : BitVec w := b.extractLsb' lo w

/-- A displacement of four bytes, little-endian (R56), at the head of `bs`. -/
def takeDisp32 (bs : List Byte) : Option (BitVec 32) :=
  match bs with
  | b0 :: b1 :: b2 :: b3 :: _ => some (b3 ++ b2 ++ b1 ++ b0)
  | _ => none

/-- The displacement that `mod` announces behind a base register (R53, R66). -/
def takeDisp (md : BitVec 2) (bs : List Byte) : Option Disp :=
  if md = 0#2 then some .none
  else if md = 1#2 then
    match bs with
    | b :: _ => some (.d8 b)
    | [] => none
  else (takeDisp32 bs).map .d32

/-- The memory operand of a ModRM byte with `mod` other than `11b`: `x` and `b`
are the extension bits of the index and of the base, already complemented, and
`bs` the bytes after the ModRM byte (R53, R54). -/
def decodeMem (md : BitVec 2) (rm : BitVec 3) (x b : Bool) (bs : List Byte) : Option MemForm :=
  if rm = 4#3 then
    match bs with
    | [] => none
    | sib :: rest =>
      let idx : BitVec 4 := BitVec.ofBool x ++ bits sib 3 3
      if md = 0#2 ∧ bits sib 0 3 = 5#3 then
        (takeDisp32 rest).map (.sibNoBase idx (bits sib 6 2))
      else
        (takeDisp md rest).map (.sib (BitVec.ofBool b ++ bits sib 0 3) idx (bits sib 6 2))
  else if md = 0#2 ∧ rm = 5#3 then (takeDisp32 bs).map .dispOnly
  else (takeDisp md bs).map (.base (BitVec.ofBool b ++ rm))

/-- Operand 2 of a VEX form from ModRM and what follows (R52). -/
def decodeVexSrc (modrm : Byte) (x b : Bool) (bs : List Byte) : Option VexSrc :=
  if bits modrm 6 2 = 3#2 then some (.reg (BitVec.ofBool b ++ bits modrm 0 3))
  else (decodeMem (bits modrm 6 2) (bits modrm 0 3) x b bs).map .mem

/-- Operand 2 of an EVEX form from ModRM and what follows (R52). -/
def decodeEvexSrc (modrm : Byte) (x b : Bool) (bs : List Byte) : Option EvexSrc :=
  if bits modrm 6 2 = 3#2 then
    some (.reg (BitVec.ofBool x ++ BitVec.ofBool b ++ bits modrm 0 3))
  else (decodeMem (bits modrm 6 2) (bits modrm 0 3) x b bs).map .mem

/-- Destination register number of a VEX form (R51). -/
def vexDst (v1 modrm : Byte) : BitVec 4 :=
  BitVec.ofBool (!v1.getLsbD 7) ++ bits modrm 3 3

/-- Destination register number of an EVEX form (R51). -/
def evexDst (p0 modrm : Byte) : BitVec 5 :=
  BitVec.ofBool (!p0.getLsbD 4) ++ BitVec.ofBool (!p0.getLsbD 7) ++ bits modrm 3 3

/-- The next byte and what follows it; a line of R67 that needs a byte which is not
there has no answer (log entry 16). -/
def withByte (bs : List Byte) (f : Byte → List Byte → Decoded) : Decoded :=
  match bs with
  | [] => .refuse .truncated
  | b :: rest => f b rest

/-- The bytes after `C4h` (R67, the VEX branch, in its order): each byte is asked
for where a line first needs it. -/
def decodeVex (m : Mode) (bs : List Byte) : Decoded :=
  withByte bs fun v1 bs =>
  if m = .m32 ∧ bits v1 6 2 ≠ 3#2 then .refuse .notVcvtph2ps
  else if bits v1 0 5 ≠ 2#5 then .refuse .notVcvtph2ps
  else withByte bs fun v2 bs =>
  if bits v2 0 2 ≠ 1#2 then .refuse .notVcvtph2ps
  else withByte bs fun op bs =>
  if op ≠ 0x13#8 then .refuse .notVcvtph2ps
  else if m = .m32 ∧ v1.getLsbD 5 = false then .refuse .extBitIn32BitMode
  else if v2.getLsbD 7 then .ud
  else if bits v2 3 4 ≠ 15#4 then .ud
  else withByte bs fun modrm rest =>
  match decodeVexSrc modrm (!v1.getLsbD 6) (!v1.getLsbD 5) rest with
  | none => .refuse .truncated
  | some src =>
    if v2.getLsbD 2 then .instr (.vex256 (vexDst v1 modrm) src)
    else .instr (.vex128 (vexDst v1 modrm) src)

/-- The plain EVEX form that `L'L` selects; `11b` is `UD` (R61). -/
def evexOfLL (ll : BitVec 2) (dst : BitVec 5) (src : EvexSrc) (aaa : BitVec 3) (z : Bool) :
    Decoded :=
  if ll = 0#2 then .instr (.evex128 dst src aaa z)
  else if ll = 1#2 then .instr (.evex256 dst src aaa z)
  else if ll = 2#2 then .instr (.evex512 dst src aaa z)
  else .ud

/-- The bytes after `62h` (R67, the EVEX branch, in its order): each byte is asked
for where a line first needs it. With `b = 1` and a register source the form is the
`{sae}` one (R62). -/
def decodeEvex (m : Mode) (bs : List Byte) : Decoded :=
  withByte bs fun p0 bs =>
  if m = .m32 ∧ bits p0 6 2 ≠ 3#2 then .refuse .notVcvtph2ps
  else if bits p0 2 2 ≠ 0#2 then .ud
  else withByte bs fun p1 bs =>
  if p1.getLsbD 2 = false then .ud
  else if bits p0 0 2 ≠ 2#2 ∨ bits p1 0 2 ≠ 1#2 then .refuse .notVcvtph2ps
  else withByte bs fun p2 bs => withByte bs fun op bs =>
  if op ≠ 0x13#8 then .refuse .notVcvtph2ps
  else if m = .m32 ∧ (p0.getLsbD 5 = false ∨ p0.getLsbD 4 = false ∨ p2.getLsbD 3 = false) then
    .refuse .extBitIn32BitMode
  else if p1.getLsbD 7 then .ud
  else if bits p1 3 4 ≠ 15#4 then .ud
  else if p2.getLsbD 3 = false then .ud
  else if p2.getLsbD 7 = true ∧ bits p2 0 3 = 0#3 then .ud
  else if p2.getLsbD 4 then
    withByte bs fun modrm _ =>
    if bits modrm 6 2 ≠ 3#2 then .ud
    else if bits p2 5 2 ≠ 2#2 then .refuse .saeWithOtherLL
    else
      .instr (.evex512Sae (evexDst p0 modrm)
        (BitVec.ofBool (!p0.getLsbD 6) ++ BitVec.ofBool (!p0.getLsbD 5) ++ bits modrm 0 3)
        (bits p2 0 3) (p2.getLsbD 7))
  else if bits p2 5 2 = 3#2 then .ud
  else withByte bs fun modrm rest =>
  match decodeEvexSrc modrm (!p0.getLsbD 6) (!p0.getLsbD 5) rest with
  | none => .refuse .truncated
  | some src => evexOfLL (bits p2 5 2) (evexDst p0 modrm) src (bits p2 0 3) (p2.getLsbD 7)

/-- Prefixes that make a VEX or EVEX instruction `#UD`: `LOCK`, `66h`, `F2h`,
`F3h`, and `REX` in 64-bit mode (R64). -/
def isUdPrefix (m : Mode) (b : Byte) : Bool :=
  b == 0xF0#8 || b == 0x66#8 || b == 0xF2#8 || b == 0xF3#8 ||
    (m == .m64 && bits b 4 4 == 4#4)

/-- Segment-override and address-size prefixes (R64). -/
def isRefusedPrefix (b : Byte) : Bool :=
  b == 0x26#8 || b == 0x2E#8 || b == 0x36#8 || b == 0x3E#8 || b == 0x64#8 || b == 0x65#8 ||
    b == 0x67#8

/-- The decoder of R67, total on any bytes. Bytes after the instruction are
ignored. -/
def decode (m : Mode) : List Byte → Decoded
  | [] => .refuse .truncated
  | b0 :: rest =>
    if isUdPrefix m b0 then
      match decode m rest with
      | .instr _ => .ud
      | .ud => .ud
      | .refuse _ => .refuse .notVcvtph2ps
    else if isRefusedPrefix b0 then .refuse .legacyPrefix
    else if b0 = 0xC4#8 then decodeVex m rest
    else if b0 = 0x62#8 then decodeEvex m rest
    else .refuse .notVcvtph2ps

/-! ### Length (R66) -/

/-- Displacement bytes. -/
def Disp.len : Disp → Nat
  | .none => 0
  | .d8 _ => 1
  | .d32 _ => 4

/-- SIB and displacement bytes of a memory operand. -/
def MemForm.len : MemForm → Nat
  | .base _ d => d.len
  | .dispOnly _ => 4
  | .sib _ _ _ d => 1 + d.len
  | .sibNoBase _ _ _ => 5

/-- Bytes after ModRM of a VEX form. -/
def VexSrc.len : VexSrc → Nat
  | .reg _ => 0
  | .mem f => f.len

/-- Bytes after ModRM of an EVEX form. -/
def EvexSrc.len : EvexSrc → Nat
  | .reg _ => 0
  | .mem f => f.len

/-- The encoded length in bytes: prefix (3 or 4), opcode, ModRM, and what
follows it. -/
def Instr.len : Instr → Nat
  | .vex128 _ src | .vex256 _ src => 5 + src.len
  | .evex128 _ src _ _ | .evex256 _ src _ _ | .evex512 _ src _ _ => 6 + src.len
  | .evex512Sae _ _ _ _ => 6

/-! ### The encoder -/

/-- A bit as a one-bit vector, stored complemented. -/
abbrev inv (b : Bool) : BitVec 1 := BitVec.ofBool (!b)

/-- Four displacement bytes, little-endian. -/
def disp32Bytes (d : BitVec 32) : List Byte :=
  [d.extractLsb' 0 8, d.extractLsb' 8 8, d.extractLsb' 16 8, d.extractLsb' 24 8]

/-- The `mod` field and the displacement bytes of an operand with a base. -/
def Disp.md : Disp → BitVec 2
  | .none => 0#2
  | .d8 _ => 1#2
  | .d32 _ => 2#2

/-- The bytes of a displacement. -/
def Disp.bytes : Disp → List Byte
  | .none => []
  | .d8 d => [d]
  | .d32 d => disp32Bytes d

/-- A ModRM byte (R50). -/
def modRm (md : BitVec 2) (reg rm : BitVec 3) : Byte := md ++ reg ++ rm

/-- A SIB byte (R53). -/
def sibByte (scale : BitVec 2) (idx b : BitVec 3) : Byte := scale ++ idx ++ b

/-- ModRM, SIB and displacement bytes of a memory operand. -/
def MemForm.bytes (reg : BitVec 3) : MemForm → List Byte
  | .base b d => modRm d.md reg (b.setWidth 3) :: d.bytes
  | .dispOnly d => modRm 0#2 reg 5#3 :: disp32Bytes d
  | .sib b idx scale d =>
    modRm d.md reg 4#3 :: sibByte scale (idx.setWidth 3) (b.setWidth 3) :: d.bytes
  | .sibNoBase idx scale d =>
    modRm 0#2 reg 4#3 :: sibByte scale (idx.setWidth 3) 5#3 :: disp32Bytes d

/-- The extension bit `X` of a memory operand; false where unused (log entry
17). -/
def MemForm.xBit : MemForm → Bool
  | .base _ _ | .dispOnly _ => false
  | .sib _ idx _ _ | .sibNoBase idx _ _ => idx.getLsbD 3

/-- The extension bit `B` of a memory operand; false where unused. -/
def MemForm.bBit : MemForm → Bool
  | .base b _ | .sib b _ _ _ => b.getLsbD 3
  | .dispOnly _ | .sibNoBase _ _ _ => false

/-- ModRM and what follows, and the bits `X` and `B`, of a VEX source. -/
def VexSrc.parts (reg : BitVec 3) : VexSrc → Bool × Bool × List Byte
  | .reg n => (false, n.getLsbD 3, [modRm 3#2 reg (n.setWidth 3)])
  | .mem f => (f.xBit, f.bBit, f.bytes reg)

/-- ModRM and what follows, and the bits `X` and `B`, of an EVEX source. -/
def EvexSrc.parts (reg : BitVec 3) : EvexSrc → Bool × Bool × List Byte
  | .reg n => (n.getLsbD 4, n.getLsbD 3, [modRm 3#2 reg (n.setWidth 3)])
  | .mem f => (f.xBit, f.bBit, f.bytes reg)

/-- A VEX encoding with length bit `l` (R47). -/
def encodeVex (l : Bool) (dst : BitVec 4) (src : VexSrc) : List Byte :=
  let (x, b, tail) := src.parts (dst.setWidth 3)
  let v1 : Byte := inv (dst.getLsbD 3) ++ inv x ++ inv b ++ 2#5
  let v2 : Byte := 0#1 ++ 15#4 ++ BitVec.ofBool l ++ 1#2
  0xC4#8 :: v1 :: v2 :: 0x13#8 :: tail

/-- An EVEX encoding with `L'L = ll` and bit `b` (R48). -/
def encodeEvex (ll : BitVec 2) (sae : Bool) (dst : BitVec 5) (src : EvexSrc) (aaa : BitVec 3)
    (z : Bool) : List Byte :=
  let (x, b, tail) := src.parts (dst.setWidth 3)
  let p0 : Byte := inv (dst.getLsbD 3) ++ inv x ++ inv b ++ inv (dst.getLsbD 4) ++ 0#2 ++ 2#2
  let p1 : Byte := 0#1 ++ 15#4 ++ 1#1 ++ 1#2
  let p2 : Byte := BitVec.ofBool z ++ ll ++ BitVec.ofBool sae ++ 1#1 ++ aaa
  0x62#8 :: p0 :: p1 :: p2 :: 0x13#8 :: tail

/-- The bytes of an instruction, in address order (R45). Where the spec ignores
a stored extension bit, the encoder stores 1. -/
def encode : Instr → List Byte
  | .vex128 dst src => encodeVex false dst src
  | .vex256 dst src => encodeVex true dst src
  | .evex128 dst src aaa z => encodeEvex 0#2 false dst src aaa z
  | .evex256 dst src aaa z => encodeEvex 1#2 false dst src aaa z
  | .evex512 dst src aaa z => encodeEvex 2#2 false dst src aaa z
  | .evex512Sae dst src aaa z => encodeEvex 2#2 true dst (.reg src) aaa z

/-! ### A row of the opcode table as a word -/

/-- The length in bytes of the longest instruction (R66). -/
def maxLen : Nat := 11

/-- The bytes of a table word: its first byte is bits 7:0, and the bytes above
`nbits`, up to the longest instruction, are 0. -/
def tableBytes (nbits w : Nat) : List Byte :=
  (List.range maxLen).map fun j =>
    if 8 * j < nbits then BitVec.ofNat 8 (w >>> (8 * j)) else 0#8

/-- What the decoder reads from a table word, in 64-bit mode (log entry 8). -/
def decodeTableWord (nbits w : Nat) : Option Instr :=
  match decode .m64 (tableBytes nbits w) with
  | .instr i => some i
  | .ud => none
  | .refuse _ => none

end Sys2Proof
end

