-- ==== Sys2Proof/Machine/State.lean ====
section
/-! DEFINITION. The state of the machine (spec/10_state.md), the exceptions and
refusals a step can end in, and the state after reset (spec/70_reset_and_hazards.md
R125). Plain data only. -/

namespace Sys2Proof.Machine

/-- Memory: the listed bytes, at rising addresses; an unlisted address reads as
`Memory.unlisted` of Machine/Ops.lean. -/
abbrev Memory := List Host.Cell

/-- The addresses `lo .. lo + size - 1`. -/
structure Range where
  lo   : Nat
  size : Nat
  deriving DecidableEq, Repr

/-- The exceptions of spec/60_exceptions.md R100. -/
inductive Exception where
  /-- Invalid opcode: reserved encoding, form not available, or an unmasked
  Invalid with `CR4.OSXMMEXCPT = 0` (R101, R102, R106). -/
  | ud
  /-- Device not available: `CR0.TS = 1` (R103). -/
  | nm
  /-- `MemFault(a, n)`, standing for `#SS(0)`, `#GP(0)` and `#PF` (R104). -/
  | memFault (a : Addr) (n : Nat)
  /-- Alignment check, by parameter, EVEX memory forms only (R105). -/
  | ac
  /-- SIMD floating-point exception: unmasked Invalid (R106). -/
  | xm
  deriving DecidableEq, Repr

/-- The fault record of spec/70_reset_and_hazards.md R125: `Fault(E, pc)` of
spec/60_exceptions.md R109. -/
structure FaultRecord where
  exception : Exception
  pc        : Addr
  deriving DecidableEq, Repr

/-- The state of the machine. -/
structure State where
  /-- `MODE` (spec/60_exceptions.md R112). -/
  mode : Mode
  /-- The other parameters of spec/00_scope.md R4. -/
  cfg : Params
  /-- Vector registers (spec/10_state.md R10), stored at 512 bits; the low
  `MAX_VL` bits exist. -/
  vec : Vector VecWord 32
  /-- Opmask registers (R12), stored at 64 bits; the low `KWIDTH` bits exist. -/
  k : Vector (BitVec 64) 8
  /-- General registers (R16), stored at 64 bits. -/
  gpr : Vector (BitVec 64) 16
  /-- Instruction pointer (R15): the address of the instruction's first byte. -/
  pc : Addr
  /-- `MXCSR` (R13). -/
  mxcsr : BitVec 32
  /-- `EFLAGS` (R14). -/
  eflags : BitVec 32
  /-- `CR0` (R17). -/
  cr0 : BitVec 64
  /-- `CR4` (R17). -/
  cr4 : BitVec 64
  /-- `XCR0` (R17). -/
  xcr0 : BitVec 64
  /-- Privilege level (spec/60_exceptions.md R112). -/
  cpl : BitVec 2
  /-- Launch contents of memory, the program's bytes among them (R18). -/
  mem : Memory
  /-- The ranges a data read may touch: `Accessible` (spec/20_memory.md R37). -/
  readable : List Range
  /-- The address after the last byte of the program text, modulo the address
  space (spec/70_reset_and_hazards.md R129, spec/10_state.md R15). -/
  textEnd : Addr
  /-- The fault record (R125); once set it is never cleared (R109). -/
  faultRecord : Option FaultRecord
  /-- How often the free value `Config.acOccurs` has been drawn: the model's own
  counter, not the spec's (log entry 10). -/
  acTicks : Nat
  deriving DecidableEq, Repr

/-- How the machine stops with a fault. -/
inductive Fault where
  /-- `raise E`: the run ends in `Fault(E, pc)` with the state `after`
  (spec/60_exceptions.md R107, R109). Raised by every meaning through
  `Machine.raise`, by `step` on an encoding the decoder finds `UD`, and by
  `step` again in a state whose fault record is set. Safe: the chip would
  deliver the exception, which no rule describes, and go on. -/
  | raised (e : Exception) (pc : Addr) (after : State)
  deriving DecidableEq, Repr

/-- Why the model gives a step no meaning. -/
inductive Refusal where
  /-- The instruction has no meaning yet; raised by no arm of `exec`. Safe. -/
  | notModelled (mnemonic : String)
  /-- The decoder refuses the bytes at `pc` (spec/30_encoding.md R67); raised by
  `step`. Safe. -/
  | undecoded (why : DecodeRefusal)
  /-- `pc` is the end of the program text: the run has ended (R129); raised by
  `step`. Safe: nothing is said of what the chip does next. -/
  | endOfProgram
  deriving DecidableEq, Repr

/-- The parameters at reset (log entry 4): every feature present, the defaults
of spec/00_scope.md R4 for the rest. -/
def paramsAtReset : Params where
  hasF16c := true
  hasAvx512f := true
  hasAvx512vl := true
  baseMaxVl256 := true
  kwidth := .k64
  evexFaultSuppression := false
  evexReportsAc := false
  cvtDiff := []

/-- The machine right after reset (spec/70_reset_and_hazards.md R125, the column
'value after processor reset'; log entries 2 to 5 and 7 for the rest). No
program is loaded. -/
def State.reset : State where
  mode := .m32
  cfg := paramsAtReset
  vec := Vector.replicate 32 0
  k := Vector.replicate 8 0
  gpr := Vector.replicate 16 0
  pc := 0xFFFFFFF0
  mxcsr := 0x00001F80
  eflags := 0x00000002
  cr0 := 0x60000010
  cr4 := 0
  xcr0 := 1
  cpl := 0
  mem := []
  readable := [⟨0, 2 ^ 64⟩]
  textEnd := 0xFFFFFFF0
  faultRecord := none
  acTicks := 0

end Sys2Proof.Machine
end

