-- ==== Sys2Proof/Machine/Convert.lean ====
section
/-! DEFINITION. The element conversion of spec/40_vcvtph2ps.md R76: the recommended
body `cvtH2s`, and the configuration field `cvt_h2s` of spec/00_scope.md R4 as the
parameters give it (log entry 11). -/

namespace Sys2Proof.Machine

/-- Sign bit of a half-precision value. -/
def halfSign (h : Half) : BitVec 1 := h.extractLsb' 15 1
/-- Exponent field, bias 15. -/
def halfExp (h : Half) : BitVec 5 := h.extractLsb' 10 5
/-- Fraction field. -/
def halfFrac (h : Half) : BitVec 10 := h.extractLsb' 0 10

/-- Position of the highest 1 bit of `f` at or below `n`; 0 where there is none. -/
def highestOne (f : BitVec 10) : Nat → Nat
  | 0 => 0
  | n + 1 => if f.getLsbD (n + 1) then n + 1 else highestOne f n

/-- A single-precision value from its fields. -/
def mkSingle (sign : BitVec 1) (e : BitVec 8) (frac : BitVec 23) : Single := sign ++ e ++ frac

/-- A denormal half, normalised: `p` is the highest 1 bit of `f` (R76). -/
def cvtDenormal (sign : BitVec 1) (f : BitVec 10) : Single :=
  let p := highestOne f 9
  mkSingle sign (BitVec.ofNat 8 (p + 103)) (f.setWidth 23 <<< (23 - p))

/-- A NaN as signaling: fraction bit 9 clear, and not an infinity (R76). -/
def isSignaling (h : Half) : Bool :=
  halfExp h == 31#5 && halfFrac h != 0#10 && !(halfFrac h).getLsbD 9

/-- The single-precision result (R76, the column `r`). -/
def cvtResult (h : Half) : Single :=
  let s := halfSign h
  let e := halfExp h
  let f := halfFrac h
  if e = 0#5 then
    if f = 0#10 then mkSingle s 0#8 0#23 else cvtDenormal s f
  else if e = 31#5 then
    if f = 0#10 then mkSingle s 255#8 0#23
    else mkSingle s 255#8 (1#1 ++ f.setWidth 9 ++ 0#13)
  else mkSingle s (e.setWidth 8 + 112#8) (f ++ 0#13)

/-- The recommended body of `cvt_h2s`: the result, and whether the Invalid condition
arose (R76). -/
def cvtH2s (h : Half) : Single × Bool := (cvtResult h, isSignaling h)

end Sys2Proof.Machine

namespace Sys2Proof

/-- `cvt_h2s`, the configuration field of spec/00_scope.md R4: what the parameters
list for the input, else the recommended body
(spec/93_implementation_defined.md U7). -/
def Params.cvt (p : Params) (h : Half) : Single × Bool :=
  (p.cvtDiff.lookup h).getD (Machine.cvtH2s h)

end Sys2Proof
end

