-- ==== Sys2Proof/Machine/Flags.lean ====
section
/-! DEFINITION. The fields of `MXCSR` (spec/10_state.md R13), the enabling bits
of the control registers (R17), and what they decide: whether a form is
available (spec/60_exceptions.md R102) and whether alignment is checked (R105).
No `EFLAGS` bit is a result of the instruction (spec/10_state.md R14). -/

namespace Sys2Proof

/-! ### What a form and the parameters decide -/

/-- Whether a form is EVEX-encoded. -/
def Form.isEvex : Form → Bool
  | .vex128 | .vex256 => false
  | .evex128 | .evex256 | .evex512 => true

/-- The CPUID feature flags of a form (spec/00_scope.md R1). -/
def Params.hasForm (p : Params) : Form → Bool
  | .vex128 | .vex256 => p.hasF16c
  | .evex128 | .evex256 => p.hasAvx512f && p.hasAvx512vl
  | .evex512 => p.hasAvx512f

/-- `MAX_VL` (spec/00_scope.md R4; spec/90_conflicts.md C7): 512 exactly with
AVX512F, else 256 with F16C, else 128 or 256. -/
def Params.maxVl (p : Params) : Nat :=
  if p.hasAvx512f then 512
  else if p.hasF16c then 256
  else if p.baseMaxVl256 then 256
  else 128

/-- `KWIDTH` in bits (spec/10_state.md R12). -/
def Params.kbits (p : Params) : Nat :=
  match p.kwidth with
  | .k16 => 16
  | .k64 => 64

end Sys2Proof

namespace Sys2Proof.Machine

/-! ### `MXCSR` (R13) -/

/-- Invalid-operation flag, bit 0. -/
def State.ie (s : State) : Bool := s.mxcsr.getLsbD 0
/-- Denormal flag, bit 1. -/
def State.de (s : State) : Bool := s.mxcsr.getLsbD 1
/-- Divide-by-zero flag, bit 2. -/
def State.ze (s : State) : Bool := s.mxcsr.getLsbD 2
/-- Overflow flag, bit 3. -/
def State.oe (s : State) : Bool := s.mxcsr.getLsbD 3
/-- Underflow flag, bit 4. -/
def State.ue (s : State) : Bool := s.mxcsr.getLsbD 4
/-- Precision flag, bit 5. -/
def State.pe (s : State) : Bool := s.mxcsr.getLsbD 5
/-- Denormals-are-zeros control, bit 6: ignored by the instruction. -/
def State.daz (s : State) : Bool := s.mxcsr.getLsbD 6
/-- Invalid-operation mask, bit 7: the one mask the instruction reads. -/
def State.im (s : State) : Bool := s.mxcsr.getLsbD 7
/-- Denormal mask, bit 8. -/
def State.dm (s : State) : Bool := s.mxcsr.getLsbD 8
/-- Divide-by-zero mask, bit 9. -/
def State.zm (s : State) : Bool := s.mxcsr.getLsbD 9
/-- Overflow mask, bit 10. -/
def State.om (s : State) : Bool := s.mxcsr.getLsbD 10
/-- Underflow mask, bit 11. -/
def State.um (s : State) : Bool := s.mxcsr.getLsbD 11
/-- Precision mask, bit 12. -/
def State.pm (s : State) : Bool := s.mxcsr.getLsbD 12
/-- Rounding control, bits 14:13. -/
def State.rc (s : State) : BitVec 2 := s.mxcsr.extractLsb' 13 2
/-- Flush-to-zero control, bit 15. -/
def State.ftz (s : State) : Bool := s.mxcsr.getLsbD 15

/-- `mxcsr.IE <- 1`; every other bit is kept, and `IE` is never cleared
(spec/40_vcvtph2ps.md R90). -/
def State.setIE (s : State) : State := { s with mxcsr := s.mxcsr ||| 1#32 }

/-! ### Enabling bits (spec/10_state.md R17) -/

/-- `CR0.PE`. -/
def State.protectedMode (s : State) : Bool := s.cr0.getLsbD 0
/-- `CR0.TS`, the parameter `TS`. -/
def State.ts (s : State) : Bool := s.cr0.getLsbD 3
/-- `CR0.AM` (log entry 10 for its bit). -/
def State.am (s : State) : Bool := s.cr0.getLsbD 18
/-- `CR4.OSXMMEXCPT`. -/
def State.osxmmexcpt (s : State) : Bool := s.cr4.getLsbD 10
/-- `CR4.OSXSAVE`. -/
def State.osxsave (s : State) : Bool := s.cr4.getLsbD 18
/-- `EFLAGS.VM`. -/
def State.vm (s : State) : Bool := s.eflags.getLsbD 17
/-- `EFLAGS.AC` (log entry 10 for its bit). -/
def State.acFlag (s : State) : Bool := s.eflags.getLsbD 18

/-- `OS_ENABLED(form)` (R17). -/
def State.osEnabled (s : State) (f : Form) : Bool :=
  s.protectedMode && !s.vm && s.osxsave && s.xcr0.extractLsb' 1 2 == 3#2 &&
    (!f.isEvex || s.xcr0.extractLsb' 5 3 == 7#3)

/-- `available(form)` (spec/60_exceptions.md R102). -/
def State.available (s : State) (f : Form) : Bool :=
  s.cfg.hasForm f && s.osEnabled f

/-- Alignment checking is on: `CR0.AM`, `EFLAGS.AC`, privilege level 3
(spec/60_exceptions.md R105). -/
def State.alignmentChecked (s : State) : Bool := s.am && s.acFlag && s.cpl == 3#2

end Sys2Proof.Machine
end

