-- ==== Sys2Proof/Machine/Ops.lean ====
section
/-! DEFINITION. The named operations over memory and registers, the admission of
a read, raising an exception, and fetching the program's bytes. -/

namespace Sys2Proof.Machine

/-! ### Memory (spec/20_memory.md R30) -/

/-- What an unlisted address reads as (log entry 5). -/
def Memory.unlisted : Byte := 0#8

/-- The canonical form: rising addresses inside the address space, and no entry
that an unlisted address would read as. -/
abbrev Memory.wf (m : Memory) : Prop :=
  (m.map Prod.fst).Pairwise (· < ·) ∧ ∀ c ∈ m, c.1 < 2 ^ 64 ∧ c.2 ≠ Memory.unlisted

/-- One byte of memory. -/
def Memory.read : Memory → Nat → Byte
  | [], _ => Memory.unlisted
  | (b, v) :: rest, a => if a = b then v else Memory.read rest a

/-- Putting one byte into a memory, keeping the canonical form. No instruction
does this: it is how a launch lays out a program and its data. -/
def Memory.write : Memory → Nat → Byte → Memory
  | [], a, x => if x = Memory.unlisted then [] else [(a, x)]
  | (b, v) :: rest, a, x =>
    if a < b then if x = Memory.unlisted then (b, v) :: rest else (a, x) :: (b, v) :: rest
    else if a = b then if x = Memory.unlisted then rest else (a, x) :: rest
    else (b, v) :: Memory.write rest a x

/-- A word of the mode's address width (spec/10_state.md R15, R16). -/
def wrap (m : Mode) (x : Addr) : Addr :=
  match m with
  | .m64 => x
  | .m32 => (x.setWidth 32).setWidth 64

/-- Bytes at rising addresses, modulo the address space of the mode. -/
def Memory.writeBytes (m : Memory) (md : Mode) (a : Addr) : List Byte → Memory
  | [] => m
  | x :: xs => Memory.writeBytes (m.write a.toNat x) md (wrap md (a + 1)) xs

/-- The `n` bytes from `a` up, modulo the address space of the mode. -/
def Memory.bytesFrom (m : Memory) (md : Mode) (a : Addr) : Nat → List Byte
  | 0 => []
  | n + 1 => m.read a.toNat :: Memory.bytesFrom m md (wrap md (a + 1)) n

/-- `f 0`, `f 1`, ..., `f (n-1)` side by side, `f 0` in the low bits: lanes of a
register (spec/00_scope.md R7) and bytes of memory (spec/20_memory.md R31). -/
def pack {w : Nat} (N : Nat) (f : Nat → BitVec w) : Nat → BitVec N
  | 0 => 0
  | n + 1 => pack N f n ||| ((f n).setWidth N <<< (w * n))

/-- `MemRead(a, n)` without its admission: the `n` bytes from `a` up, the byte at
`a` in bits 7:0 (R31, R32), for `n` up to 32. -/
def memRead (s : State) (a : Addr) (n : Nat) : BitVec 256 :=
  pack 256 (fun i => s.mem.read (a.toNat + i)) n

/-! ### Admission of a read (spec/20_memory.md R30, R37) -/

/-- Bits 63:47 are all equal. -/
def canonical (a : Nat) : Bool := a < 2 ^ 47 || (2 ^ 64 - 2 ^ 47 ≤ a && a < 2 ^ 64)

/-- Whether an address lies in a range. -/
def Range.holds (r : Range) (a : Nat) : Bool := r.lo ≤ a && a < r.lo + r.size

/-- One byte may be read: inside the address space of the mode, canonical in
64-bit mode, and in a range the launch admits. -/
def State.byteAccessible (s : State) (a : Nat) : Bool :=
  (match s.mode with
    | .m64 => canonical a
    | .m32 => decide (a < 2 ^ 32)) &&
  s.readable.any (fun r => r.holds a)

/-- `Accessible(a, n)`: all `n` bytes from `a` up, computed without wrap-around. -/
def State.accessible (s : State) (a n : Nat) : Bool :=
  (List.range n).all fun i => s.byteAccessible (a + i)

/-! ### Registers -/

/-- `pc` at the mode's width (R15). -/
def State.ip (s : State) : Addr := wrap s.mode s.pc

/-- `pc <- pc + len`, modulo `2^64` or `2^32` (R15). -/
def State.advance (s : State) (len : Nat) : State :=
  { s with pc := wrap s.mode (s.ip + BitVec.ofNat 64 len) }

/-- `v[n]`: the `MAX_VL` bits that exist (R10). -/
def State.readVec (s : State) (n : BitVec 5) : VecWord :=
  (s.vec[n.toNat].setWidth s.cfg.maxVl).setWidth 512

/-- `v[n] <- x`: all `MAX_VL` bits are written (R10). -/
def State.writeVec (s : State) (n : BitVec 5) (x : VecWord) : State :=
  { s with vec := s.vec.set n.toNat ((x.setWidth s.cfg.maxVl).setWidth 512) }

/-- `k[n]`: the `KWIDTH` bits that exist (R12). -/
def State.readK (s : State) (n : BitVec 3) : BitVec 64 :=
  (s.k[n.toNat].setWidth s.cfg.kbits).setWidth 64

/-- General register `n` at the mode's width (R16). -/
def State.readGpr (s : State) (n : BitVec 4) : Addr := wrap s.mode s.gpr[n.toNat]

/-! ### Exceptions (spec/60_exceptions.md) -/

/-- The vector numbers an exception can have on the chip (R100): one, but for
`MemFault`, which stands for three. -/
def Exception.vectors : Exception → List Nat
  | .ud => [6]
  | .nm => [7]
  | .memFault _ _ => [12, 13, 14]
  | .ac => [17]
  | .xm => [19]

/-- Whether the chip gives a handler an error code with the exception (R100). The
model records no code (R104): nothing is delivered (R109). -/
def Exception.hasErrorCode : Exception → Bool
  | .ud | .nm | .xm => false
  | .memFault _ _ | .ac => true

/-- `raise E`: the run ends in `Fault(E, pc)` (R109). Nothing of `s` changes but
the fault record; `pc` stays at the instruction's first byte (R107). Delivery to
a handler is not described by any rule, and there is no return (R110). -/
def raise (e : Exception) (s : State) : Host.Outcome State Fault Refusal :=
  .fault (.raised e s.ip { s with faultRecord := some ⟨e, s.ip⟩ })

/-- An unmasked Invalid: `IE <- 1`, then `#XM`, or `#UD` where
`CR4.OSXMMEXCPT = 0` (R106). -/
def raiseInvalid (s : State) : Host.Outcome State Fault Refusal :=
  raise (if s.osxmmexcpt then .xm else .ud) s.setIE

/-! ### The program text (spec/20_memory.md R42, spec/70_reset_and_hazards.md R129) -/

/-- The address after the last byte of the program text, at the mode's width. -/
def State.textStop (s : State) : Addr := wrap s.mode s.textEnd

/-- How many bytes of the program text are left from `pc` on, counted modulo the
address space as `pc` is (spec/10_state.md R15): a text may end at, or run over,
the top (log entry 7). -/
def State.textLeft (s : State) : Nat := (wrap s.mode (s.textStop - s.ip)).toNat

/-- The bytes of the program text from `pc` to its end. -/
def State.fetch (s : State) : List Byte := s.mem.bytesFrom s.mode s.ip s.textLeft

/-- A launch puts `bs` at `pc` as the whole rest of the program text. -/
def State.loadText (s : State) (bs : List Byte) : State :=
  { s with
    mem := s.mem.writeBytes s.mode s.ip bs
    textEnd := wrap s.mode (s.ip + BitVec.ofNat 64 bs.length) }

/-- What must hold before a form does anything but raise `#UD` or `#NM`
(spec/70_reset_and_hazards.md R126, steps 1 and 3 to 5), set for 64-bit mode as
system software sets it, with no fault recorded. -/
def State.enable64 (s : State) : State :=
  { s with
    mode := .m64
    cr0 := (s.cr0 ||| 1#64) &&& ~~~8#64
    eflags := s.eflags &&& ~~~0x20000#32
    cr4 := s.cr4 ||| 0x40000#64
    xcr0 := s.xcr0 ||| 0xE6#64
    faultRecord := none }

end Sys2Proof.Machine
end

