-- ==== Sys2Proof/Machine/Operands.lean ====
section
/-! DEFINITION. The operand forms: lengths of a form, effective addresses
(spec/30_encoding.md R53 to R57), the source operand (R52; spec/20_memory.md R32,
R37, R44), the writemask (spec/40_vcvtph2ps.md R86). -/

namespace Sys2Proof

/-! ### What a form fixes (spec/40_vcvtph2ps.md R75, spec/20_memory.md R32) -/

/-- `KL`, the number of elements. -/
def Form.kl : Form → Nat
  | .vex128 | .evex128 => 4
  | .vex256 | .evex256 => 8
  | .evex512 => 16

/-- `VL`, the destination vector length in bits. -/
def Form.vl (f : Form) : Nat := 32 * f.kl

/-- The scale of an 8-bit displacement (spec/30_encoding.md R56, R57). -/
def Form.disp8Scale : Form → Nat
  | .vex128 | .vex256 => 1
  | .evex128 => 8
  | .evex256 => 16
  | .evex512 => 32

end Sys2Proof

namespace Sys2Proof.Machine

/-! ### Effective addresses -/

/-- A displacement as a 64-bit number: `disp8` sign-extended and scaled, `disp32`
sign-extended (R56, R57). -/
def dispValue (f : Form) : Disp → Addr
  | .none => 0
  | .d8 d => d.signExtend 64 * BitVec.ofNat 64 f.disp8Scale
  | .d32 d => d.signExtend 64

/-- The index term: nothing for index 0100b, else the register shifted left by
the scale (R53). -/
def indexValue (s : State) (idx : BitVec 4) (scale : BitVec 2) : Addr :=
  if idx = 4#4 then 0 else s.readGpr idx <<< scale.toNat

/-- The linear address of a memory operand of an instruction of `len` bytes
(R53, R54, R55), at the mode's width. -/
def effectiveAddress (s : State) (f : Form) (len : Nat) (m : MemForm) : Addr :=
  wrap s.mode <|
    match m with
    | .base b d => s.readGpr b + dispValue f d
    | .dispOnly d =>
      match s.mode with
      | .m64 => (s.ip + BitVec.ofNat 64 len) + d.signExtend 64
      | .m32 => d.signExtend 64
    | .sib b idx scale d => s.readGpr b + indexValue s idx scale + dispValue f d
    | .sibNoBase idx scale d => indexValue s idx scale + d.signExtend 64

/-- Operand 2 of a VEX form, resolved (R49). -/
def vexSource (s : State) (f : Form) (len : Nat) : VexSrc → Source
  | .reg n => .reg (n.setWidth 5)
  | .mem m => .mem (effectiveAddress s f len m)

/-- Operand 2 of an EVEX form, resolved (R49). -/
def evexSource (s : State) (f : Form) (len : Nat) : EvexSrc → Source
  | .reg n => .reg n
  | .mem m => .mem (effectiveAddress s f len m)

/-! ### Mask and source -/

/-- `M[j]` of spec/40_vcvtph2ps.md R78 step 5: element `j` is selected. -/
def maskBit (s : State) (aaa : BitVec 3) (j : Nat) : Bool :=
  aaa == 0#3 || (s.readK aaa).getLsbD j

/-- The read of a memory source is admitted (spec/20_memory.md R37); with fault
suppression only the bytes of selected elements count (R44). -/
def sourceAdmitted (s : State) (f : Form) (aaa : BitVec 3) (a : Addr) : Bool :=
  if s.cfg.evexFaultSuppression then
    (List.range f.kl).all fun j => !maskBit s aaa j || s.accessible (a.toNat + 2 * j) 2
  else s.accessible a.toNat (2 * f.kl)

/-- The bits of the source operand, elements `0 .. KL-1` (R78 step 4): the low
bits of the register, or the bytes of memory. -/
def sourceBits (s : State) (f : Form) : Source → BitVec 256
  | .reg n => ((s.readVec n).setWidth (16 * f.kl)).setWidth 256
  | .mem a => memRead s a (2 * f.kl)

/-- Element `j` of a source (spec/00_scope.md R7). -/
def srcElem (src : BitVec 256) (j : Nat) : Half := src.extractLsb' (16 * j) 16

/-- Element `j` of a destination (spec/00_scope.md R7). -/
def lane (v : VecWord) (j : Nat) : Single := v.extractLsb' (32 * j) 32

/-- An alignment check is due: the parameter is set, the form is EVEX, the
address is odd and alignment checking is on (spec/60_exceptions.md R105). -/
def acDue (s : State) (f : Form) : Source → Bool
  | .reg _ => false
  | .mem a =>
    s.cfg.evexReportsAc && f.isEvex && a.getLsbD 0 && s.alignmentChecked

end Sys2Proof.Machine
end

