-- ==== Sys2Proof/Machine/Sequence.lean ====
section
/-! DEFINITION. The execution sequence common to all forms, spec/40_vcvtph2ps.md
R78, over the decoded instruction record of spec/30_encoding.md R49, with the
priority of spec/60_exceptions.md R108. -/

namespace Sys2Proof.Machine

/-- `anyinv` of step 7: the conversion of a selected element reports Invalid. -/
def anyInvalid (s : State) (i : Inst) (src : BitVec 256) : Bool :=
  (List.range i.form.kl).any fun j =>
    maskBit s i.aaa j && (s.cfg.cvt (srcElem src j)).2

/-- Destination element `j` of step 8: converted, zeroed, or kept (R86). -/
def newLane (s : State) (i : Inst) (src : BitVec 256) (j : Nat) : Single :=
  if maskBit s i.aaa j then (s.cfg.cvt (srcElem src j)).1
  else if i.z then 0#32
  else lane (s.readVec i.dst) j

/-- The new destination register of step 8: the elements, and 0 above `VL`
(R87). -/
def newDest (s : State) (i : Inst) (src : BitVec 256) : VecWord :=
  pack 512 (newLane s i src) i.form.kl

/-- Steps 8 and 9: the destination is written whole and `pc` advances. -/
def complete (i : Inst) (d : VecWord) (s : State) : Host.Outcome State Fault Refusal :=
  .next ((s.writeVec i.dst d).advance i.len)

/-- Steps 5 to 9, from the sampled source on (R88). -/
def convert (i : Inst) (src : BitVec 256) (s : State) : Host.Outcome State Fault Refusal :=
  if anyInvalid s i src && !i.sae then
    if s.im then complete i (newDest s i src) s.setIE else raiseInvalid s
  else complete i (newDest s i src) s

/-- Step 4 onward: the source is read, an alignment check that is due draws the
free value (log entry 10), and the conversion follows. -/
def readAndConvert (i : Inst) (s : State) : Host.Outcome State Fault Refusal :=
  if acDue s i.form i.src then
    if Config.acOccurs s.acTicks then raise .ac s
    else convert i (sourceBits s i.form i.src) { s with acTicks := s.acTicks + 1 }
  else convert i (sourceBits s i.form i.src) s

/-- The memory fault of step 4, where the read is not admitted (R104). -/
def memFaultOf (s : State) (i : Inst) : Option Exception :=
  match i.src with
  | .reg _ => none
  | .mem a => if sourceAdmitted s i.form i.aaa a then none
              else some (.memFault a (2 * i.form.kl))

/-- R78: `exec(I)`. -/
def execInst (i : Inst) (s : State) : Host.Outcome State Fault Refusal :=
  if !s.available i.form then raise .ud s
  else if s.ts then raise .nm s
  else
    match memFaultOf s i with
    | some e => raise e s
    | none => readAndConvert i s

end Sys2Proof.Machine
end

