-- ==== Sys2Proof/Machine/Evex.lean ====
section
/-! DEFINITION. The EVEX forms: writemask with merging or zeroing, and the
`{sae}` variant of the 512-bit register form. -/

namespace Sys2Proof.Machine

/-- The decoded record of an EVEX instruction (spec/30_encoding.md R49). -/
def evexInst (f : Form) (sae : Bool) (dst : BitVec 5) (src : EvexSrc) (aaa : BitVec 3) (z : Bool)
    (s : State) : Inst where
  form := f
  dst := dst
  src := evexSource s f (6 + src.len) src
  aaa := aaa
  z := z
  sae := sae
  len := 6 + src.len

/-- VCVTPH2PS xmm1 with mask, xmm2/m64 (spec/40_vcvtph2ps.md R82). -/
def execEvex128 (dst : BitVec 5) (src : EvexSrc) (aaa : BitVec 3) (z : Bool) (s : State) :
    Host.Outcome State Fault Refusal :=
  execInst (evexInst .evex128 false dst src aaa z s) s

/-- VCVTPH2PS ymm1 with mask, xmm2/m128 (spec/40_vcvtph2ps.md R83). -/
def execEvex256 (dst : BitVec 5) (src : EvexSrc) (aaa : BitVec 3) (z : Bool) (s : State) :
    Host.Outcome State Fault Refusal :=
  execInst (evexInst .evex256 false dst src aaa z s) s

/-- VCVTPH2PS zmm1 with mask, ymm2/m256 (spec/40_vcvtph2ps.md R84). -/
def execEvex512 (dst : BitVec 5) (src : EvexSrc) (aaa : BitVec 3) (z : Bool) (s : State) :
    Host.Outcome State Fault Refusal :=
  execInst (evexInst .evex512 false dst src aaa z s) s

/-- VCVTPH2PS zmm1 with mask, ymm2, exceptions suppressed (spec/40_vcvtph2ps.md
R85): the data result of R84, no flag and no exception for a signaling NaN. -/
def execEvex512Sae (dst : BitVec 5) (src : BitVec 5) (aaa : BitVec 3) (z : Bool) (s : State) :
    Host.Outcome State Fault Refusal :=
  execInst (evexInst .evex512 true dst (.reg src) aaa z s) s

end Sys2Proof.Machine
end

