-- ==== Sys2Proof/Machine/Vex.lean ====
section
/-! DEFINITION. The VEX forms: no mask, no `{sae}`. -/

namespace Sys2Proof.Machine

/-- The decoded record of a VEX instruction (spec/30_encoding.md R49). -/
def vexInst (f : Form) (dst : BitVec 4) (src : VexSrc) (s : State) : Inst where
  form := f
  dst := dst.setWidth 5
  src := vexSource s f (5 + src.len) src
  aaa := 0#3
  z := false
  sae := false
  len := 5 + src.len

/-- VCVTPH2PS xmm1, xmm2/m64 (spec/40_vcvtph2ps.md R80). -/
def execVex128 (dst : BitVec 4) (src : VexSrc) (s : State) : Host.Outcome State Fault Refusal :=
  execInst (vexInst .vex128 dst src s) s

/-- VCVTPH2PS ymm1, xmm2/m128 (spec/40_vcvtph2ps.md R81). -/
def execVex256 (dst : BitVec 4) (src : VexSrc) (s : State) : Host.Outcome State Fault Refusal :=
  execInst (vexInst .vex256 dst src s) s

end Sys2Proof.Machine
end

