-- ==== Sys2Proof/Machine/Dispatch.lean ====
section
/-! DEFINITION. What each instruction does: one arm per constructor of `Instr`. -/

namespace Sys2Proof.Machine

-- spec/opcode_table.json, its six rows in order
def exec (i : Instr) (s : State) : Host.Outcome State Fault Refusal :=
  match i with
  | .vex128 dst src => Sys2Proof.Machine.execVex128 dst src s
  | .vex256 dst src => Sys2Proof.Machine.execVex256 dst src s
  | .evex128 dst src aaa z => Sys2Proof.Machine.execEvex128 dst src aaa z s
  | .evex256 dst src aaa z => Sys2Proof.Machine.execEvex256 dst src aaa z s
  | .evex512 dst src aaa z => Sys2Proof.Machine.execEvex512 dst src aaa z s
  | .evex512Sae dst src aaa z => Sys2Proof.Machine.execEvex512Sae dst src aaa z s

end Sys2Proof.Machine
end

