-- ==== Sys2Proof/Machine/Step.lean ====
section
/-! DEFINITION. One step of the machine (spec/00_scope.md R8), and placing an
instruction where the next step fetches it. -/

namespace Sys2Proof.Machine

/-- One step. A recorded fault is never cleared (spec/60_exceptions.md R109); at
the end of the program text the run has ended (spec/70_reset_and_hazards.md R129);
otherwise the bytes at `pc` are decoded (spec/30_encoding.md R67) and executed. -/
def step (s : State) : Host.Outcome State Fault Refusal :=
  match s.faultRecord with
  | some r => .fault (.raised r.exception r.pc s)
  | none =>
    if s.ip = s.textStop then .refused .endOfProgram
    else
      match decode s.mode s.fetch with
      | .instr i => exec i s
      | .ud => raise .ud s
      | .refuse why => .refused (.undecoded why)

/-- A launch with a table word as the program (log entry 8): the bytes of
`tableBytes` at `pc`, in 64-bit mode, with what spec/70_reset_and_hazards.md R126
requires set. Every other field is kept. -/
def State.withFetchWord (s : State) (nbits w : Nat) : State :=
  s.enable64.loadText (tableBytes nbits w)

end Sys2Proof.Machine
end

