-- ==== Sys2Proof/Safety.lean ====
section
/-! DEFINITION. The terms in which claims about the machine are made: the decoded
record of an instruction, the elements of its source read straight from the
state, the numbers that encodings denote, the invariant of a good state, and how
a run ends. -/

namespace Sys2Proof.Machine

/-! ### An instruction in a state -/

/-- The record of spec/30_encoding.md R49 that an instruction is in a state. -/
def instOf (i : Instr) (s : State) : Inst :=
  match i with
  | .vex128 dst src => vexInst .vex128 dst src s
  | .vex256 dst src => vexInst .vex256 dst src s
  | .evex128 dst src aaa z => evexInst .evex128 false dst src aaa z s
  | .evex256 dst src aaa z => evexInst .evex256 false dst src aaa z s
  | .evex512 dst src aaa z => evexInst .evex512 false dst src aaa z s
  | .evex512Sae dst src aaa z => evexInst .evex512 true dst (.reg src) aaa z s

/-- Source element `j`, read straight from the state: bits `16j+15 : 16j` of the
register, or the bytes at `a + 2j` (low) and `a + 2j + 1` (high) of memory
(spec/00_scope.md R7, spec/20_memory.md R31). -/
def halfAt (s : State) (src : Source) (j : Nat) : Half :=
  match src with
  | .reg n => (s.readVec n).extractLsb' (16 * j) 16
  | .mem a => s.mem.read (a.toNat + 2 * j + 1) ++ s.mem.read (a.toNat + 2 * j)

/-- Element `j` is selected: no writemask, or bit `j` of the opmask register
(spec/40_vcvtph2ps.md R86). -/
def selected (s : State) (aaa : BitVec 3) (j : Nat) : Prop :=
  aaa = 0#3 ∨ (s.readK aaa).getLsbD j = true

/-- The conversion of some selected element of the first `kl` reports Invalid
(spec/40_vcvtph2ps.md R78 step 7, R90): with the recommended body, the element is a
signaling NaN. -/
def invalidArises (s : State) (src : Source) (aaa : BitVec 3) (kl : Nat) : Prop :=
  ∃ j < kl, selected s aaa j ∧ (s.cfg.cvt (halfAt s src j)).2 = true

/-- Nothing stands between the instruction and step 5 of the sequence: the form
is available, `TS` is clear, the read is admitted, and no alignment check is
raised: none is due, or the free value says that it does not occur
(spec/40_vcvtph2ps.md R78, spec/60_exceptions.md R105, R108). -/
def reachesConversion (s : State) (i : Inst) : Prop :=
  s.available i.form = true ∧ s.ts = false ∧ memFaultOf s i = none ∧
    (acDue s i.form i.src = true → Config.acOccurs s.acTicks = false)

/-- The model's counter of free values after the conversion is reached: one more
where an alignment check was due (log entry 10). -/
def ticksAfter (s : State) (i : Inst) : Nat :=
  if acDue s i.form i.src then s.acTicks + 1 else s.acTicks

/-- The Invalid condition raises nothing: masked, suppressed, or not there. -/
def invalidQuiet (s : State) (i : Inst) : Prop :=
  i.sae = true ∨ s.im = true ∨ ¬ invalidArises s i.src i.aaa i.form.kl

/-! ### Encodings and addresses, in numbers -/

/-- The bytes after ModRM, SIB byte included, by the table of spec/30_encoding.md
R66; `sib` is the byte after ModRM. -/
def tailLength (modrm sib : Byte) : Nat :=
  match (bits modrm 6 2).toNat, (bits modrm 0 3).toNat with
  | 3, _ => 0
  | 0, 5 => 4
  | 0, 4 => if bits sib 0 3 = 5#3 then 5 else 1
  | 0, _ => 0
  | 1, 4 => 2
  | 1, _ => 1
  | _, 4 => 5
  | _, _ => 4

/-- The size of the address space of a mode (spec/20_memory.md R30). -/
def addrSpace (m : Mode) : Nat :=
  match m with
  | .m64 => 2 ^ 64
  | .m32 => 2 ^ 32

/-- A displacement as an integer: `disp8` signed and scaled by the form's `N`,
`disp32` signed (spec/30_encoding.md R56, R57). -/
def dispInt (f : Form) : Disp → ℤ
  | .none => 0
  | .d8 d => d.toInt * f.disp8Scale
  | .d32 d => d.toInt

/-- The index term as an integer: register times 1, 2, 4 or 8; index 0100b means
none (spec/30_encoding.md R53). -/
def indexInt (s : State) (idx : BitVec 4) (scale : BitVec 2) : ℤ :=
  if idx = 4#4 then 0 else (s.readGpr idx).toNat * 2 ^ scale.toNat

/-- The exact sum whose residue is the linear address of a memory operand
(spec/30_encoding.md R53, R54, R55). -/
def addrSum (s : State) (f : Form) (len : Nat) : MemForm → ℤ
  | .base b d => (s.readGpr b).toNat + dispInt f d
  | .dispOnly d =>
    match s.mode with
    | .m64 => s.ip.toNat + len + d.toInt
    | .m32 => d.toInt
  | .sib b idx scale d => (s.readGpr b).toNat + indexInt s idx scale + dispInt f d
  | .sibNoBase idx scale d => indexInt s idx scale + d.toInt

/-! ### The numbers encodings denote (spec/40_vcvtph2ps.md R76) -/

/-- The number a finite half-precision encoding denotes. -/
def halfValue (h : Half) : ℚ :=
  (-1) ^ (halfSign h).toNat *
    (if halfExp h = 0#5 then ((halfFrac h).toNat : ℚ) * 2 ^ (-24 : ℤ)
     else 2 ^ (((halfExp h).toNat : ℤ) - 15) * (1 + ((halfFrac h).toNat : ℚ) / 1024))

/-- The number a finite single-precision encoding denotes. -/
def singleValue (r : Single) : ℚ :=
  (-1) ^ (r.extractLsb' 31 1).toNat *
    (if r.extractLsb' 23 8 = 0#8 then ((r.extractLsb' 0 23).toNat : ℚ) * 2 ^ (-149 : ℤ)
     else 2 ^ (((r.extractLsb' 23 8).toNat : ℤ) - 127) *
       (1 + ((r.extractLsb' 0 23).toNat : ℚ) / 8388608))

/-! ### Good states -/

/-- The invariant of a state of a run: words no wider than the machine's, the
reserved bits of `MXCSR` clear (spec/10_state.md R13), memory in canonical form, and
no fault recorded. That `pc` stays in the program text is a statement about
`State.textLeft`, which counts modulo the address space. -/
structure Inv (s : State) : Prop where
  pcWidth   : wrap s.mode s.pc = s.pc
  endWidth  : wrap s.mode s.textEnd = s.textEnd
  vecWidth  : ∀ n : BitVec 5, s.readVec n = s.vec[n.toNat]
  kWidth    : ∀ n : BitVec 3, s.readK n = s.k[n.toNat]
  gprWidth  : ∀ n : BitVec 4, s.readGpr n = s.gpr[n.toNat]
  mxcsrRes  : s.mxcsr.extractLsb' 16 16 = 0#16
  memory    : s.mem.wf
  noFault   : s.faultRecord = none

/-! ### Runs (spec/70_reset_and_hazards.md R129) -/

/-- The run has ended successfully: `pc` is the end of the program text and no
fault is recorded. -/
def State.finished (s : State) : Prop := s.faultRecord = none ∧ s.ip = s.textStop

/-- A run from `s` ends successfully in `t`. -/
def endsIn (s t : State) : Prop := ∃ n, Host.Core.run core n s = .next t ∧ t.finished

/-- One step from `s` raises no exception. -/
def State.safeStep (s : State) : Prop := ∀ f, step s ≠ .fault f

end Sys2Proof.Machine
end

