-- ==== Sys2Proof/Certificates/Slice0/Obligations.lean ====
section
/-! DEFINITION. The statements for the provers, from the numbered rules of spec/.
`raise e s` is the outcome `Fault(e, pc)` with the state `s` and its fault record
set (statement RaiseRecordsFault says so); `instOf i s` is the decoded record of
an instruction in a state. -/

open Sys2Proof Sys2Proof.Machine

/-! ### Decoding -/

/-- Decoding what the encoder writes gives the instruction back, whatever follows
it, in either mode (spec/30_encoding.md R45 to R67). -/
def Obligations.DecodeOfEncode : Prop :=
  ∀ (m : Mode) (i : Instr) (rest : List Byte), i.wf m = true →
    decode m (encode i ++ rest) = .instr i

/-- The decoder yields only well-formed instructions, no longer than the bytes it
was given. -/
def Obligations.DecodedIsWellFormedAndFits : Prop :=
  ∀ (m : Mode) (bs : List Byte) (i : Instr), decode m bs = .instr i →
    i.wf m = true ∧ i.len ≤ bs.length

/-- The length of a decoded instruction is the table of spec/30_encoding.md R66,
with P = 3 for VEX and 4 for EVEX, and at most 11. -/
def Obligations.DecodedLengthIsTable : Prop :=
  (∀ (m : Mode) (v1 v2 op modrm : Byte) (rest : List Byte) (i : Instr),
    decode m (0xC4#8 :: v1 :: v2 :: op :: modrm :: rest) = .instr i →
      i.len = 3 + 2 + tailLength modrm (rest.headD 0#8) ∧ i.len ≤ 11) ∧
  (∀ (m : Mode) (p0 p1 p2 op modrm : Byte) (rest : List Byte) (i : Instr),
    decode m (0x62#8 :: p0 :: p1 :: p2 :: op :: modrm :: rest) = .instr i →
      i.len = 4 + 2 + tailLength modrm (rest.headD 0#8) ∧ i.len ≤ 11)

/-- An answer of the decoder that is an instruction or `UD` does not change when more
bytes follow: it was decided by the bytes there (spec/30_encoding.md R67; log entry 16). -/
def Obligations.DecodingIgnoresWhatFollows : Prop :=
  ∀ (m : Mode) (bs more : List Byte),
    (∀ i, decode m bs = .instr i → decode m (bs ++ more) = .instr i) ∧
    (decode m bs = .ud → decode m (bs ++ more) = .ud)

/-- The lines of spec/30_encoding.md R67 in order, each decided by the bytes it names and
no others: whatever follows those bytes, nothing included (log entry 16). -/
def Obligations.ShortStringsAreDecided : Prop :=
  (∀ (m : Mode) (v1 : Byte) (rest : List Byte), bits v1 0 5 ≠ 2#5 →
    decode m (0xC4#8 :: v1 :: rest) = .refuse .notVcvtph2ps) ∧
  (∀ (m : Mode) (v1 v2 : Byte) (rest : List Byte), bits v2 0 2 ≠ 1#2 →
    (m = .m32 → bits v1 6 2 = 3#2) → bits v1 0 5 = 2#5 →
    decode m (0xC4#8 :: v1 :: v2 :: rest) = .refuse .notVcvtph2ps) ∧
  (∀ (m : Mode) (v1 v2 : Byte) (rest : List Byte),
    (m = .m32 → bits v1 5 3 = 7#3) → bits v1 0 5 = 2#5 → bits v2 0 2 = 1#2 →
    (v2.getLsbD 7 = true ∨ bits v2 3 4 ≠ 15#4) →
    decode m (0xC4#8 :: v1 :: v2 :: 0x13#8 :: rest) = .ud) ∧
  (∀ (m : Mode) (p0 : Byte) (rest : List Byte),
    (m = .m32 → bits p0 6 2 = 3#2) → bits p0 2 2 ≠ 0#2 →
    decode m (0x62#8 :: p0 :: rest) = .ud) ∧
  (∀ (m : Mode) (p0 p1 : Byte) (rest : List Byte),
    (m = .m32 → bits p0 6 2 = 3#2) → p1.getLsbD 2 = false →
    decode m (0x62#8 :: p0 :: p1 :: rest) = .ud) ∧
  (∀ (m : Mode) (p0 p1 : Byte) (rest : List Byte),
    (m = .m32 → bits p0 6 2 = 3#2) → bits p0 2 2 = 0#2 → p1.getLsbD 2 = true →
    (bits p0 0 2 ≠ 2#2 ∨ bits p1 0 2 ≠ 1#2) →
    decode m (0x62#8 :: p0 :: p1 :: rest) = .refuse .notVcvtph2ps)

/-- The register numbers of a VEX register form (spec/30_encoding.md R51, R52): the
destination from stored `R` and `reg`, the source from stored `B` and `r/m`, with
stored `X` ignored; the length bit picks the form. -/
def Obligations.VexRegisterNumbers : Prop :=
  ∀ (v1 v2 modrm : Byte) (rest : List Byte),
    bits v1 0 5 = 2#5 → v2 &&& 0xFB#8 = 0x79#8 → bits modrm 6 2 = 3#2 →
    ∃ dst src : BitVec 4,
      decode .m64 (0xC4#8 :: v1 :: v2 :: 0x13#8 :: modrm :: rest) =
        .instr (if v2.getLsbD 2 then .vex256 dst (.reg src) else .vex128 dst (.reg src)) ∧
      dst.toNat = 8 * (1 - (bits v1 7 1).toNat) + (bits modrm 3 3).toNat ∧
      src.toNat = 8 * (1 - (bits v1 5 1).toNat) + (bits modrm 0 3).toNat

/-- The register numbers of an EVEX register form (spec/30_encoding.md R51, R52):
the destination from stored `R'`, `R` and `reg`, the source from stored `X`, `B` and
`r/m`. -/
def Obligations.EvexRegisterNumbers : Prop :=
  ∀ (p0 p2 modrm : Byte) (rest : List Byte),
    bits p0 0 4 = 2#4 → bits p2 3 2 = 1#2 → bits p2 5 2 ≠ 3#2 →
    (p2.getLsbD 7 = true → bits p2 0 3 ≠ 0#3) → bits modrm 6 2 = 3#2 →
    ∃ dst src : BitVec 5,
      decode .m64 (0x62#8 :: p0 :: 0x7D#8 :: p2 :: 0x13#8 :: modrm :: rest) =
        evexOfLL (bits p2 5 2) dst (.reg src) (bits p2 0 3) (p2.getLsbD 7) ∧
      dst.toNat = 16 * (1 - (bits p0 4 1).toNat) + 8 * (1 - (bits p0 7 1).toNat) +
        (bits modrm 3 3).toNat ∧
      src.toNat = 16 * (1 - (bits p0 6 1).toNat) + 8 * (1 - (bits p0 5 1).toNat) +
        (bits modrm 0 3).toNat

/-- The two reserved-field rules of spec/30_encoding.md R60: a VEX or EVEX encoding
that otherwise matches raises `#UD` when stored `vvvv` is not `1111b`, and a VEX one
when `W = 1`, whatever the registers and memory hold and whatever follows the opcode
byte, nothing included. -/
def Obligations.ReservedVvvvAndVexWRaiseUD : Prop :=
  (∀ (s : State) (v1 v2 : Byte) (rest : List Byte),
    s.faultRecord = none →
    s.fetch = 0xC4#8 :: v1 :: v2 :: 0x13#8 :: rest →
    (s.mode = .m32 → bits v1 5 3 = 7#3) → bits v1 0 5 = 2#5 → bits v2 0 2 = 1#2 →
    (v2.getLsbD 7 = true ∨ bits v2 3 4 ≠ 15#4) →
    step s = raise .ud s) ∧
  (∀ (s : State) (p0 p1 p2 : Byte) (rest : List Byte),
    s.faultRecord = none →
    s.fetch = 0x62#8 :: p0 :: p1 :: p2 :: 0x13#8 :: rest →
    (s.mode = .m32 → bits p0 4 4 = 15#4 ∧ p2.getLsbD 3 = true) →
    bits p0 0 2 = 2#2 → bits p1 0 2 = 1#2 → bits p1 3 4 ≠ 15#4 →
    step s = raise .ud s)

/-- The table of spec/30_encoding.md R61: `EVEX.W = 1`, `L'L = 11b` with `b = 0`,
`P0[3:2]` not `00b`, `P1[2]` not `1`, stored `V'` 0: each raises `#UD`; another map,
`pp` or opcode byte is refused as not VCVTPH2PS. -/
def Obligations.ReservedEvexFieldsRaiseUD : Prop :=
  (∀ (s : State) (p0 p1 p2 : Byte) (rest : List Byte),
    s.faultRecord = none →
    s.fetch = 0x62#8 :: p0 :: p1 :: p2 :: 0x13#8 :: rest →
    (s.mode = .m32 → bits p0 4 4 = 15#4 ∧ p2.getLsbD 3 = true) →
    bits p0 0 2 = 2#2 → bits p1 0 2 = 1#2 →
    (p1.getLsbD 7 = true ∨ (bits p2 5 2 = 3#2 ∧ p2.getLsbD 4 = false) ∨ bits p0 2 2 ≠ 0#2 ∨
      p1.getLsbD 2 = false ∨ p2.getLsbD 3 = false) →
    step s = raise .ud s) ∧
  (∀ (s : State) (v1 v2 op : Byte) (rest : List Byte),
    s.faultRecord = none →
    s.fetch = 0xC4#8 :: v1 :: v2 :: op :: rest →
    (bits v1 0 5 ≠ 2#5 ∨ bits v2 0 2 ≠ 1#2 ∨ op ≠ 0x13#8) →
    step s = .refused (.undecoded .notVcvtph2ps)) ∧
  (∀ (s : State) (p0 p1 p2 op : Byte) (rest : List Byte),
    s.faultRecord = none →
    s.fetch = 0x62#8 :: p0 :: p1 :: p2 :: op :: rest →
    bits p0 2 2 = 0#2 → p1.getLsbD 2 = true →
    (bits p0 0 2 ≠ 2#2 ∨ bits p1 0 2 ≠ 1#2 ∨ op ≠ 0x13#8) →
    step s = .refused (.undecoded .notVcvtph2ps))

/-- The table of spec/30_encoding.md R62 for the `b` bit, on encodings whose other
fields are those of R49 and that hold all their bytes: with `b = 0` the plain form
of the length, with `b = 1` and a register the `{sae}` form for `L'L = 10b` and a
refusal for every other `L'L`, with `b = 1` and memory `UD`. In 32-bit mode the
extension bits are stored 1 (R58). -/
def Obligations.EvexBBitTable : Prop :=
  ∀ (m : Mode) (p0 p2 modrm : Byte) (rest : List Byte),
    (m = .m32 → bits p0 4 4 = 15#4) →
    bits p0 0 4 = 2#4 → p2.getLsbD 3 = true → (p2.getLsbD 7 = true → bits p2 0 3 ≠ 0#3) →
    tailLength modrm (rest.headD 0#8) ≤ rest.length →
    let d := decode m (0x62#8 :: p0 :: 0x7D#8 :: p2 :: 0x13#8 :: modrm :: rest)
    (p2.getLsbD 4 = false → bits p2 5 2 = 0#2 →
      ∃ dst src, d = .instr (.evex128 dst src (bits p2 0 3) (p2.getLsbD 7))) ∧
    (p2.getLsbD 4 = false → bits p2 5 2 = 1#2 →
      ∃ dst src, d = .instr (.evex256 dst src (bits p2 0 3) (p2.getLsbD 7))) ∧
    (p2.getLsbD 4 = false → bits p2 5 2 = 2#2 →
      ∃ dst src, d = .instr (.evex512 dst src (bits p2 0 3) (p2.getLsbD 7))) ∧
    (p2.getLsbD 4 = true → bits modrm 6 2 = 3#2 → bits p2 5 2 = 2#2 →
      ∃ dst src, d = .instr (.evex512Sae dst src (bits p2 0 3) (p2.getLsbD 7))) ∧
    (p2.getLsbD 4 = true → bits modrm 6 2 = 3#2 → bits p2 5 2 ≠ 2#2 →
      d = .refuse .saeWithOtherLL) ∧
    (p2.getLsbD 4 = true → bits modrm 6 2 ≠ 3#2 → d = .ud)

/-- `z = 1` without a writemask raises `#UD` (spec/30_encoding.md R63, its last
clause). -/
def Obligations.ZeroingWithoutMaskRaisesUD : Prop :=
  ∀ (s : State) (p0 p1 p2 : Byte) (rest : List Byte),
    s.faultRecord = none →
    s.fetch = 0x62#8 :: p0 :: p1 :: p2 :: 0x13#8 :: rest →
    (s.mode = .m32 → bits p0 4 4 = 15#4 ∧ p2.getLsbD 3 = true) →
    bits p0 0 2 = 2#2 → bits p1 0 2 = 1#2 → p2.getLsbD 7 = true → bits p2 0 3 = 0#3 →
    step s = raise .ud s

/-- Legacy prefixes (spec/30_encoding.md R64): `LOCK`, `66h`, `F2h`, `F3h`, and `REX` in
64-bit mode, before bytes that decode to the instruction or to `UD` raise `#UD`; a
segment-override or address-size prefix is refused. -/
def Obligations.LegacyPrefixesRaiseUDOrRefuse : Prop :=
  (∀ (s : State) (b : Byte) (rest : List Byte),
    s.faultRecord = none → s.fetch = b :: rest →
    (b ∈ [0xF0#8, 0x66#8, 0xF2#8, 0xF3#8] ∨ (s.mode = .m64 ∧ 0x40#8 ≤ b ∧ b ≤ 0x4F#8)) →
    ((∃ i, decode s.mode rest = .instr i) ∨ decode s.mode rest = .ud) →
    step s = raise .ud s) ∧
  (∀ (s : State) (b : Byte) (rest : List Byte),
    s.faultRecord = none → s.fetch = b :: rest →
    b ∈ [0x26#8, 0x2E#8, 0x36#8, 0x3E#8, 0x64#8, 0x65#8, 0x67#8] →
    step s = .refused (.undecoded .legacyPrefix))

/-- A first byte that is neither `C4h`, `62h` nor one of the legacy prefixes of R64, the
two-byte VEX escape `C5h` among them, is refused as not VCVTPH2PS
(spec/30_encoding.md R65, R67). -/
def Obligations.OtherFirstByteRefused : Prop :=
  ∀ (m : Mode) (b : Byte) (rest : List Byte),
    b ≠ 0xC4#8 → b ≠ 0x62#8 → isUdPrefix m b = false → isRefusedPrefix b = false →
    decode m (b :: rest) = .refuse .notVcvtph2ps

/-- 32-bit mode (spec/30_encoding.md R58): with the two top bits of the next byte not
`11b`, `C4h` and `62h` are another instruction; with another extension bit stored 0 the
encoding is refused by name; and a decoded instruction names registers 0 to 7 only, as
vector registers and (in `Instr.wf`) as base and index. -/
def Obligations.Mode32ExtensionBits : Prop :=
  (∀ (v1 : Byte) (rest : List Byte), bits v1 6 2 ≠ 3#2 →
    decode .m32 (0xC4#8 :: v1 :: rest) = .refuse .notVcvtph2ps) ∧
  (∀ (p0 : Byte) (rest : List Byte), bits p0 6 2 ≠ 3#2 →
    decode .m32 (0x62#8 :: p0 :: rest) = .refuse .notVcvtph2ps) ∧
  (∀ (v1 v2 : Byte) (rest : List Byte),
    bits v1 6 2 = 3#2 → v1.getLsbD 5 = false → bits v1 0 5 = 2#5 → bits v2 0 2 = 1#2 →
    decode .m32 (0xC4#8 :: v1 :: v2 :: 0x13#8 :: rest) =
      .refuse .extBitIn32BitMode) ∧
  (∀ (p0 p1 p2 : Byte) (rest : List Byte),
    bits p0 6 2 = 3#2 → bits p0 0 4 = 2#4 → p1.getLsbD 2 = true → bits p1 0 2 = 1#2 →
    (p0.getLsbD 5 = false ∨ p0.getLsbD 4 = false ∨ p2.getLsbD 3 = false) →
    decode .m32 (0x62#8 :: p0 :: p1 :: p2 :: 0x13#8 :: rest) =
      .refuse .extBitIn32BitMode) ∧
  (∀ (bs : List Byte) (i : Instr) (s : State), decode .m32 bs = .instr i →
    (instOf i s).dst.toNat < 8 ∧ (∀ n, (instOf i s).src = .reg n → n.toNat < 8) ∧
      i.wf .m32 = true)

/-- Words written out in spec/95_test_vectors.md (E1, E2, E4, E7, E9, E23, E28, E33) and
what they decode to. -/
def Obligations.WordsOfTheSpecDecode : Prop :=
  decode .m64 [0xC4, 0xE2, 0x79, 0x13, 0xCA] = .instr (.vex128 1 (.reg 2)) ∧
  decode .m64 [0xC4, 0xE2, 0x7D, 0x13, 0xCA] = .instr (.vex256 1 (.reg 2)) ∧
  decode .m64 [0x62, 0xF2, 0x7D, 0x08, 0x13, 0xCA] = .instr (.evex128 1 (.reg 2) 0 false) ∧
  decode .m64 [0x62, 0xF2, 0x7D, 0xC9, 0x13, 0xCA] = .instr (.evex512 1 (.reg 2) 1 true) ∧
  decode .m64 [0x62, 0xF2, 0x7D, 0x58, 0x13, 0xCA] = .instr (.evex512Sae 1 2 0 false) ∧
  decode .m64 [0x62, 0xF2, 0x7D, 0x28, 0x13, 0x48, 0xFF] =
    .instr (.evex256 1 (.mem (.base 0 (.d8 0xFF))) 0 false) ∧
  decode .m64 [0xC4, 0xA2, 0x79, 0x13, 0x04, 0x88] =
    .instr (.vex128 0 (.mem (.sib 0 9 2 .none))) ∧
  decode .m64 [0x62, 0x02, 0x7D, 0x48, 0x13, 0xFF] = .instr (.evex512 31 (.reg 31) 0 false)

/-! ### A step -/

/-- A step decodes the bytes at `pc` and executes the instruction; nothing stands
around it. -/
def Obligations.StepRunsDecodedInstruction : Prop :=
  ∀ (s : State) (i : Instr), s.faultRecord = none →
    decode s.mode s.fetch = .instr i → step s = exec i s

/-- Where the encoding of a well-formed instruction stands at `pc`, a step executes
that instruction. -/
def Obligations.StepRunsEncodedInstruction : Prop :=
  ∀ (s : State) (i : Instr) (rest : List Byte), s.faultRecord = none → i.wf s.mode = true →
    s.fetch = encode i ++ rest → step s = exec i s

/-- A program text that a launch lays out at `pc` is what the machine fetches, at any
`pc`: a text may run over the top of the address space, as `pc` does
(spec/10_state.md R15; log entry 7). -/
def Obligations.LoadedTextIsFetched : Prop :=
  ∀ (s : State) (bs : List Byte), s.mem.wf → bs.length < addrSpace s.mode →
    (s.loadText bs).fetch = bs

/-- Placing a word of the opcode table makes the next step run the instruction that
the decoder reads from the word. -/
def Obligations.PlacedWordRunsNext : Prop :=
  ∀ (s : State) (nbits w : Nat) (i : Instr), decodeTableWord nbits w = some i → s.mem.wf →
    step (s.withFetchWord nbits w) = exec i (s.withFetchWord nbits w)

/-- `raise E` ends the run in `Fault(E, pc)`, with the state unchanged but for the fault
record (spec/60_exceptions.md R109); the faulted state is never a final state of a
successful run, and the fault is never cleared: every step from it gives it again. -/
def Obligations.RaiseRecordsFault : Prop :=
  ∀ (e : Exception) (s : State),
    let t : State := { s with faultRecord := some ⟨e, s.ip⟩ }
    raise e s = .fault (.raised e s.ip t) ∧ ¬ t.finished ∧
      step t = .fault (.raised e s.ip t) ∧ ∀ u, ¬ endsIn t u

/-- A step that stops with an exception leaves it recorded with the `pc` of the
instruction, and every later step stops with the same exception. -/
def Obligations.FaultedStepStaysFaulted : Prop :=
  ∀ (s t : State) (e : Exception) (pc : Addr), s.faultRecord = none →
    step s = .fault (.raised e pc t) →
    pc = s.ip ∧ t.faultRecord = some ⟨e, pc⟩ ∧ t.pc = s.pc ∧ step t = .fault (.raised e pc t)

/-- At the end of the program text the run has ended, and the state it ends in is the
only one (spec/70_reset_and_hazards.md R129). -/
def Obligations.RunEndsAtEndOfText : Prop :=
  (∀ s : State, s.finished → step s = .refused .endOfProgram) ∧
  (∀ s t u : State, endsIn s t → endsIn s u → t = u)

/-- Where the program text left is one instruction, completing it ends the run
(spec/70_reset_and_hazards.md R129), also where the text ends at the top of the address
space and `pc` comes round to 0 (spec/10_state.md R15; log entry 7). The refusal
`endOfProgram` is the model's own name for it. -/
def Obligations.LastInstructionEndsRun : Prop :=
  ∀ (s t : State) (i : Instr), s.faultRecord = none → i.wf s.mode = true →
    s.fetch = encode i → step s = .next t → t.finished ∧ step t = .refused .endOfProgram

/-! ### Addresses and memory -/

/-- The linear address of a memory operand is the exact sum of base, scaled index and
displacement, modulo the address space of the mode (spec/30_encoding.md R53 to R57). -/
def Obligations.EffectiveAddressIsSum : Prop :=
  ∀ (s : State) (f : Form) (len : Nat) (m : MemForm),
    ((effectiveAddress s f len m).toNat : ℤ) = addrSum s f len m % (addrSpace s.mode : ℤ)

/-- Byte order (spec/20_memory.md R31): bit `b` of a memory source is bit `b mod 8` of the
byte at `a + b/8`, so element `j` has its low byte at `a + 2j` and its high byte at
`a + 2j + 1`; instruction bytes are fetched in increasing address order, modulo the address
space as `pc` is (R15; log entry 7); a four-byte displacement is little-endian too. -/
def Obligations.MemoryReadIsLittleEndian : Prop :=
  (∀ (s : State) (a : Addr) (n b : Nat), n ≤ 32 → b < 8 * n →
    (memRead s a n).getLsbD b = (s.mem.read (a.toNat + b / 8)).getLsbD (b % 8)) ∧
  (∀ (s : State) (f : Form) (a : Addr) (j : Nat), j < f.kl →
    srcElem (sourceBits s f (.mem a)) j =
      s.mem.read (a.toNat + 2 * j + 1) ++ s.mem.read (a.toNat + 2 * j)) ∧
  (∀ (s : State) (i : Nat), i < s.textLeft →
    s.fetch[i]? = some (s.mem.read ((s.ip.toNat + i) % addrSpace s.mode))) ∧
  (∀ (bs : List Byte) (d : BitVec 32) (b : Nat), takeDisp32 bs = some d → b < 32 →
    d.getLsbD b = (bs.getD (b / 8) 0#8).getLsbD (b % 8))

/-- A range is accessible when every byte address of it, counted without wrap-around,
lies in the address space of the mode, is canonical in 64-bit mode (bits 63:47 all
equal), and lies in a range the launch admits (spec/20_memory.md R30, R37). -/
def Obligations.AccessibleMeansEveryByte : Prop :=
  ∀ (s : State) (a n : Nat), s.accessible a n = true ↔
    ∀ k < n, a + k < addrSpace s.mode ∧
      (s.mode = .m64 → (BitVec.ofNat 64 (a + k)).extractLsb' 47 17 = 0#17 ∨
        (BitVec.ofNat 64 (a + k)).extractLsb' 47 17 = BitVec.allOnes 17) ∧
      ∃ r ∈ s.readable, r.lo ≤ a + k ∧ a + k < r.lo + r.size

/-! ### The element conversion -/

/-- `cvt_h2s` is a configuration field (spec/00_scope.md R4): every function can be set,
setting it sets nothing else, and where the parameters list no difference it is the
recommended body (spec/40_vcvtph2ps.md R76), as at reset. That the field is held as a list
of differences is the model's choice (log entry 11). -/
def Obligations.ConversionIsParameter : Prop :=
  (∀ f : Half → Single × Bool, ∃ d, ∀ (p : Params) (h : Half),
    ({ p with cvtDiff := d } : Params).cvt h = f h) ∧
  (∀ (p : Params) (h : Half), p.cvtDiff = [] → p.cvt h = cvtH2s h) ∧
  State.reset.cfg.cvtDiff = []

/-- The table of spec/40_vcvtph2ps.md R76, the recommended body of `cvt_h2s`, in numbers: for sign `sg`, exponent `e` and
fraction `f` of the input, the result and the Invalid condition of each class; and the
value that the rows of a finite input give is the input's own. -/
def Obligations.ConversionTable : Prop :=
  ∀ h : Half,
    let sg := (halfSign h).toNat
    let e := (halfExp h).toNat
    let f := (halfFrac h).toNat
    let r := (cvtH2s h).1.toNat
    (e = 0 ∧ f = 0 → r = sg * 2 ^ 31 ∧ (cvtH2s h).2 = false) ∧
    (∀ p, e = 0 → 2 ^ p ≤ f → f < 2 ^ (p + 1) →
      r = sg * 2 ^ 31 + (p + 103) * 2 ^ 23 + f * 2 ^ (23 - p) % 2 ^ 23 ∧
        (cvtH2s h).2 = false) ∧
    (1 ≤ e ∧ e ≤ 30 →
      r = sg * 2 ^ 31 + (e + 112) * 2 ^ 23 + f * 2 ^ 13 ∧ (cvtH2s h).2 = false) ∧
    (e = 31 ∧ f = 0 → r = sg * 2 ^ 31 + 255 * 2 ^ 23 ∧ (cvtH2s h).2 = false) ∧
    (e = 31 ∧ 512 ≤ f →
      r = sg * 2 ^ 31 + 255 * 2 ^ 23 + f * 2 ^ 13 ∧ (cvtH2s h).2 = false) ∧
    (e = 31 ∧ 0 < f ∧ f < 512 →
      r = sg * 2 ^ 31 + 255 * 2 ^ 23 + 2 ^ 22 + f * 2 ^ 13 ∧ (cvtH2s h).2 = true) ∧
    (e ≠ 31 → singleValue (cvtH2s h).1 = halfValue h)

/-- The sign is always copied, no result is a denormal single-precision number, and the
low 13 bits of a result are 0 (spec/40_vcvtph2ps.md R77 (c), (e)). -/
def Obligations.ConversionSignAndRange : Prop :=
  ∀ h : Half, (cvtH2s h).1.getLsbD 31 = h.getLsbD 15 ∧
    ((cvtH2s h).1.extractLsb' 23 8 = 0#8 → h.extractLsb' 0 15 = 0#15) ∧
    (cvtH2s h).1.extractLsb' 0 13 = 0#13

/-! ### What each form computes: where it completes, and its result -/

/-- VCVTPH2PS xmm1, xmm2/m64 (spec/40_vcvtph2ps.md R80): where the conversion is reached
and raises nothing, the instruction completes: four elements converted, the rest of the
register 0, `pc` advanced, `IE` set exactly when the conversion of an element reports
Invalid. `cvt_h2s` is that of the parameters; with the recommended body
(ConversionIsParameter, ConversionTable) it is Invalid for a signaling NaN only. -/
def Obligations.Vex128Converts : Prop :=
  ∀ (dst : BitVec 4) (src : VexSrc) (s : State),
    let i := instOf (.vex128 dst src) s
    reachesConversion s i → invalidQuiet s i →
    ∃ t, exec (.vex128 dst src) s = .next t ∧
      (∀ j < 4, lane (t.readVec (dst.setWidth 5)) j = (s.cfg.cvt (halfAt s i.src j)).1) ∧
      (∀ j < 16, 4 ≤ j → lane (t.readVec (dst.setWidth 5)) j = 0#32) ∧
      t.pc = wrap s.mode (s.ip + BitVec.ofNat 64 (5 + src.len)) ∧
      ((∃ j < 4, (s.cfg.cvt (halfAt s i.src j)).2 = true) → t.mxcsr = s.mxcsr ||| 1#32) ∧
      ((∀ j < 4, (s.cfg.cvt (halfAt s i.src j)).2 = false) → t.mxcsr = s.mxcsr)

/-- VCVTPH2PS ymm1, xmm2/m128 (spec/40_vcvtph2ps.md R81): as the 128-bit form, with eight
elements. -/
def Obligations.Vex256Converts : Prop :=
  ∀ (dst : BitVec 4) (src : VexSrc) (s : State),
    let i := instOf (.vex256 dst src) s
    reachesConversion s i → invalidQuiet s i →
    ∃ t, exec (.vex256 dst src) s = .next t ∧
      (∀ j < 8, lane (t.readVec (dst.setWidth 5)) j = (s.cfg.cvt (halfAt s i.src j)).1) ∧
      (∀ j < 16, 8 ≤ j → lane (t.readVec (dst.setWidth 5)) j = 0#32) ∧
      t.pc = wrap s.mode (s.ip + BitVec.ofNat 64 (5 + src.len)) ∧
      ((∃ j < 8, (s.cfg.cvt (halfAt s i.src j)).2 = true) → t.mxcsr = s.mxcsr ||| 1#32) ∧
      ((∀ j < 8, (s.cfg.cvt (halfAt s i.src j)).2 = false) → t.mxcsr = s.mxcsr)

/-- VCVTPH2PS xmm1 with mask, xmm2/m64 (spec/40_vcvtph2ps.md R82): four elements, each
converted, kept or zeroed by the mask; the rest of the register 0. -/
def Obligations.Evex128Converts : Prop :=
  ∀ (dst : BitVec 5) (src : EvexSrc) (aaa : BitVec 3) (z : Bool) (s : State),
    let i := instOf (.evex128 dst src aaa z) s
    reachesConversion s i → invalidQuiet s i →
    ∃ t, exec (.evex128 dst src aaa z) s = .next t ∧
      (∀ j < 4, selected s aaa j → lane (t.readVec dst) j = (s.cfg.cvt (halfAt s i.src j)).1) ∧
      (∀ j < 4, ¬ selected s aaa j →
        lane (t.readVec dst) j = if z then 0#32 else lane (s.readVec dst) j) ∧
      (∀ j < 16, 4 ≤ j → lane (t.readVec dst) j = 0#32) ∧
      t.pc = wrap s.mode (s.ip + BitVec.ofNat 64 (6 + src.len)) ∧
      (invalidArises s i.src aaa 4 → t.mxcsr = s.mxcsr ||| 1#32) ∧
      (¬ invalidArises s i.src aaa 4 → t.mxcsr = s.mxcsr)

/-- VCVTPH2PS ymm1 with mask, xmm2/m128 (spec/40_vcvtph2ps.md R83): eight elements. -/
def Obligations.Evex256Converts : Prop :=
  ∀ (dst : BitVec 5) (src : EvexSrc) (aaa : BitVec 3) (z : Bool) (s : State),
    let i := instOf (.evex256 dst src aaa z) s
    reachesConversion s i → invalidQuiet s i →
    ∃ t, exec (.evex256 dst src aaa z) s = .next t ∧
      (∀ j < 8, selected s aaa j → lane (t.readVec dst) j = (s.cfg.cvt (halfAt s i.src j)).1) ∧
      (∀ j < 8, ¬ selected s aaa j →
        lane (t.readVec dst) j = if z then 0#32 else lane (s.readVec dst) j) ∧
      (∀ j < 16, 8 ≤ j → lane (t.readVec dst) j = 0#32) ∧
      t.pc = wrap s.mode (s.ip + BitVec.ofNat 64 (6 + src.len)) ∧
      (invalidArises s i.src aaa 8 → t.mxcsr = s.mxcsr ||| 1#32) ∧
      (¬ invalidArises s i.src aaa 8 → t.mxcsr = s.mxcsr)

/-- VCVTPH2PS zmm1 with mask, ymm2/m256 (spec/40_vcvtph2ps.md R84): sixteen elements, the
whole register. -/
def Obligations.Evex512Converts : Prop :=
  ∀ (dst : BitVec 5) (src : EvexSrc) (aaa : BitVec 3) (z : Bool) (s : State),
    let i := instOf (.evex512 dst src aaa z) s
    reachesConversion s i → invalidQuiet s i →
    ∃ t, exec (.evex512 dst src aaa z) s = .next t ∧
      (∀ j < 16, selected s aaa j → lane (t.readVec dst) j = (s.cfg.cvt (halfAt s i.src j)).1) ∧
      (∀ j < 16, ¬ selected s aaa j →
        lane (t.readVec dst) j = if z then 0#32 else lane (s.readVec dst) j) ∧
      t.pc = wrap s.mode (s.ip + BitVec.ofNat 64 (6 + src.len)) ∧
      (invalidArises s i.src aaa 16 → t.mxcsr = s.mxcsr ||| 1#32) ∧
      (¬ invalidArises s i.src aaa 16 → t.mxcsr = s.mxcsr)

/-- VCVTPH2PS zmm1 with mask, ymm2, exceptions suppressed (spec/40_vcvtph2ps.md R85): where
the form is available and `TS` is clear it completes, whatever `MXCSR.IM` is and whatever
the elements are, with the data result of the plain form and `MXCSR` unchanged. -/
def Obligations.Evex512SaeConverts : Prop :=
  ∀ (dst src : BitVec 5) (aaa : BitVec 3) (z : Bool) (s : State),
    s.available .evex512 = true → s.ts = false →
    ∃ t, exec (.evex512Sae dst src aaa z) s = .next t ∧
      (∀ j < 16, selected s aaa j →
        lane (t.readVec dst) j = (s.cfg.cvt (halfAt s (.reg src) j)).1) ∧
      (∀ j < 16, ¬ selected s aaa j →
        lane (t.readVec dst) j = if z then 0#32 else lane (s.readVec dst) j) ∧
      t.pc = wrap s.mode (s.ip + 6#64) ∧ t.mxcsr = s.mxcsr ∧
      (∀ u, exec (.evex512 dst (.reg src) aaa z) s = .next u → u.vec = t.vec)

/-! ### Frames and shared rules -/

/-- What completion leaves alone, for all six instructions: every vector register but the
destination, all opmask and general registers, `EFLAGS`, the control registers, privilege
level, mode, parameters, every byte of memory (none of these forms stores), the admitted
ranges, the end of the text, the fault record, and every `MXCSR` bit but `IE`, which is
never cleared (and, where `#AC` is not a parameter, the model's counter of free values). -/
def Obligations.CompletionFrame : Prop :=
  ∀ (i : Instr) (s t : State), exec i s = .next t →
    (∀ n : BitVec 5, n ≠ (instOf i s).dst → t.readVec n = s.readVec n) ∧
    t.k = s.k ∧ t.gpr = s.gpr ∧ t.eflags = s.eflags ∧ t.cr0 = s.cr0 ∧ t.cr4 = s.cr4 ∧
    t.xcr0 = s.xcr0 ∧ t.cpl = s.cpl ∧ t.mode = s.mode ∧ t.cfg = s.cfg ∧
    (∀ a : Nat, t.mem.read a = s.mem.read a) ∧ t.readable = s.readable ∧
    t.textEnd = s.textEnd ∧ t.faultRecord = s.faultRecord ∧
    (∀ b, b ≠ 0 → t.mxcsr.getLsbD b = s.mxcsr.getLsbD b) ∧ (s.ie = true → t.ie = true) ∧
    (s.cfg.evexReportsAc = false → t.acTicks = s.acTicks)

/-- Completion advances `pc` by the encoded length, modulo `2^64` or `2^32`
(spec/10_state.md R15), and an exception leaves it. -/
def Obligations.PcAdvancesByLength : Prop :=
  ∀ (i : Instr) (s t : State),
    (exec i s = .next t → t.ip.toNat = (s.ip.toNat + i.len) % addrSpace s.mode) ∧
    (∀ e pc, exec i s = .fault (.raised e pc t) → t.pc = s.pc)

/-- All bits of the destination above the vector length are cleared, in every form, with or
without a mask, merging as well as zeroing; not so when the instruction ends in an exception,
which leaves every vector register (spec/40_vcvtph2ps.md R87). -/
def Obligations.UpperDestinationZeroed : Prop :=
  ∀ (i : Instr) (s t : State),
    (exec i s = .next t →
      ∀ b, (instOf i s).form.vl ≤ b → (t.readVec (instOf i s).dst).getLsbD b = false) ∧
    (∀ e pc, exec i s = .fault (.raised e pc t) → t.vec = s.vec)

/-- Write-masking (spec/40_vcvtph2ps.md R86): an element that is selected (no writemask, or
its mask bit 1) is converted and written; otherwise merging keeps the old element and zeroing
sets it to 0; only mask bits `KL-1:0` matter; a VEX form selects every element; the mask
register is not modified. That a masked-off signaling NaN sets no flag and raises nothing is
the spec's own inference ("derived: from the position of `vCvt_h2s` in D00's pseudocode"). -/
def Obligations.WritemaskGovernsElements : Prop :=
  ∀ (i : Instr) (s : State),
    let I := instOf i s
    (reachesConversion s I →
      (∀ j < I.form.kl, selected s I.aaa j → (s.cfg.cvt (halfAt s I.src j)).2 = false) →
      ∃ t, exec i s = .next t ∧ t.mxcsr = s.mxcsr) ∧
    (I.form.isEvex = false → ∀ j, selected s I.aaa j) ∧
    ∀ t, exec i s = .next t →
      (∀ j < I.form.kl, selected s I.aaa j →
        lane (t.readVec I.dst) j = (s.cfg.cvt (halfAt s I.src j)).1) ∧
      (∀ j < I.form.kl, ¬ selected s I.aaa j → I.z = false →
        lane (t.readVec I.dst) j = lane (s.readVec I.dst) j) ∧
      (∀ j < I.form.kl, ¬ selected s I.aaa j → I.z = true →
        lane (t.readVec I.dst) j = 0#32) ∧
      t.k = s.k ∧
      (∀ x : BitVec 64, (∀ j < I.form.kl, x.getLsbD j = (s.readK I.aaa).getLsbD j) →
        ∃ u, exec i { s with k := s.k.set I.aaa.toNat x } = .next u ∧ u.vec = t.vec ∧
          u.mxcsr = t.mxcsr)

/-- Source and destination in the same register, in each form (spec/40_vcvtph2ps.md R88): the
result is the same as if they were different registers holding the same initial value. The
mask, which is no destination, is as it was. -/
def Obligations.SourceIsSampledFirst : Prop :=
  (∀ (n d : BitVec 4) (s t u : State), s.readVec (d.setWidth 5) = s.readVec (n.setWidth 5) →
    (exec (.vex128 n (.reg n)) s = .next t → exec (.vex128 d (.reg n)) s = .next u →
      t.readVec (n.setWidth 5) = u.readVec (d.setWidth 5) ∧ t.mxcsr = u.mxcsr) ∧
    (exec (.vex256 n (.reg n)) s = .next t → exec (.vex256 d (.reg n)) s = .next u →
      t.readVec (n.setWidth 5) = u.readVec (d.setWidth 5) ∧ t.mxcsr = u.mxcsr)) ∧
  (∀ (n d : BitVec 5) (aaa : BitVec 3) (z : Bool) (s t u : State),
    s.readVec d = s.readVec n →
    (exec (.evex128 n (.reg n) aaa z) s = .next t →
      exec (.evex128 d (.reg n) aaa z) s = .next u →
      t.readVec n = u.readVec d ∧ t.mxcsr = u.mxcsr ∧ t.k = u.k) ∧
    (exec (.evex256 n (.reg n) aaa z) s = .next t →
      exec (.evex256 d (.reg n) aaa z) s = .next u →
      t.readVec n = u.readVec d ∧ t.mxcsr = u.mxcsr ∧ t.k = u.k) ∧
    (exec (.evex512 n (.reg n) aaa z) s = .next t →
      exec (.evex512 d (.reg n) aaa z) s = .next u →
      t.readVec n = u.readVec d ∧ t.mxcsr = u.mxcsr ∧ t.k = u.k) ∧
    (exec (.evex512Sae n n aaa z) s = .next t →
      exec (.evex512Sae d n aaa z) s = .next u →
      t.readVec n = u.readVec d ∧ t.mxcsr = u.mxcsr ∧ t.k = u.k))

/-- The lanes are independent (spec/40_vcvtph2ps.md R79): two completions of one instruction
of one `cvt_h2s` whose source element `j`, mask bit `j` and old destination element `j`
agree write the same destination element `j`. -/
def Obligations.LanesAreIndependent : Prop :=
  ∀ (i : Instr) (s s' t t' : State) (j : Nat), exec i s = .next t → exec i s' = .next t' →
    s.cfg.cvtDiff = s'.cfg.cvtDiff → j < (instOf i s).form.kl →
    halfAt s (instOf i s).src j = halfAt s' (instOf i s').src j →
    (selected s (instOf i s).aaa j ↔ selected s' (instOf i s').aaa j) →
    lane (s.readVec (instOf i s).dst) j = lane (s'.readVec (instOf i s').dst) j →
    lane (t.readVec (instOf i s).dst) j = lane (t'.readVec (instOf i s').dst) j

/-- `MXCSR.DAZ`, `RC`, `FTZ`, the flags and the masks other than `IM` have no effect on the
data result (spec/10_state.md R13, spec/40_vcvtph2ps.md R77): with any other `MXCSR` of the
same `IM` the instruction completes with the same registers and `pc`, and sets the same
bits. -/
def Obligations.MxcsrControlsIgnored : Prop :=
  ∀ (i : Instr) (s t : State) (x : BitVec 32), exec i s = .next t → x.getLsbD 7 = s.im →
    ∃ u, exec i { s with mxcsr := x } = .next u ∧ u.vec = t.vec ∧ u.pc = t.pc ∧
      (t.mxcsr = s.mxcsr ∧ u.mxcsr = x ∨ t.mxcsr = s.mxcsr ||| 1#32 ∧ u.mxcsr = x ||| 1#32)

/-- `EFLAGS` is neither read nor written (spec/10_state.md R14, spec/40_vcvtph2ps.md R89):
with any other `EFLAGS` of the same `VM` and `AC`, which bear on exceptions only, the
instruction does the same. -/
def Obligations.EflagsPlayNoPart : Prop :=
  ∀ (i : Instr) (s t : State) (x : BitVec 32), exec i s = .next t →
    x.getLsbD 17 = s.vm → x.getLsbD 18 = s.acFlag →
    t.eflags = s.eflags ∧ exec i { s with eflags := x } = .next { t with eflags := x }

/-- The instruction executes identically at every privilege level (spec/40_vcvtph2ps.md R95,
spec/60_exceptions.md R112), the optional `#AC` apart. -/
def Obligations.PrivilegeLevelPlaysNoPart : Prop :=
  ∀ (i : Instr) (s t : State) (c : BitVec 2), s.cfg.evexReportsAc = false →
    exec i s = .next t → exec i { s with cpl := c } = .next { t with cpl := c }

/-- Bits of a source register above `16*KL` are ignored (spec/30_encoding.md R52,
spec/93_implementation_defined.md U19): whatever they become, the destination does not
change. -/
def Obligations.UpperSourceBitsIgnored : Prop :=
  ∀ (i : Instr) (s t : State) (n : BitVec 5) (x : VecWord), exec i s = .next t →
    (instOf i s).src = .reg n → n ≠ (instOf i s).dst →
    (∀ b < 16 * (instOf i s).form.kl, x.getLsbD b = s.vec[n.toNat].getLsbD b) →
    ∃ u, exec i { s with vec := s.vec.set n.toNat x } = .next u ∧
      u.readVec (instOf i s).dst = t.readVec (instOf i s).dst ∧ u.mxcsr = t.mxcsr

/-- Where the VEX and the EVEX form fit, they give the same result
(spec/93_implementation_defined.md U23): same register operands below 16, no mask. -/
def Obligations.VexAndEvexAgree : Prop :=
  ∀ (dst n : BitVec 4) (s t u : State),
    (exec (.vex128 dst (.reg n)) s = .next t →
      exec (.evex128 (dst.setWidth 5) (.reg (n.setWidth 5)) 0#3 false) s = .next u →
      t.vec = u.vec ∧ t.mxcsr = u.mxcsr) ∧
    (exec (.vex256 dst (.reg n)) s = .next t →
      exec (.evex256 (dst.setWidth 5) (.reg (n.setWidth 5)) 0#3 false) s = .next u →
      t.vec = u.vec ∧ t.mxcsr = u.mxcsr)

/-! ### Exceptions -/

/-- `available(form)` (spec/60_exceptions.md R102, with `OS_ENABLED` of spec/10_state.md R17)
bit by bit; an instruction whose form is not available raises `#UD`; and `MAX_VL` is at least
the vector length of an available form. -/
def Obligations.UnavailableFormRaisesUD : Prop :=
  ∀ (s : State) (f : Form),
    (s.available f = true ↔
      ((f = .vex128 ∨ f = .vex256) → s.cfg.hasF16c = true) ∧
      ((f = .evex128 ∨ f = .evex256) →
        s.cfg.hasAvx512f = true ∧ s.cfg.hasAvx512vl = true) ∧
      (f = .evex512 → s.cfg.hasAvx512f = true) ∧
      s.cr0.getLsbD 0 = true ∧ s.eflags.getLsbD 17 = false ∧ s.cr4.getLsbD 18 = true ∧
      s.xcr0.getLsbD 1 = true ∧ s.xcr0.getLsbD 2 = true ∧
      ((f = .evex128 ∨ f = .evex256 ∨ f = .evex512) →
        s.xcr0.getLsbD 5 = true ∧ s.xcr0.getLsbD 6 = true ∧ s.xcr0.getLsbD 7 = true)) ∧
    (∀ i, (instOf i s).form = f → s.available f = false → exec i s = raise .ud s) ∧
    (s.available f = true → f.vl ≤ s.cfg.maxVl)

/-- `CR0.TS = 1` makes an available form raise `#NM` and change nothing
(spec/60_exceptions.md R103). -/
def Obligations.TaskSwitchedRaisesNM : Prop :=
  ∀ (i : Instr) (s : State), s.available (instOf i s).form = true → s.cr0.getLsbD 3 = true →
    exec i s = .fault (.raised .nm s.ip { s with faultRecord := some ⟨.nm, s.ip⟩ })

/-- A memory operand whose read is not admitted raises `MemFault(a, n)` with `n` 8, 16 or 32 by
the form, and nothing is written, `MXCSR` included (spec/60_exceptions.md R104,
spec/20_memory.md R37): a byte of the operand is not accessible, or, with fault suppression
(R44), a byte of a selected element. A register source raises none. -/
def Obligations.InaccessibleOperandRaisesMemFault : Prop :=
  (∀ (i : Instr) (s : State) (a : Addr), s.available (instOf i s).form = true → s.ts = false →
    (instOf i s).src = .mem a →
    (s.cfg.evexFaultSuppression = false ∧
        s.accessible a.toNat (2 * (instOf i s).form.kl) = false ∨
      s.cfg.evexFaultSuppression = true ∧ ∃ j < (instOf i s).form.kl,
        selected s (instOf i s).aaa j ∧ s.accessible (a.toNat + 2 * j) 2 = false) →
    exec i s = .fault (.raised (.memFault a (2 * (instOf i s).form.kl)) s.ip
      { s with faultRecord := some ⟨.memFault a (2 * (instOf i s).form.kl), s.ip⟩ })) ∧
  (∀ (i : Instr) (s t : State) (n : BitVec 5) (a pc : Addr) (k : Nat),
    (instOf i s).src = .reg n → exec i s ≠ .fault (.raised (.memFault a k) pc t))

/-- Masked forms and the memory read (spec/20_memory.md R44): without fault suppression a fault
is admitted on any byte of the operand, with it only on the bytes of selected elements; and
the value written is the same either way. -/
def Obligations.FaultSuppressionByMask : Prop :=
  ∀ (i : Instr) (s : State) (a : Addr), (instOf i s).src = .mem a →
    s.available (instOf i s).form = true → s.ts = false →
    (s.cfg.evexFaultSuppression = false →
      ((∃ pc t, exec i s =
          .fault (.raised (.memFault a (2 * (instOf i s).form.kl)) pc t)) ↔
        s.accessible a.toNat (2 * (instOf i s).form.kl) = false)) ∧
    (s.cfg.evexFaultSuppression = true →
      ((∃ pc t, exec i s =
          .fault (.raised (.memFault a (2 * (instOf i s).form.kl)) pc t)) ↔
        ∃ j < (instOf i s).form.kl, selected s (instOf i s).aaa j ∧
          s.accessible (a.toNat + 2 * j) 2 = false)) ∧
    (∀ (b : Bool) (t u : State), exec i s = .next t →
      exec i { s with cfg := { s.cfg with evexFaultSuppression := b } } = .next u →
      u.vec = t.vec ∧ u.mxcsr = t.mxcsr)

/-- `#AC` (spec/60_exceptions.md R105): no VEX form and no register form raises it, and no form
does while the parameter is false or alignment checking is off or the address is even. Where
it is due, both outcomes are admitted: the free value `Config.acOccurs` (the model's, log
entry 10) says which. -/
def Obligations.AlignmentCheckOnlyByParameter : Prop :=
  (∀ (i : Instr) (s : State),
    (∀ a, (instOf i s).src = .mem a →
      (instOf i s).form.isEvex = false ∨ a.toNat % 2 = 0 ∨ s.cfg.evexReportsAc = false ∨
        s.cr0.getLsbD 18 = false ∨ s.eflags.getLsbD 18 = false ∨ s.cpl ≠ 3#2) →
    ∀ pc t, exec i s ≠ .fault (.raised .ac pc t)) ∧
  (∀ (i : Instr) (s : State), s.available (instOf i s).form = true → s.ts = false →
    memFaultOf s (instOf i s) = none → acDue s (instOf i s).form (instOf i s).src = true →
    (Config.acOccurs s.acTicks = true → exec i s = raise .ac s) ∧
    (Config.acOccurs s.acTicks = false → invalidQuiet s (instOf i s) →
      ∃ t, exec i s = .next t ∧ t.acTicks = s.acTicks + 1))

/-- The SIMD floating-point exception (spec/60_exceptions.md R106): an Invalid condition without
`{sae}` (a selected element whose conversion reports Invalid) sets `IE` in every case; with `IM = 1` the instruction completes; with `IM = 0` it
raises `#XM` where `CR4.OSXMMEXCPT = 1` and `#UD` otherwise, the destination and `pc`
unchanged. Where there is no Invalid condition nothing is raised by the conversion and
`MXCSR` is unchanged: no other condition arises. (`ticksAfter` is the model's own counter,
log entry 10.) -/
def Obligations.UnmaskedInvalidRaisesXM : Prop :=
  ∀ (i : Instr) (s : State), reachesConversion s (instOf i s) → (instOf i s).sae = false →
    let I := instOf i s
    let bad := invalidArises s I.src I.aaa I.form.kl
    (bad → s.mxcsr.getLsbD 7 = true →
      ∃ t, exec i s = .next t ∧ t.mxcsr = s.mxcsr ||| 1#32) ∧
    (bad → s.mxcsr.getLsbD 7 = false → s.cr4.getLsbD 10 = true →
      exec i s = .fault (.raised .xm s.ip
        { s with mxcsr := s.mxcsr ||| 1#32, faultRecord := some ⟨.xm, s.ip⟩,
                 acTicks := ticksAfter s I })) ∧
    (bad → s.mxcsr.getLsbD 7 = false → s.cr4.getLsbD 10 = false →
      exec i s = .fault (.raised .ud s.ip
        { s with mxcsr := s.mxcsr ||| 1#32, faultRecord := some ⟨.ud, s.ip⟩,
                 acTicks := ticksAfter s I })) ∧
    (¬ bad → ∃ t, exec i s = .next t ∧ t.mxcsr = s.mxcsr)

/-- Every exception is a precise fault (spec/60_exceptions.md R107), whether the decoder raises it
or the instruction: `pc` is the address of the first byte, and the state is that before the
instruction, but for `MXCSR.IE` after an unmasked Invalid (and then the model's own counter of
drawn free values, log entry 10). -/
def Obligations.FaultsArePrecise : Prop :=
  (∀ (i : Instr) (s t : State) (e : Exception) (pc : Addr),
    exec i s = .fault (.raised e pc t) →
    pc = s.ip ∧
    (t = { s with faultRecord := some ⟨e, s.ip⟩ } ∨
      t = { s with mxcsr := s.mxcsr ||| 1#32, faultRecord := some ⟨e, s.ip⟩,
                   acTicks := ticksAfter s (instOf i s) } ∧
        (e = .xm ∨ e = .ud) ∧ s.im = false ∧ (instOf i s).sae = false ∧
        invalidArises s (instOf i s).src (instOf i s).aaa (instOf i s).form.kl)) ∧
  (∀ (s t : State) (e : Exception) (pc : Addr), s.faultRecord = none →
    step s = .fault (.raised e pc t) →
    pc = s.ip ∧ t.vec = s.vec ∧ t.k = s.k ∧ t.gpr = s.gpr ∧ t.mem = s.mem ∧ t.pc = s.pc ∧
      t.eflags = s.eflags ∧ (t.mxcsr = s.mxcsr ∨ t.mxcsr = s.mxcsr ||| 1#32))

/-- The order of the exceptions (spec/60_exceptions.md R108): the first that applies is
reported, and only that one. Where `#AC` is due, whether it occurs is the model's free value
`Config.acOccurs`, and `ticksAfter` is the model's own counter of it: both are the model's
choice, log entry 10. -/
def Obligations.ExceptionPriority : Prop :=
  (∀ s : State, s.faultRecord = none → decode s.mode s.fetch = .ud →
    step s = raise .ud s) ∧
  (∀ (i : Instr) (s : State),
    let I := instOf i s
    (s.available I.form = false → exec i s = raise .ud s) ∧
    (s.available I.form = true → s.ts = true → exec i s = raise .nm s) ∧
    (∀ e, s.available I.form = true → s.ts = false → memFaultOf s I = some e →
      exec i s = raise e s) ∧
    (s.available I.form = true → s.ts = false → memFaultOf s I = none →
      acDue s I.form I.src = true → Config.acOccurs s.acTicks = true →
      exec i s = raise .ac s) ∧
    (reachesConversion s I → ¬ invalidQuiet s I →
      exec i s = raise (if s.osxmmexcpt then .xm else .ud)
        { s.setIE with acTicks := ticksAfter s I }))

/-- No instruction is refused: each completes or raises an exception of
spec/60_exceptions.md R100. -/
def Obligations.NoInstructionIsRefused : Prop :=
  ∀ (i : Instr) (s : State), (∃ t, exec i s = .next t) ∨
    ∃ e t, exec i s = .fault (.raised e s.ip t)

/-! ### Reset and whole runs -/

/-- What processor reset leaves (spec/70_reset_and_hazards.md R125): vector and opmask
registers 0, `MXCSR` 1F80h, `EFLAGS` 2, `pc` FFFFFFF0h, real-address mode with `CR4 = 0` and
`XCR0 = 1`, so no form is enabled, and no fault recorded. -/
def Obligations.ResetValues : Prop :=
  (∀ n, State.reset.readVec n = 0) ∧ (∀ n, State.reset.readK n = 0) ∧
  State.reset.mxcsr = 0x1F80#32 ∧ State.reset.eflags = 2#32 ∧
  State.reset.pc = 0xFFFFFFF0#64 ∧ State.reset.cr0.getLsbD 0 = false ∧
  State.reset.cr4 = 0 ∧ State.reset.xcr0 = 1 ∧ (∀ f, State.reset.osEnabled f = false) ∧
  State.reset.faultRecord = none

/-- In the state after reset every instruction is `#UD` (spec/70_reset_and_hazards.md R125). -/
def Obligations.EveryFormIsUDAfterReset : Prop :=
  ∀ i : Instr, exec i State.reset = raise .ud State.reset

/-- The invariant holds after reset. -/
def Obligations.InvariantHoldsAfterReset : Prop := Inv State.reset

/-- Every step keeps the invariant: words no wider than the machine's, reserved `MXCSR` bits
clear, memory canonical, no fault recorded. -/
def Obligations.StepKeepsInvariant : Prop :=
  ∀ s t : State, Inv s → step s = .next t → Inv t

/-- From a good state, `n` steps leave at least `5 n` bytes less of the program text, whose
end stays where it is, so a run ends: there is no loop (spec/40_vcvtph2ps.md R93,
straight-line code). -/
def Obligations.RunsAreBounded : Prop :=
  ∀ (n : Nat) (s t : State), Inv s → Host.Core.run core n s = .next t →
    Inv t ∧ t.textLeft + 5 * n ≤ s.textLeft ∧ t.textEnd = s.textEnd
end

