-- ==== Sys2Proof/Laws/State.lean ====
section
/-! SUPPORT. What each update of the state does to each field (one lemma per field
per update, true by unfolding), and to what is read through accessors. -/

namespace Sys2Proof.Machine

variable (s : State)

/-! ### `State.setIE` -/

@[simp] theorem setIE_mode : s.setIE.mode = s.mode := rfl
@[simp] theorem setIE_cfg : s.setIE.cfg = s.cfg := rfl
@[simp] theorem setIE_vec : s.setIE.vec = s.vec := rfl
@[simp] theorem setIE_k : s.setIE.k = s.k := rfl
@[simp] theorem setIE_gpr : s.setIE.gpr = s.gpr := rfl
@[simp] theorem setIE_pc : s.setIE.pc = s.pc := rfl
@[simp] theorem setIE_mxcsr : s.setIE.mxcsr = s.mxcsr ||| 1#32 := rfl
@[simp] theorem setIE_eflags : s.setIE.eflags = s.eflags := rfl
@[simp] theorem setIE_cr0 : s.setIE.cr0 = s.cr0 := rfl
@[simp] theorem setIE_cr4 : s.setIE.cr4 = s.cr4 := rfl
@[simp] theorem setIE_xcr0 : s.setIE.xcr0 = s.xcr0 := rfl
@[simp] theorem setIE_cpl : s.setIE.cpl = s.cpl := rfl
@[simp] theorem setIE_mem : s.setIE.mem = s.mem := rfl
@[simp] theorem setIE_readable : s.setIE.readable = s.readable := rfl
@[simp] theorem setIE_textEnd : s.setIE.textEnd = s.textEnd := rfl
@[simp] theorem setIE_faultRecord : s.setIE.faultRecord = s.faultRecord := rfl
@[simp] theorem setIE_acTicks : s.setIE.acTicks = s.acTicks := rfl

/-! ### `State.advance` -/

@[simp] theorem advance_mode (n : Nat) : (s.advance n).mode = s.mode := rfl
@[simp] theorem advance_cfg (n : Nat) : (s.advance n).cfg = s.cfg := rfl
@[simp] theorem advance_vec (n : Nat) : (s.advance n).vec = s.vec := rfl
@[simp] theorem advance_k (n : Nat) : (s.advance n).k = s.k := rfl
@[simp] theorem advance_gpr (n : Nat) : (s.advance n).gpr = s.gpr := rfl
@[simp] theorem advance_pc (n : Nat) : (s.advance n).pc = wrap s.mode (s.ip + BitVec.ofNat 64 n) := rfl
@[simp] theorem advance_mxcsr (n : Nat) : (s.advance n).mxcsr = s.mxcsr := rfl
@[simp] theorem advance_eflags (n : Nat) : (s.advance n).eflags = s.eflags := rfl
@[simp] theorem advance_cr0 (n : Nat) : (s.advance n).cr0 = s.cr0 := rfl
@[simp] theorem advance_cr4 (n : Nat) : (s.advance n).cr4 = s.cr4 := rfl
@[simp] theorem advance_xcr0 (n : Nat) : (s.advance n).xcr0 = s.xcr0 := rfl
@[simp] theorem advance_cpl (n : Nat) : (s.advance n).cpl = s.cpl := rfl
@[simp] theorem advance_mem (n : Nat) : (s.advance n).mem = s.mem := rfl
@[simp] theorem advance_readable (n : Nat) : (s.advance n).readable = s.readable := rfl
@[simp] theorem advance_textEnd (n : Nat) : (s.advance n).textEnd = s.textEnd := rfl
@[simp] theorem advance_faultRecord (n : Nat) : (s.advance n).faultRecord = s.faultRecord := rfl
@[simp] theorem advance_acTicks (n : Nat) : (s.advance n).acTicks = s.acTicks := rfl

/-! ### `State.writeVec` -/

@[simp] theorem writeVec_mode (d : BitVec 5) (x : VecWord) : (s.writeVec d x).mode = s.mode := rfl
@[simp] theorem writeVec_cfg (d : BitVec 5) (x : VecWord) : (s.writeVec d x).cfg = s.cfg := rfl
@[simp] theorem writeVec_vec (d : BitVec 5) (x : VecWord) : (s.writeVec d x).vec = s.vec.set d.toNat ((x.setWidth s.cfg.maxVl).setWidth 512) := rfl
@[simp] theorem writeVec_k (d : BitVec 5) (x : VecWord) : (s.writeVec d x).k = s.k := rfl
@[simp] theorem writeVec_gpr (d : BitVec 5) (x : VecWord) : (s.writeVec d x).gpr = s.gpr := rfl
@[simp] theorem writeVec_pc (d : BitVec 5) (x : VecWord) : (s.writeVec d x).pc = s.pc := rfl
@[simp] theorem writeVec_mxcsr (d : BitVec 5) (x : VecWord) : (s.writeVec d x).mxcsr = s.mxcsr := rfl
@[simp] theorem writeVec_eflags (d : BitVec 5) (x : VecWord) : (s.writeVec d x).eflags = s.eflags := rfl
@[simp] theorem writeVec_cr0 (d : BitVec 5) (x : VecWord) : (s.writeVec d x).cr0 = s.cr0 := rfl
@[simp] theorem writeVec_cr4 (d : BitVec 5) (x : VecWord) : (s.writeVec d x).cr4 = s.cr4 := rfl
@[simp] theorem writeVec_xcr0 (d : BitVec 5) (x : VecWord) : (s.writeVec d x).xcr0 = s.xcr0 := rfl
@[simp] theorem writeVec_cpl (d : BitVec 5) (x : VecWord) : (s.writeVec d x).cpl = s.cpl := rfl
@[simp] theorem writeVec_mem (d : BitVec 5) (x : VecWord) : (s.writeVec d x).mem = s.mem := rfl
@[simp] theorem writeVec_readable (d : BitVec 5) (x : VecWord) : (s.writeVec d x).readable = s.readable := rfl
@[simp] theorem writeVec_textEnd (d : BitVec 5) (x : VecWord) : (s.writeVec d x).textEnd = s.textEnd := rfl
@[simp] theorem writeVec_faultRecord (d : BitVec 5) (x : VecWord) : (s.writeVec d x).faultRecord = s.faultRecord := rfl
@[simp] theorem writeVec_acTicks (d : BitVec 5) (x : VecWord) : (s.writeVec d x).acTicks = s.acTicks := rfl

/-! ### `State.loadText` -/

@[simp] theorem loadText_mode (bs : List Byte) : (s.loadText bs).mode = s.mode := rfl
@[simp] theorem loadText_cfg (bs : List Byte) : (s.loadText bs).cfg = s.cfg := rfl
@[simp] theorem loadText_vec (bs : List Byte) : (s.loadText bs).vec = s.vec := rfl
@[simp] theorem loadText_k (bs : List Byte) : (s.loadText bs).k = s.k := rfl
@[simp] theorem loadText_gpr (bs : List Byte) : (s.loadText bs).gpr = s.gpr := rfl
@[simp] theorem loadText_pc (bs : List Byte) : (s.loadText bs).pc = s.pc := rfl
@[simp] theorem loadText_mxcsr (bs : List Byte) : (s.loadText bs).mxcsr = s.mxcsr := rfl
@[simp] theorem loadText_eflags (bs : List Byte) : (s.loadText bs).eflags = s.eflags := rfl
@[simp] theorem loadText_cr0 (bs : List Byte) : (s.loadText bs).cr0 = s.cr0 := rfl
@[simp] theorem loadText_cr4 (bs : List Byte) : (s.loadText bs).cr4 = s.cr4 := rfl
@[simp] theorem loadText_xcr0 (bs : List Byte) : (s.loadText bs).xcr0 = s.xcr0 := rfl
@[simp] theorem loadText_cpl (bs : List Byte) : (s.loadText bs).cpl = s.cpl := rfl
@[simp] theorem loadText_mem (bs : List Byte) : (s.loadText bs).mem = s.mem.writeBytes s.mode s.ip bs := rfl
@[simp] theorem loadText_readable (bs : List Byte) : (s.loadText bs).readable = s.readable := rfl
@[simp] theorem loadText_textEnd (bs : List Byte) : (s.loadText bs).textEnd = wrap s.mode (s.ip + BitVec.ofNat 64 bs.length) := rfl
@[simp] theorem loadText_faultRecord (bs : List Byte) : (s.loadText bs).faultRecord = s.faultRecord := rfl
@[simp] theorem loadText_acTicks (bs : List Byte) : (s.loadText bs).acTicks = s.acTicks := rfl

/-! ### `State.enable64` -/

@[simp] theorem enable64_mode : s.enable64.mode = .m64 := rfl
@[simp] theorem enable64_cfg : s.enable64.cfg = s.cfg := rfl
@[simp] theorem enable64_vec : s.enable64.vec = s.vec := rfl
@[simp] theorem enable64_k : s.enable64.k = s.k := rfl
@[simp] theorem enable64_gpr : s.enable64.gpr = s.gpr := rfl
@[simp] theorem enable64_pc : s.enable64.pc = s.pc := rfl
@[simp] theorem enable64_mxcsr : s.enable64.mxcsr = s.mxcsr := rfl
@[simp] theorem enable64_eflags : s.enable64.eflags = s.eflags &&& ~~~0x20000#32 := rfl
@[simp] theorem enable64_cr0 : s.enable64.cr0 = (s.cr0 ||| 1#64) &&& ~~~8#64 := rfl
@[simp] theorem enable64_cr4 : s.enable64.cr4 = s.cr4 ||| 0x40000#64 := rfl
@[simp] theorem enable64_xcr0 : s.enable64.xcr0 = s.xcr0 ||| 0xE6#64 := rfl
@[simp] theorem enable64_cpl : s.enable64.cpl = s.cpl := rfl
@[simp] theorem enable64_mem : s.enable64.mem = s.mem := rfl
@[simp] theorem enable64_readable : s.enable64.readable = s.readable := rfl
@[simp] theorem enable64_textEnd : s.enable64.textEnd = s.textEnd := rfl
@[simp] theorem enable64_faultRecord : s.enable64.faultRecord = none := rfl
@[simp] theorem enable64_acTicks : s.enable64.acTicks = s.acTicks := rfl

/-! ### Drawing the free value -/

@[simp] theorem tick_mode (n : Nat) : ({ s with acTicks := n } : State).mode = s.mode := rfl
@[simp] theorem tick_cfg (n : Nat) : ({ s with acTicks := n } : State).cfg = s.cfg := rfl
@[simp] theorem tick_vec (n : Nat) : ({ s with acTicks := n } : State).vec = s.vec := rfl
@[simp] theorem tick_k (n : Nat) : ({ s with acTicks := n } : State).k = s.k := rfl
@[simp] theorem tick_gpr (n : Nat) : ({ s with acTicks := n } : State).gpr = s.gpr := rfl
@[simp] theorem tick_pc (n : Nat) : ({ s with acTicks := n } : State).pc = s.pc := rfl
@[simp] theorem tick_mxcsr (n : Nat) : ({ s with acTicks := n } : State).mxcsr = s.mxcsr := rfl
@[simp] theorem tick_eflags (n : Nat) : ({ s with acTicks := n } : State).eflags = s.eflags := rfl
@[simp] theorem tick_cr0 (n : Nat) : ({ s with acTicks := n } : State).cr0 = s.cr0 := rfl
@[simp] theorem tick_cr4 (n : Nat) : ({ s with acTicks := n } : State).cr4 = s.cr4 := rfl
@[simp] theorem tick_xcr0 (n : Nat) : ({ s with acTicks := n } : State).xcr0 = s.xcr0 := rfl
@[simp] theorem tick_cpl (n : Nat) : ({ s with acTicks := n } : State).cpl = s.cpl := rfl
@[simp] theorem tick_mem (n : Nat) : ({ s with acTicks := n } : State).mem = s.mem := rfl
@[simp] theorem tick_readable (n : Nat) : ({ s with acTicks := n } : State).readable = s.readable := rfl
@[simp] theorem tick_textEnd (n : Nat) : ({ s with acTicks := n } : State).textEnd = s.textEnd := rfl
@[simp] theorem tick_faultRecord (n : Nat) : ({ s with acTicks := n } : State).faultRecord = s.faultRecord := rfl
@[simp] theorem tick_acTicks (n : Nat) : ({ s with acTicks := n } : State).acTicks = n := rfl

/-! ### Accessors after an update -/

@[simp] theorem setIE_ip : s.setIE.ip = s.ip := rfl
@[simp] theorem setIE_ts : s.setIE.ts = s.ts := rfl
@[simp] theorem setIE_osxmmexcpt : s.setIE.osxmmexcpt = s.osxmmexcpt := rfl
@[simp] theorem setIE_readVec (m : BitVec 5) : s.setIE.readVec m = s.readVec m := rfl
@[simp] theorem setIE_readK (m : BitVec 3) : s.setIE.readK m = s.readK m := rfl
@[simp] theorem setIE_readGpr (m : BitVec 4) : s.setIE.readGpr m = s.readGpr m := rfl
@[simp] theorem setIE_available (f : Form) : s.setIE.available f = s.available f := rfl
@[simp] theorem tick_ip (n : Nat) : ({ s with acTicks := n } : State).ip = s.ip := rfl
@[simp] theorem tick_im (n : Nat) : ({ s with acTicks := n } : State).im = s.im := rfl
@[simp] theorem tick_ts (n : Nat) : ({ s with acTicks := n } : State).ts = s.ts := rfl
@[simp] theorem tick_osxmmexcpt (n : Nat) : ({ s with acTicks := n } : State).osxmmexcpt = s.osxmmexcpt := rfl
@[simp] theorem tick_readVec (n : Nat) (m : BitVec 5) : ({ s with acTicks := n } : State).readVec m = s.readVec m := rfl
@[simp] theorem tick_readK (n : Nat) (m : BitVec 3) : ({ s with acTicks := n } : State).readK m = s.readK m := rfl
@[simp] theorem tick_readGpr (n : Nat) (m : BitVec 4) : ({ s with acTicks := n } : State).readGpr m = s.readGpr m := rfl
@[simp] theorem tick_available (n : Nat) (f : Form) : ({ s with acTicks := n } : State).available f = s.available f := rfl
@[simp] theorem writeVec_ip (d : BitVec 5) (x : VecWord) : (s.writeVec d x).ip = s.ip := rfl
@[simp] theorem writeVec_im (d : BitVec 5) (x : VecWord) : (s.writeVec d x).im = s.im := rfl
@[simp] theorem writeVec_ts (d : BitVec 5) (x : VecWord) : (s.writeVec d x).ts = s.ts := rfl
@[simp] theorem writeVec_osxmmexcpt (d : BitVec 5) (x : VecWord) : (s.writeVec d x).osxmmexcpt = s.osxmmexcpt := rfl
@[simp] theorem writeVec_readK (d : BitVec 5) (x : VecWord) (m : BitVec 3) : (s.writeVec d x).readK m = s.readK m := rfl
@[simp] theorem writeVec_readGpr (d : BitVec 5) (x : VecWord) (m : BitVec 4) : (s.writeVec d x).readGpr m = s.readGpr m := rfl
@[simp] theorem writeVec_available (d : BitVec 5) (x : VecWord) (f : Form) : (s.writeVec d x).available f = s.available f := rfl
@[simp] theorem advance_im (n : Nat) : (s.advance n).im = s.im := rfl
@[simp] theorem advance_ts (n : Nat) : (s.advance n).ts = s.ts := rfl
@[simp] theorem advance_osxmmexcpt (n : Nat) : (s.advance n).osxmmexcpt = s.osxmmexcpt := rfl
@[simp] theorem advance_readVec (n : Nat) (m : BitVec 5) : (s.advance n).readVec m = s.readVec m := rfl
@[simp] theorem advance_readK (n : Nat) (m : BitVec 3) : (s.advance n).readK m = s.readK m := rfl
@[simp] theorem advance_readGpr (n : Nat) (m : BitVec 4) : (s.advance n).readGpr m = s.readGpr m := rfl
@[simp] theorem advance_available (n : Nat) (f : Form) : (s.advance n).available f = s.available f := rfl

@[simp] theorem loadText_ip (bs : List Byte) : (s.loadText bs).ip = s.ip := rfl
@[simp] theorem advance_textStop (n : Nat) : (s.advance n).textStop = s.textStop := rfl
@[simp] theorem writeVec_textStop (d : BitVec 5) (x : VecWord) : (s.writeVec d x).textStop = s.textStop := rfl
@[simp] theorem setIE_textStop : s.setIE.textStop = s.textStop := rfl
@[simp] theorem tick_textStop (n : Nat) : ({ s with acTicks := n } : State).textStop = s.textStop := rfl

@[simp] theorem setIE_im : s.setIE.im = s.im := by simp [State.im]

@[simp] theorem setIE_ie : s.setIE.ie = true := by simp [State.ie]

theorem wrap_wrap (m : Mode) (x : Addr) : wrap m (wrap m x) = wrap m x := by
  cases m <;> simp [wrap]

/-- A word at the mode's width, as a number. -/
theorem wrap_toNat (m : Mode) (x : Addr) : (wrap m x).toNat = x.toNat % addrSpace m := by
  cases m with
  | m64 => simp [wrap, addrSpace]; omega
  | m32 => simp [wrap, addrSpace]; omega

/-- A word at the mode's width is inside the address space. -/
theorem wrap_lt (m : Mode) (x : Addr) : (wrap m x).toNat < addrSpace m := by
  rw [wrap_toNat]
  cases m <;> exact Nat.mod_lt _ (by decide)

theorem addrSpace_dvd (m : Mode) : addrSpace m ∣ 2 ^ 64 := by cases m <;> decide

/-- The bytes of program text left, as numbers: the distance from `pc` to the end modulo
the address space. -/
theorem textLeft_eq : s.textLeft = (s.textStop.toNat + (addrSpace s.mode - s.ip.toNat)) %
    addrSpace s.mode := by
  have h : s.ip.toNat < addrSpace s.mode := wrap_lt _ _
  unfold State.textLeft
  rw [wrap_toNat, BitVec.toNat_sub, Nat.mod_mod_of_dvd _ (addrSpace_dvd s.mode)]
  cases hm : s.mode <;> rw [hm] at h <;> simp only [addrSpace] at * <;> omega

/-- No text is left exactly where `pc` is its end. -/
theorem textLeft_eq_zero : s.textLeft = 0 ↔ s.ip = s.textStop := by
  have h : s.ip.toNat < addrSpace s.mode := wrap_lt _ _
  have h' : s.textStop.toNat < addrSpace s.mode := wrap_lt _ _
  rw [textLeft_eq, ← BitVec.toNat_inj]
  cases hm : s.mode <;> rw [hm] at h h' <;> simp only [addrSpace] at * <;> omega

/-- A launched text is left whole. -/
theorem loadText_textLeft {bs : List Byte} (h : bs.length < addrSpace s.mode) :
    (s.loadText bs).textLeft = bs.length := by
  have hi : s.ip.toNat < addrSpace s.mode := wrap_lt _ _
  rw [textLeft_eq, State.textStop, loadText_textEnd, loadText_mode, wrap_wrap, loadText_ip,
    wrap_toNat, BitVec.toNat_add, BitVec.toNat_ofNat,
    Nat.mod_mod_of_dvd _ (addrSpace_dvd s.mode)]
  cases hm : s.mode <;> rw [hm] at hi h <;> simp only [addrSpace] at * <;> omega

/-- Advancing by no more than the text left leaves that much less of it. -/
theorem advance_textLeft {n : Nat} (h : n ≤ s.textLeft) :
    (s.advance n).textLeft = s.textLeft - n := by
  have hi : s.ip.toNat < addrSpace s.mode := wrap_lt _ _
  have hs : s.textStop.toNat < addrSpace s.mode := wrap_lt _ _
  rw [textLeft_eq] at h ⊢
  rw [textLeft_eq s, advance_textStop, advance_mode]
  have ha : (s.advance n).ip.toNat = (s.ip.toNat + n) % addrSpace s.mode := by
    rw [State.ip, advance_pc, advance_mode, wrap_wrap, wrap_toNat, BitVec.toNat_add,
      BitVec.toNat_ofNat, Nat.mod_mod_of_dvd _ (addrSpace_dvd s.mode), Nat.add_mod,
      Nat.mod_mod_of_dvd _ (addrSpace_dvd s.mode), ← Nat.add_mod]
  rw [ha]
  cases hm : s.mode <;> rw [hm] at hi hs h <;> simp only [addrSpace] at * <;> omega

@[simp] theorem advance_ip (n : Nat) :
    (s.advance n).ip = wrap s.mode (s.ip + BitVec.ofNat 64 n) := by
  simp [State.ip, wrap_wrap]

/-- The destination reads back as its low `MAX_VL` bits. -/
theorem writeVec_readVec_same (d : BitVec 5) (x : VecWord) :
    (s.writeVec d x).readVec d = (x.setWidth s.cfg.maxVl).setWidth 512 := by
  simp only [State.readVec, writeVec_vec, writeVec_cfg, Vector.getElem_set_self]
  ext i hi
  simp only [BitVec.getElem_setWidth, BitVec.getLsbD_setWidth]
  by_cases h : i < s.cfg.maxVl <;> simp [h, hi]

/-- Every other vector register keeps its bits. -/
theorem writeVec_readVec_other {d n : BitVec 5} (h : n ≠ d) (x : VecWord) :
    (s.writeVec d x).readVec n = s.readVec n := by
  have hn : d.toNat ≠ n.toNat := fun e => h (BitVec.eq_of_toNat_eq e.symm)
  simp only [State.readVec, writeVec_vec, writeVec_cfg]
  rw [Vector.getElem_set_ne _ _ hn]

/-- A form that is available needs no more than the register's width
(spec/60_exceptions.md R102: it follows from the flags). -/
theorem vl_le_maxVl {p : Params} {f : Form} (h : p.hasForm f = true) : f.vl ≤ p.maxVl := by
  cases f <;> simp_all [Params.hasForm, Params.maxVl, Form.vl, Form.kl] <;> (repeat' split) <;> omega

theorem available_hasForm {s : State} {f : Form} (h : s.available f = true) :
    s.cfg.hasForm f = true := by
  simp [State.available] at h; exact h.1

theorem maxVl_le (p : Params) : p.maxVl ≤ 512 := by
  unfold Params.maxVl; (repeat' split) <;> omega

end Sys2Proof.Machine
end

