-- ==== Sys2Proof/Laws/Codec.lean ====
section
/-! SUPPORT. The bytes of an encoding, field by field: what the encoder puts into a
byte is what the decoder takes out of it. -/

namespace Sys2Proof

@[simp] theorem modRm_md (md : BitVec 2) (reg rm : BitVec 3) : bits (modRm md reg rm) 6 2 = md := by
  revert md reg rm; decide

@[simp] theorem modRm_reg (md : BitVec 2) (reg rm : BitVec 3) :
    bits (modRm md reg rm) 3 3 = reg := by
  revert md reg rm; decide

@[simp] theorem modRm_rm (md : BitVec 2) (reg rm : BitVec 3) : bits (modRm md reg rm) 0 3 = rm := by
  revert md reg rm; decide

@[simp] theorem sibByte_scale (sc : BitVec 2) (x b : BitVec 3) : bits (sibByte sc x b) 6 2 = sc :=
  modRm_md sc x b

@[simp] theorem sibByte_idx (sc : BitVec 2) (x b : BitVec 3) : bits (sibByte sc x b) 3 3 = x :=
  modRm_reg sc x b

@[simp] theorem sibByte_base (sc : BitVec 2) (x b : BitVec 3) : bits (sibByte sc x b) 0 3 = b :=
  modRm_rm sc x b

/-- A four-bit register number from its extension bit and its field. -/
theorem reg4_parts (n : BitVec 4) : BitVec.ofBool (n.getLsbD 3) ++ n.setWidth 3 = n := by
  revert n; decide

/-- `reg4_parts` with the bit as simp writes it. -/
@[simp] theorem reg4_parts_getElem (n : BitVec 4) : BitVec.ofBool n[3] ++ n.setWidth 3 = n :=
  reg4_parts n

/-- A five-bit register number from its two extension bits and its field. -/
theorem reg5_parts (n : BitVec 5) :
    BitVec.ofBool (n.getLsbD 4) ++ BitVec.ofBool (n.getLsbD 3) ++ n.setWidth 3 = n := by
  revert n; decide

/-- `reg5_parts` with the bits as simp writes them. -/
@[simp] theorem reg5_parts_getElem (n : BitVec 5) :
    BitVec.ofBool n[4] ++ BitVec.ofBool n[3] ++ n.setWidth 3 = n :=
  reg5_parts n

/-- The byte `VEX1`. -/
def vexByte1 (r x b : Bool) : Byte := inv r ++ inv x ++ inv b ++ 2#5

/-- The byte `VEX2` of an encoding without reserved fields. -/
def vexByte2 (l : Bool) : Byte := 0#1 ++ 15#4 ++ BitVec.ofBool l ++ 1#2

/-- The byte `P0`. -/
def evexByte0 (r x b r' : Bool) : Byte := inv r ++ inv x ++ inv b ++ inv r' ++ 0#2 ++ 2#2

/-- The byte `P1`. -/
def evexByte1 : Byte := 0#1 ++ 15#4 ++ 1#1 ++ 1#2

/-- The byte `P2`. -/
def evexByte2 (z : Bool) (ll : BitVec 2) (sae : Bool) (aaa : BitVec 3) : Byte :=
  BitVec.ofBool z ++ ll ++ BitVec.ofBool sae ++ 1#1 ++ aaa

theorem vexByte1_fields (r x b : Bool) :
    bits (vexByte1 r x b) 0 5 = 2#5 ∧ (vexByte1 r x b).getLsbD 7 = !r ∧
    (vexByte1 r x b).getLsbD 6 = !x ∧ (vexByte1 r x b).getLsbD 5 = !b ∧
    (bits (vexByte1 r x b) 6 2 = 3#2 ↔ r = false ∧ x = false) := by
  revert r x b; decide

theorem vexByte2_fields (l : Bool) :
    bits (vexByte2 l) 0 2 = 1#2 ∧ (vexByte2 l).getLsbD 7 = false ∧
    bits (vexByte2 l) 3 4 = 15#4 ∧ (vexByte2 l).getLsbD 2 = l := by
  revert l; decide

theorem evexByte0_fields (r x b r' : Bool) :
    bits (evexByte0 r x b r') 2 2 = 0#2 ∧ bits (evexByte0 r x b r') 0 2 = 2#2 ∧
    (evexByte0 r x b r').getLsbD 7 = !r ∧ (evexByte0 r x b r').getLsbD 6 = !x ∧
    (evexByte0 r x b r').getLsbD 5 = !b ∧ (evexByte0 r x b r').getLsbD 4 = !r' ∧
    (bits (evexByte0 r x b r') 6 2 = 3#2 ↔ r = false ∧ x = false) := by
  revert r x b r'; decide

theorem evexByte1_fields :
    bits evexByte1 0 2 = 1#2 ∧ evexByte1.getLsbD 2 = true ∧ evexByte1.getLsbD 7 = false ∧
    bits evexByte1 3 4 = 15#4 := by decide

theorem evexByte2_fields (z : Bool) (ll : BitVec 2) (sae : Bool) (aaa : BitVec 3) :
    (evexByte2 z ll sae aaa).getLsbD 7 = z ∧ bits (evexByte2 z ll sae aaa) 5 2 = ll ∧
    (evexByte2 z ll sae aaa).getLsbD 4 = sae ∧ (evexByte2 z ll sae aaa).getLsbD 3 = true ∧
    bits (evexByte2 z ll sae aaa) 0 3 = aaa := by
  revert z ll sae aaa; decide

/-- The encoder's VEX bytes, by the named bytes. -/
theorem encodeVex_eq (l : Bool) (dst : BitVec 4) (src : VexSrc) :
    encodeVex l dst src = 0xC4#8 ::
      vexByte1 (dst.getLsbD 3) (src.parts (dst.setWidth 3)).1 (src.parts (dst.setWidth 3)).2.1 ::
      vexByte2 l :: 0x13#8 :: (src.parts (dst.setWidth 3)).2.2 := rfl

/-- The encoder's EVEX bytes, by the named bytes. -/
theorem encodeEvex_eq (ll : BitVec 2) (sae : Bool) (dst : BitVec 5) (src : EvexSrc)
    (aaa : BitVec 3) (z : Bool) :
    encodeEvex ll sae dst src aaa z = 0x62#8 ::
      evexByte0 (dst.getLsbD 3) (src.parts (dst.setWidth 3)).1 (src.parts (dst.setWidth 3)).2.1
        (dst.getLsbD 4) ::
      evexByte1 :: evexByte2 z ll sae aaa :: 0x13#8 :: (src.parts (dst.setWidth 3)).2.2 := rfl

@[simp] theorem withByte_cons (b : Byte) (bs : List Byte) (f : Byte → List Byte → Decoded) :
    withByte (b :: bs) f = f b bs := rfl

@[simp] theorem withByte_nil (f : Byte → List Byte → Decoded) :
    withByte [] f = .refuse .truncated := rfl

/-- An answer other than `truncated` had its byte. -/
theorem withByte_cases {bs : List Byte} {f : Byte → List Byte → Decoded} {d : Decoded}
    (h : withByte bs f = d) (hd : d ≠ .refuse .truncated) : ∃ b rest, bs = b :: rest ∧ f b rest = d := by
  cases bs with
  | nil => exact absurd h.symm hd
  | cons b rest => exact ⟨b, rest, rfl, h⟩

/-- The VEX branch on a string that holds prefix, opcode and ModRM. -/
theorem decodeVex_cons (m : Mode) (v1 v2 op modrm : Byte) (rest : List Byte) :
    decodeVex m (v1 :: v2 :: op :: modrm :: rest) =
      if m = .m32 ∧ bits v1 6 2 ≠ 3#2 then .refuse .notVcvtph2ps
      else if bits v1 0 5 ≠ 2#5 ∨ bits v2 0 2 ≠ 1#2 ∨ op ≠ 0x13#8 then .refuse .notVcvtph2ps
      else if m = .m32 ∧ v1.getLsbD 5 = false then .refuse .extBitIn32BitMode
      else if v2.getLsbD 7 then .ud
      else if bits v2 3 4 ≠ 15#4 then .ud
      else
        match decodeVexSrc modrm (!v1.getLsbD 6) (!v1.getLsbD 5) rest with
        | none => .refuse .truncated
        | some src =>
          if v2.getLsbD 2 then .instr (.vex256 (vexDst v1 modrm) src)
          else .instr (.vex128 (vexDst v1 modrm) src) := by
  simp only [decodeVex, withByte_cons]
  by_cases h1 : bits v1 0 5 = 2#5 <;> by_cases h2 : bits v2 0 2 = 1#2 <;>
    by_cases h3 : op = 0x13#8 <;> simp [h1, h2, h3]
  all_goals rfl

/-- The EVEX branch on a string that holds prefix, opcode and ModRM. -/
theorem decodeEvex_cons (m : Mode) (p0 p1 p2 op modrm : Byte) (rest : List Byte) :
    decodeEvex m (p0 :: p1 :: p2 :: op :: modrm :: rest) =
      if m = .m32 ∧ bits p0 6 2 ≠ 3#2 then .refuse .notVcvtph2ps
      else if bits p0 2 2 ≠ 0#2 ∨ p1.getLsbD 2 = false then .ud
      else if bits p0 0 2 ≠ 2#2 ∨ bits p1 0 2 ≠ 1#2 ∨ op ≠ 0x13#8 then .refuse .notVcvtph2ps
      else if m = .m32 ∧ (p0.getLsbD 5 = false ∨ p0.getLsbD 4 = false ∨ p2.getLsbD 3 = false) then
        .refuse .extBitIn32BitMode
      else if p1.getLsbD 7 then .ud
      else if bits p1 3 4 ≠ 15#4 then .ud
      else if p2.getLsbD 3 = false then .ud
      else if p2.getLsbD 7 = true ∧ bits p2 0 3 = 0#3 then .ud
      else if p2.getLsbD 4 = true ∧ bits modrm 6 2 ≠ 3#2 then .ud
      else if p2.getLsbD 4 = true ∧ bits p2 5 2 ≠ 2#2 then .refuse .saeWithOtherLL
      else if bits p2 5 2 = 3#2 then .ud
      else if p2.getLsbD 4 then
        .instr (.evex512Sae (evexDst p0 modrm)
          (BitVec.ofBool (!p0.getLsbD 6) ++ BitVec.ofBool (!p0.getLsbD 5) ++ bits modrm 0 3)
          (bits p2 0 3) (p2.getLsbD 7))
      else
        match decodeEvexSrc modrm (!p0.getLsbD 6) (!p0.getLsbD 5) rest with
        | none => .refuse .truncated
        | some src =>
          evexOfLL (bits p2 5 2) (evexDst p0 modrm) src (bits p2 0 3) (p2.getLsbD 7) := by
  simp only [decodeEvex, withByte_cons]
  by_cases a1 : m = .m32 ∧ bits p0 6 2 ≠ 3#2
  · rw [if_pos a1, if_pos a1]
  rw [if_neg a1, if_neg a1]
  by_cases a2 : bits p0 2 2 = 0#2 <;> by_cases a3 : p1.getLsbD 2 = false <;>
    by_cases a4 : bits p0 0 2 = 2#2 <;> by_cases a5 : bits p1 0 2 = 1#2 <;>
    by_cases a6 : op = 0x13#8 <;> simp only [a2, a3, a4, a5, a6, ne_eq, not_true_eq_false,
      not_false_eq_true, if_true, if_false, or_true, true_or, or_false, false_or, or_self]
  cases b : p2.getLsbD 4 with
  | true => by_cases c : bits p2 5 2 = 2#2 <;> simp [c]
  | false =>
    simp only [Bool.false_eq_true, false_and, if_false]
    all_goals rfl

/-- The decoder on a string that starts with the VEX escape. -/
theorem decode_vex (m : Mode) (bs : List Byte) : decode m (0xC4#8 :: bs) = decodeVex m bs := by
  cases m <;> rfl

/-- The decoder on a string that starts with the EVEX escape. -/
theorem decode_evex (m : Mode) (bs : List Byte) : decode m (0x62#8 :: bs) = decodeEvex m bs := by
  cases m <;> rfl

/-- A check that answers no instruction was passed. -/
theorem else_instr {c : Prop} [Decidable c] {d e : Decoded} {i : Instr}
    (h : (if c then d else e) = .instr i) (hd : d ≠ .instr i) : e = .instr i := by
  by_cases hc : c
  · rw [if_pos hc] at h
    exact absurd h hd
  · rwa [if_neg hc] at h

/-- A VEX instruction is decoded only from a string that holds prefix, opcode and ModRM. -/
theorem decodeVex_instr {m : Mode} {bs : List Byte} {i : Instr} (h : decodeVex m bs = .instr i) :
    ∃ v1 v2 op modrm rest, bs = v1 :: v2 :: op :: modrm :: rest := by
  rcases bs with _ | ⟨v1, _ | ⟨v2, _ | ⟨op, _ | ⟨modrm, rest⟩⟩⟩⟩
  case cons.cons.cons.cons => exact ⟨v1, v2, op, modrm, rest, rfl⟩
  all_goals
    simp only [decodeVex, withByte_cons, withByte_nil] at h
    (repeat replace h := else_instr h nofun)
    cases h

/-- An EVEX instruction is decoded only from a string that holds prefix, opcode and ModRM. -/
theorem decodeEvex_instr {m : Mode} {bs : List Byte} {i : Instr}
    (h : decodeEvex m bs = .instr i) :
    ∃ p0 p1 p2 op modrm rest, bs = p0 :: p1 :: p2 :: op :: modrm :: rest := by
  rcases bs with _ | ⟨p0, _ | ⟨p1, _ | ⟨p2, _ | ⟨op, _ | ⟨modrm, rest⟩⟩⟩⟩⟩
  case cons.cons.cons.cons.cons => exact ⟨p0, p1, p2, op, modrm, rest, rfl⟩
  all_goals
    simp only [decodeEvex, withByte_cons, withByte_nil] at h
    (repeat replace h := else_instr h nofun)
    cases h

/-- Displacement bytes read back. -/
theorem takeDisp32_bytes (d : BitVec 32) (rest : List Byte) :
    takeDisp32 (disp32Bytes d ++ rest) = some d := by
  simp only [disp32Bytes, List.cons_append, takeDisp32, Option.some.injEq]
  apply BitVec.eq_of_getLsbD_eq
  intro i hi
  simp only [BitVec.getLsbD_append, BitVec.getLsbD_extractLsb']
  by_cases h1 : i < 8
  · simp [h1]
  · by_cases h2 : i < 16
    · have e : 8 + (i - 8) = i := by omega
      simp [h1, show i - 8 < 8 by omega, e]
    · by_cases h3 : i < 24
      · have e : 16 + (i - 8 - 8) = i := by omega
        simp [h1, show ¬ i - 8 < 8 by omega, show i - 8 - 8 < 8 by omega, e]
      · have e : 24 + (i - 8 - 8 - 8) = i := by omega
        simp [h1, show ¬ i - 8 < 8 by omega, show ¬ i - 8 - 8 < 8 by omega, e,
          show i - 8 - 8 - 8 < 8 by omega]

/-- The displacement behind a base register reads back. -/
theorem takeDisp_bytes (d : Disp) (rest : List Byte) : takeDisp d.md (d.bytes ++ rest) = some d := by
  cases d <;> simp [takeDisp, Disp.md, Disp.bytes, takeDisp32_bytes]

end Sys2Proof
end

