-- ==== Sys2Proof/Laws/Convert.lean ====
section
/-! SUPPORT. `cvt_h2s` by the parameters, and the parts of the element conversion
(spec/40_vcvtph2ps.md R76): the fields of a single-precision word, and the highest 1 bit
of a fraction. -/

namespace Sys2Proof.Machine

/-- Without differences `cvt_h2s` is the recommended body. -/
@[simp] theorem cvt_of_nil {p : Params} (h : p.cvtDiff = []) (x : Half) : p.cvt x = cvtH2s x := by
  simp [Params.cvt, h]

/-- `cvt_h2s` takes nothing but its differences from the parameters. -/
theorem cvt_congr {p q : Params} (h : p.cvtDiff = q.cvtDiff) (x : Half) : p.cvt x = q.cvt x := by
  rw [Params.cvt, Params.cvt, h]

/-- A bit of a single-precision word is a bit of one of its fields. -/
theorem getLsbD_mkSingle (s : BitVec 1) (e : BitVec 8) (f : BitVec 23) (i : Nat) :
    (mkSingle s e f).getLsbD i =
      if i < 23 then f.getLsbD i
      else if i < 31 then e.getLsbD (i - 23)
      else s.getLsbD (i - 31) := by
  have h1 := BitVec.getLsbD_append (i := i) (x := s ++ e) (y := f)
  have h2 := BitVec.getLsbD_append (i := i - 23) (x := s) (y := e)
  show ((s ++ e) ++ f).getLsbD i = _
  rw [h1, h2]
  by_cases a : i < 23
  · simp [a]
  · by_cases b : i < 31
    · simp [a, b, show i - 23 < 8 by omega]
    · simp [a, b, show ¬ i - 23 < 8 by omega, show i - 23 - 8 = i - 31 by omega]

/-- A single-precision word as a number. -/
theorem mkSingle_toNat (s : BitVec 1) (e : BitVec 8) (f : BitVec 23) :
    (mkSingle s e f).toNat = s.toNat * 2 ^ 31 + e.toNat * 2 ^ 23 + f.toNat := by
  unfold mkSingle
  rw [BitVec.toNat_append, BitVec.toNat_append]
  have h1 := f.isLt
  have h2 := e.isLt
  rw [← Nat.shiftLeft_add_eq_or_of_lt h1, ← Nat.shiftLeft_add_eq_or_of_lt (b := e.toNat) h2]
  simp only [Nat.shiftLeft_eq]
  ring

/-- The highest 1 bit of a fraction is the place of its leading power of two. -/
theorem highestOne_eq {f : BitVec 10} {p : Nat} (h1 : 2 ^ p ≤ f.toNat)
    (h2 : f.toNat < 2 ^ (p + 1)) : highestOne f 9 = p := by
  have hp : p < 10 := by
    by_contra h
    have : 2 ^ 10 ≤ 2 ^ p := Nat.pow_le_pow_right (by decide) (by omega)
    have := f.isLt
    omega
  have hb : ∀ k, p < k → f.getLsbD k = false := by
    intro k hk
    rw [BitVec.getLsbD]
    exact Nat.testBit_lt_two_pow
      (lt_of_lt_of_le h2 (Nat.pow_le_pow_right (by decide) (by omega)))
  have hpb : f.getLsbD p = true := by
    rw [BitVec.getLsbD, Nat.testBit_eq_decide_div_mod_eq]
    have : f.toNat / 2 ^ p = 1 := by
      apply Nat.div_eq_of_lt_le <;> rw [Nat.pow_succ] at * <;> omega
    simp [this]
  have key : ∀ n, p ≤ n → highestOne f n = p := by
    intro n
    induction n with
    | zero =>
      intro h
      simp [highestOne]
      omega
    | succ n ih =>
      intro h
      unfold highestOne
      by_cases e : p = n + 1
      · rw [← e, hpb]
        simp
      · rw [hb (n + 1) (by omega)]
        exact ih (by omega)
  exact key 9 (by omega)

end Sys2Proof.Machine
end

