-- ==== Sys2Proof/Laws/Pack.lean ====
section
/-! SUPPORT. Reading back what `pack` lays side by side: bytes of memory and lanes
of a register. -/

namespace Sys2Proof.Machine

/-- Every bit of a packed word. -/
theorem getLsbD_pack {w : Nat} (hw : 0 < w) (N : Nat) (f : Nat → BitVec w) (n b : Nat) :
    (pack N f n).getLsbD b =
      (decide (b < N) && decide (b < w * n) && (f (b / w)).getLsbD (b % w)) := by
  induction n with
  | zero => simp [pack]
  | succ n ih =>
    simp only [pack, BitVec.getLsbD_or, ih, BitVec.getLsbD_shiftLeft, BitVec.getLsbD_setWidth]
    by_cases hN : b < N
    · by_cases h1 : b < w * n
      · have h2 : b < w * (n + 1) := by rw [Nat.mul_succ]; omega
        simp [hN, h1, h2]
      · by_cases h2 : b < w * (n + 1)
        · have hq : b / w = n := by
            rw [Nat.div_eq_iff hw]
            rw [Nat.mul_succ] at h2
            rw [Nat.mul_comm] at h1 h2
            omega
          have hr : b % w = b - w * n := by
            have := Nat.div_add_mod b w
            rw [hq] at this
            omega
          have h3 : b - w * n < N := by omega
          simp [hN, h1, h2, h3, hq, hr]
        · have h3 : w ≤ b - w * n := by
            rw [Nat.mul_succ] at h2
            omega
          simp [hN, h1, h2, BitVec.getLsbD_of_ge _ _ h3]
    · simp [hN]

/-- Element `j` of a packed word that holds it whole. -/
theorem extract_pack {w : Nat} (hw : 0 < w) (N : Nat) (f : Nat → BitVec w) (n j : Nat)
    (hN : w * n ≤ N) (hj : j < n) : (pack N f n).extractLsb' (w * j) w = f j := by
  apply BitVec.eq_of_getLsbD_eq
  intro i hi
  have hle : w * (j + 1) ≤ w * n := Nat.mul_le_mul_left _ hj
  rw [Nat.mul_succ] at hle
  have hd : (w * j + i) / w = j := by
    rw [Nat.mul_add_div hw, Nat.div_eq_of_lt hi, Nat.add_zero]
  have hm : (w * j + i) % w = i := by rw [Nat.mul_add_mod, Nat.mod_eq_of_lt hi]
  have h1 : w * j + i < N := by omega
  have h2 : w * j + i < w * n := by omega
  rw [BitVec.getLsbD_extractLsb', getLsbD_pack hw, hd, hm]
  simp [hi, h1, h2]

/-- A packed word is 0 above its elements. -/
theorem getLsbD_pack_above {w : Nat} (hw : 0 < w) (N : Nat) (f : Nat → BitVec w) {n b : Nat}
    (hb : w * n ≤ b) : (pack N f n).getLsbD b = false := by
  rw [getLsbD_pack hw]
  simp [Nat.not_lt.mpr hb]

/-- A packed word of at most `M` bits is not cut by a narrowing to `M` bits. -/
theorem setWidth_pack {w : Nat} (hw : 0 < w) (N M : Nat) (f : Nat → BitVec w) {n : Nat}
    (h : w * n ≤ M) : ((pack N f n).setWidth M).setWidth N = pack N f n := by
  apply BitVec.eq_of_getLsbD_eq
  intro i hi
  simp only [BitVec.getLsbD_setWidth, hi, decide_true, Bool.true_and]
  by_cases hM : i < M
  · simp [hM]
  · simp [hM, getLsbD_pack_above hw N f (Nat.le_trans h (Nat.not_lt.mp hM))]

/-- Packing depends on the elements alone. -/
theorem pack_congr {w : Nat} (N : Nat) {f g : Nat → BitVec w} {n : Nat}
    (h : ∀ j < n, f j = g j) : pack N f n = pack N g n := by
  induction n with
  | zero => rfl
  | succ n ih =>
    simp only [pack]
    rw [ih (fun j hj => h j (Nat.lt_succ_of_lt hj)), h n (Nat.lt_succ_self n)]

end Sys2Proof.Machine
end

