-- ==== Sys2Proof/Laws/Exec.lean ====
section
/-! SUPPORT. Everything an instruction can do, said once: `exec` is the shared
sequence on the decoded record, and the sequence ends in one of the listed ways.
Claims about instructions cite these and do not unfold the sequence. -/

namespace Sys2Proof.Machine

/-- Every arm of `exec` is the sequence on the instruction's record. -/
theorem exec_eq (i : Instr) (s : State) : exec i s = execInst (instOf i s) s := by
  cases i <;> rfl

/-- The record's length is the encoded length. -/
@[simp] theorem instOf_len (i : Instr) (s : State) : (instOf i s).len = i.len := by
  cases i <;> rfl

/-- The element a converted lane uses is the source element of the state. -/
theorem srcElem_sourceBits (s : State) (f : Form) (src : Source) {j : Nat} (hj : j < f.kl) :
    srcElem (sourceBits s f src) j = halfAt s src j := by
  have hk : f.kl ≤ 16 := by cases f <;> decide
  apply BitVec.eq_of_getLsbD_eq
  intro b hb
  cases src with
  | reg n =>
    have h1 : 16 * j + b < 16 * f.kl := by omega
    have h2 : 16 * j + b < 256 := by omega
    simp only [srcElem, sourceBits, halfAt, BitVec.getLsbD_extractLsb', BitVec.getLsbD_setWidth]
    simp [h1, h2]
  | mem a =>
    simp only [srcElem, sourceBits, halfAt, memRead, BitVec.getLsbD_extractLsb',
      getLsbD_pack (by decide : 0 < 8), BitVec.getLsbD_append]
    have h1 : 16 * j + b < 256 := by omega
    have h2 : 16 * j + b < 8 * (2 * f.kl) := by omega
    by_cases h8 : b < 8
    · have hd : (16 * j + b) / 8 = 2 * j := by omega
      have hm : (16 * j + b) % 8 = b := by omega
      simp [hb, h1, h2, h8, hd, hm]
    · have hd : (16 * j + b) / 8 = 2 * j + 1 := by omega
      have hm : (16 * j + b) % 8 = b - 8 := by omega
      simp [hb, h1, h2, h8, hd, hm, Nat.add_assoc]

theorem maskBit_iff (s : State) (aaa : BitVec 3) (j : Nat) :
    maskBit s aaa j = true ↔ selected s aaa j := by
  simp [maskBit, selected]

theorem anyInvalid_iff (s : State) (i : Inst) :
    anyInvalid s i (sourceBits s i.form i.src) = true ↔
      invalidArises s i.src i.aaa i.form.kl := by
  simp only [anyInvalid, invalidArises, List.any_eq_true, List.mem_range, Bool.and_eq_true,
    maskBit_iff]
  constructor
  · rintro ⟨j, hj, hs, hn⟩
    exact ⟨j, hj, hs, by rwa [srcElem_sourceBits s i.form i.src hj] at hn⟩
  · rintro ⟨j, hj, hs, hn⟩
    exact ⟨j, hj, hs, by rwa [srcElem_sourceBits s i.form i.src hj]⟩

/-- The state the conversion starts from: `s`, with the counter of the free value
advanced where an alignment check was due. -/
def drawn (s : State) (i : Inst) : State :=
  if acDue s i.form i.src then { s with acTicks := s.acTicks + 1 } else s

/-- The state in which an instruction completes, from the one in which its
destination is written. -/
def completed (s : State) (i : Inst) : State :=
  (s.writeVec i.dst (newDest s i (sourceBits s i.form i.src))).advance i.len

/-- The new destination is not cut by the register's width. -/
theorem newDest_fits {s : State} {i : Inst} (h : s.available i.form = true) (src : BitVec 256) :
    ((newDest s i src).setWidth s.cfg.maxVl).setWidth 512 = newDest s i src := by
  apply setWidth_pack (by decide)
  have := vl_le_maxVl (available_hasForm h)
  simpa [Form.vl] using this

/-- Lane `j` of the new destination, for every lane of the widest register. -/
theorem lane_newDest (s : State) (i : Inst) (src : BitVec 256) (j : Nat) :
    lane (newDest s i src) j = if j < i.form.kl then newLane s i src j else 0#32 := by
  have hk : 32 * i.form.kl ≤ 512 := by cases i.form <;> decide
  by_cases h : j < i.form.kl
  · rw [if_pos h]
    exact extract_pack (by decide) 512 (newLane s i src) i.form.kl j hk h
  · simp only [h, if_false]
    apply BitVec.eq_of_getLsbD_eq
    intro b hb
    simp only [lane, newDest, BitVec.getLsbD_extractLsb']
    rw [getLsbD_pack_above (by decide) 512 _ (by omega)]
    simp

/-- The destination lane by the state's own elements (spec/40_vcvtph2ps.md R86). -/
theorem newLane_eq (s : State) (i : Inst) {j : Nat} (hj : j < i.form.kl) :
    newLane s i (sourceBits s i.form i.src) j =
      if maskBit s i.aaa j then (s.cfg.cvt (halfAt s i.src j)).1
      else if i.z then 0#32 else lane (s.readVec i.dst) j := by
  simp [newLane, srcElem_sourceBits s i.form i.src hj]

/-- The destination after completion. -/
theorem completed_readVec_dst {s : State} {i : Inst} (h : s.available i.form = true) :
    (completed s i).readVec i.dst = newDest s i (sourceBits s i.form i.src) := by
  rw [completed, advance_readVec, writeVec_readVec_same, newDest_fits h]

/-- Every other vector register after completion. -/
theorem completed_readVec_other {s : State} {i : Inst} {n : BitVec 5} (h : n ≠ i.dst) :
    (completed s i).readVec n = s.readVec n := by
  rw [completed, advance_readVec, writeVec_readVec_other s h]

/-- A lane of the destination after completion. -/
theorem completed_lane {s : State} {i : Inst} (h : s.available i.form = true) (j : Nat) :
    lane ((completed s i).readVec i.dst) j =
      if j < i.form.kl then
        if maskBit s i.aaa j then (s.cfg.cvt (halfAt s i.src j)).1
        else if i.z then 0#32 else lane (s.readVec i.dst) j
      else 0#32 := by
  rw [completed_readVec_dst h, lane_newDest _ _ _ _]
  split
  · rw [newLane_eq _ _ (by assumption)]
  · rfl

/-- How the sequence can end (spec/40_vcvtph2ps.md R78, spec/60_exceptions.md R108). -/
theorem execInst_cases (i : Inst) (s : State) :
    (s.available i.form = false ∧ execInst i s = raise .ud s) ∨
    (s.available i.form = true ∧ s.ts = true ∧ execInst i s = raise .nm s) ∨
    (s.available i.form = true ∧ s.ts = false ∧
      ∃ e, memFaultOf s i = some e ∧ execInst i s = raise e s) ∨
    (s.available i.form = true ∧ s.ts = false ∧ memFaultOf s i = none ∧
      acDue s i.form i.src = true ∧ Config.acOccurs s.acTicks = true ∧
      execInst i s = raise .ac s) ∨
    (s.available i.form = true ∧ s.ts = false ∧ memFaultOf s i = none ∧
      (acDue s i.form i.src = true → Config.acOccurs s.acTicks = false) ∧
      execInst i s = convert i (sourceBits s i.form i.src) (drawn s i)) := by
  unfold execInst
  by_cases ha : s.available i.form = true
  · by_cases ht : s.ts = true
    · simp [ha, ht]
    · cases hm : memFaultOf s i with
      | some e => simp [ha, ht]
      | none =>
        unfold readAndConvert drawn
        by_cases hc : acDue s i.form i.src = true
        · by_cases ho : Config.acOccurs s.acTicks = true
          · simp [ha, ht, hc, ho]
          · simp [ha, ht, hc, ho]
        · simp [ha, ht, hc]
  · simp [ha]

/-- How the conversion can end (R78 steps 7 to 9). -/
theorem convert_cases (i : Inst) (s : State) :
    ((i.sae = true ∨ ¬ invalidArises s i.src i.aaa i.form.kl) ∧
      convert i (sourceBits s i.form i.src) (drawn s i) = .next (completed (drawn s i) i)) ∨
    (i.sae = false ∧ invalidArises s i.src i.aaa i.form.kl ∧ s.im = true ∧
      convert i (sourceBits s i.form i.src) (drawn s i) = .next (completed (drawn s i).setIE i)) ∨
    (i.sae = false ∧ invalidArises s i.src i.aaa i.form.kl ∧ s.im = false ∧
      convert i (sourceBits s i.form i.src) (drawn s i) = raiseInvalid (drawn s i)) := by
  have key : ∀ n, convert i (sourceBits s i.form i.src) { s with acTicks := n } =
      if anyInvalid s i (sourceBits s i.form i.src) && !i.sae then
        if s.im then .next (completed ({ s with acTicks := n } : State).setIE i)
        else raiseInvalid { s with acTicks := n }
      else .next (completed { s with acTicks := n } i) := fun n => rfl
  have hd : ∃ n, drawn s i = { s with acTicks := n } := by
    unfold drawn
    split
    · exact ⟨_, rfl⟩
    · exact ⟨s.acTicks, rfl⟩
  obtain ⟨n, hn⟩ := hd
  rw [hn, key n, ← anyInvalid_iff]
  cases hi : anyInvalid s i (sourceBits s i.form i.src) <;> cases hs : i.sae <;>
    cases hm : s.im <;> simp

/-- The state in which the conversion starts is `s` but for the counter, which moves
exactly where an alignment check was due. -/
theorem drawn_eq (s : State) (i : Inst) :
    ∃ n, drawn s i = { s with acTicks := n } ∧
      (acDue s i.form i.src = false → n = s.acTicks) ∧
      (acDue s i.form i.src = true → n = s.acTicks + 1) := by
  unfold drawn
  by_cases h : acDue s i.form i.src = true
  · rw [if_pos h]
    exact ⟨_, rfl, by simp [h], fun _ => rfl⟩
  · rw [if_neg h]
    exact ⟨s.acTicks, rfl, fun _ => rfl, fun x => absurd x h⟩

/-- The vector registers after completion. -/
theorem completed_vec (s : State) (i : Inst) :
    (completed s i).vec = s.vec.set i.dst.toNat
      (((newDest s i (sourceBits s i.form i.src)).setWidth s.cfg.maxVl).setWidth 512) := rfl

/-- Completion itself leaves `MXCSR`. -/
theorem completed_mxcsr (s : State) (i : Inst) : (completed s i).mxcsr = s.mxcsr := rfl

/-- Everything an instruction that completes has done: which checks it passed, and the
state it completes in. -/
theorem exec_next {i : Instr} {s t : State} (h : exec i s = .next t) :
    s.available (instOf i s).form = true ∧ s.ts = false ∧ memFaultOf s (instOf i s) = none ∧
    (acDue s (instOf i s).form (instOf i s).src = true → Config.acOccurs s.acTicks = false) ∧
    (((instOf i s).sae = true ∨
        ¬ invalidArises s (instOf i s).src (instOf i s).aaa (instOf i s).form.kl) ∧
      t = completed (drawn s (instOf i s)) (instOf i s) ∨
     ((instOf i s).sae = false ∧
        invalidArises s (instOf i s).src (instOf i s).aaa (instOf i s).form.kl ∧
        s.im = true ∧ t = completed (drawn s (instOf i s)).setIE (instOf i s))) := by
  rw [exec_eq] at h
  rcases execInst_cases (instOf i s) s with ⟨_, h'⟩ | ⟨_, _, h'⟩ | ⟨_, _, e', _, h'⟩ |
    ⟨_, _, _, _, _, h'⟩ | ⟨ha, ht, hm, hc, h'⟩
  iterate 4
    rw [h'] at h
    cases h
  refine ⟨ha, ht, hm, hc, ?_⟩
  rw [h'] at h
  rcases convert_cases (instOf i s) s with ⟨hq, h''⟩ | ⟨hs, hi, him, h''⟩ | ⟨_, hi, him, h''⟩
  · rw [h''] at h
    injection h with h
    exact .inl ⟨hq, h.symm⟩
  · rw [h''] at h
    injection h with h
    exact .inr ⟨hs, hi, him, h.symm⟩
  · rw [h''] at h
    cases h

/-- What an instruction's record takes from the instruction alone. -/
theorem instOf_congr (i : Instr) (s s' : State) :
    (instOf i s).form = (instOf i s').form ∧ (instOf i s).dst = (instOf i s').dst ∧
    (instOf i s).aaa = (instOf i s').aaa ∧ (instOf i s).z = (instOf i s').z ∧
    (instOf i s).sae = (instOf i s').sae := by
  cases i <;> exact ⟨rfl, rfl, rfl, rfl, rfl⟩

/-- A register's bit is a bit of one of its lanes. -/
theorem getLsbD_lane (x : VecWord) (b : Nat) :
    x.getLsbD b = (lane x (b / 32)).getLsbD (b % 32) := by
  simp only [lane, BitVec.getLsbD_extractLsb']
  have h1 : b % 32 < 32 := Nat.mod_lt _ (by decide)
  have h2 : 32 * (b / 32) + b % 32 = b := by omega
  rw [h2]
  simp [h1]

/-- Registers with the same lanes are equal. -/
theorem eq_of_lanes {x y : VecWord} (h : ∀ j, lane x j = lane y j) : x = y := by
  apply BitVec.eq_of_getLsbD_eq
  intro b _
  rw [getLsbD_lane, getLsbD_lane y, h]

end Sys2Proof.Machine
end

