-- ==== Sys2Proof/Laws/Memory.lean ====
section
/-! SUPPORT. Memory: reading after writing, and the canonical form, which every
memory operation keeps. -/

namespace Sys2Proof.Machine

/-- A byte reads back as it was written. -/
theorem Memory.read_write_same (m : Memory) (a : Nat) (x : Byte)
    (h : (m.map Prod.fst).Pairwise (· < ·)) : (m.write a x).read a = x := by
  induction m with
  | nil =>
    by_cases hx : x = Memory.unlisted <;> simp [Memory.write, Memory.read, hx]
  | cons c rest ih =>
    obtain ⟨b, v⟩ := c
    simp only [List.map_cons, List.pairwise_cons] at h
    have hlast : ∀ (l : Memory), (∀ c ∈ l, a < c.1) → Memory.read l a = Memory.unlisted := by
      intro l
      induction l with
      | nil => intro _; rfl
      | cons d l ihl =>
        intro hl
        have h1 := hl d (List.mem_cons_self ..)
        obtain ⟨d1, d2⟩ := d
        simp only [Memory.read]
        rw [if_neg (by simp at h1; omega)]
        exact ihl fun c hc => hl c (List.mem_cons_of_mem _ hc)
    by_cases h1 : a < b
    · by_cases hx : x = Memory.unlisted
      · have : Memory.read ((b, v) :: rest) a = Memory.unlisted := by
          apply hlast
          intro c hc
          rcases List.mem_cons.mp hc with rfl | hc
          · exact h1
          · exact Nat.lt_trans h1 (h.1 c.1 (List.mem_map_of_mem hc))
        simp [Memory.write, h1, hx, this]
      · simp [Memory.write, h1, hx, Memory.read]
    · by_cases h2 : a = b
      · by_cases hx : x = Memory.unlisted
        · have : Memory.read rest a = Memory.unlisted := by
            apply hlast
            intro c hc
            rw [h2]
            exact h.1 c.1 (List.mem_map_of_mem hc)
          simp only [Memory.write, if_neg h1, if_pos h2, if_pos hx]
          rw [this, hx]
        · subst h2
          simp [Memory.write, hx, Memory.read]
      · simp [Memory.write, h1, h2, Memory.read, ih h.2]

/-- Every other byte reads as before. -/
theorem Memory.read_write_other (m : Memory) {a c : Nat} (x : Byte) (h : c ≠ a) :
    (m.write a x).read c = m.read c := by
  induction m with
  | nil =>
    by_cases hx : x = Memory.unlisted <;> simp [Memory.write, Memory.read, hx, h]
  | cons e rest ih =>
    obtain ⟨b, v⟩ := e
    simp only [Memory.write]
    (repeat' split) <;> simp_all [Memory.read]

/-- The addresses a write leaves listed: its own and those listed before. -/
theorem Memory.mem_write {m : Memory} {a : Nat} {x : Byte} {c : Host.Cell}
    (h : c ∈ m.write a x) : (c = (a, x) ∧ x ≠ Memory.unlisted) ∨ c ∈ m := by
  induction m with
  | nil =>
    by_cases hx : x = Memory.unlisted <;> simp_all [Memory.write]
  | cons e rest ih =>
    obtain ⟨b, v⟩ := e
    simp only [Memory.write] at h
    split at h
    · split at h
      · exact .inr h
      · rcases List.mem_cons.mp h with h | h
        · exact .inl ⟨h, by assumption⟩
        · exact .inr h
    · split at h
      · split at h
        · exact .inr (List.mem_cons_of_mem _ h)
        · rcases List.mem_cons.mp h with h | h
          · exact .inl ⟨h, by assumption⟩
          · exact .inr (List.mem_cons_of_mem _ h)
      · rcases List.mem_cons.mp h with h | h
        · exact .inr (h ▸ List.mem_cons_self ..)
        · exact (ih h).imp id (List.mem_cons_of_mem _)

/-- Writing keeps the canonical form. -/
theorem Memory.write_wf {m : Memory} {a : Nat} (x : Byte) (h : m.wf) (ha : a < 2 ^ 64) :
    (m.write a x).wf := by
  refine ⟨?_, ?_⟩
  · obtain ⟨hs, -⟩ := h
    induction m with
    | nil => by_cases hx : x = Memory.unlisted <;> simp [Memory.write, hx]
    | cons e rest ih =>
      obtain ⟨b, v⟩ := e
      have hs' := hs
      simp only [List.map_cons, List.pairwise_cons] at hs'
      simp only [Memory.write]
      split
      · split
        · exact hs
        · rename_i hlt _
          simp only [List.map_cons, List.pairwise_cons, List.mem_cons]
          refine ⟨?_, hs'⟩
          rintro y (rfl | hy)
          · exact hlt
          · exact Nat.lt_trans hlt (hs'.1 y hy)
      · split
        · rename_i heq
          split
          · exact hs'.2
          · simp only [List.map_cons, List.pairwise_cons]
            exact ⟨heq ▸ hs'.1, hs'.2⟩
        · rename_i hge hne
          simp only [List.map_cons, List.pairwise_cons]
          refine ⟨?_, ih hs'.2⟩
          intro y hy
          obtain ⟨c, hc, rfl⟩ := List.mem_map.mp hy
          rcases Memory.mem_write hc with ⟨rfl, -⟩ | hc
          · show b < a; omega
          · exact hs'.1 c.1 (List.mem_map_of_mem hc)
  · intro c hc
    rcases Memory.mem_write hc with ⟨rfl, hx⟩ | hc
    · exact ⟨ha, hx⟩
    · exact h.2 c hc

/-- Writing bytes keeps the canonical form. -/
theorem Memory.writeBytes_wf {m : Memory} (md : Mode) (bs : List Byte) : ∀ (a : Addr), m.wf →
    (m.writeBytes md a bs).wf := by
  induction bs generalizing m with
  | nil => intro _ h; exact h
  | cons x xs ih => intro a h; exact ih _ (Memory.write_wf x h a.isLt)

/-- A step of one address and a step of `i` more are a step of `i + 1`. -/
theorem wrap_succ_add (md : Mode) (a : Addr) (i : Nat) :
    wrap md (wrap md (a + 1) + BitVec.ofNat 64 i) = wrap md (a + BitVec.ofNat 64 (i + 1)) := by
  rw [← BitVec.toNat_inj]
  simp only [wrap_toNat, BitVec.toNat_add, BitVec.toNat_ofNat]
  have : (1 : Addr).toNat = 1 := rfl
  cases md <;> simp only [addrSpace] <;> omega

/-- Different bytes of a run no longer than the address space have different addresses. -/
theorem wrap_add_ne (md : Mode) (a : Addr) {i : Nat} (h0 : 0 < i) (h : i < addrSpace md) :
    wrap md (a + BitVec.ofNat 64 i) ≠ wrap md a := by
  rw [Ne, ← BitVec.toNat_inj]
  simp only [wrap_toNat, BitVec.toNat_add, BitVec.toNat_ofNat]
  cases md <;> simp only [addrSpace] at * <;> omega

/-- A byte outside a run of written ones reads as before. -/
theorem Memory.read_writeBytes_other (md : Mode) (bs : List Byte) : ∀ (m : Memory) (a : Addr)
    (c : Nat), wrap md a = a → (∀ i < bs.length, (wrap md (a + BitVec.ofNat 64 i)).toNat ≠ c) →
    (m.writeBytes md a bs).read c = m.read c := by
  induction bs with
  | nil => intros; rfl
  | cons x xs ih =>
    intro m a c ha hc
    have h0 := hc 0 (by simp)
    rw [BitVec.add_zero, ha] at h0
    rw [Memory.writeBytes, ih _ _ _ (wrap_wrap ..), Memory.read_write_other _ _ (Ne.symm h0)]
    intro i hi
    rw [wrap_succ_add]
    exact hc (i + 1) (by simpa using hi)

/-- How many bytes `bytesFrom` gives. -/
@[simp] theorem Memory.bytesFrom_length (md : Mode) (m : Memory) (n : Nat) : ∀ a : Addr,
    (m.bytesFrom md a n).length = n := by
  induction n with
  | zero => intro _; rfl
  | succ n ih => intro a; simp [Memory.bytesFrom, ih]

/-- Byte `i` of `bytesFrom`. -/
theorem Memory.bytesFrom_getElem? (md : Mode) (m : Memory) (n : Nat) : ∀ (a : Addr) (i : Nat),
    wrap md a = a → i < n →
    (m.bytesFrom md a n)[i]? = some (m.read ((a.toNat + i) % addrSpace md)) := by
  induction n with
  | zero => intro _ _ _ h; omega
  | succ n ih =>
    intro a i ha hi
    have hlt : a.toNat < addrSpace md := ha ▸ wrap_lt md a
    cases i with
    | zero => simp [Memory.bytesFrom, Nat.mod_eq_of_lt hlt]
    | succ i =>
      rw [Memory.bytesFrom, List.getElem?_cons_succ, ih _ _ (wrap_wrap ..) (by omega), wrap_toNat,
        BitVec.toNat_add]
      have : (1 : Addr).toNat = 1 := rfl
      congr 2
      cases md <;> simp only [addrSpace] <;> omega

/-- A run of bytes reads back as written. -/
theorem Memory.bytesFrom_writeBytes (md : Mode) (bs : List Byte) : ∀ (m : Memory) (a : Addr),
    m.wf → wrap md a = a → bs.length ≤ addrSpace md →
    (m.writeBytes md a bs).bytesFrom md a bs.length = bs := by
  induction bs with
  | nil => intros; rfl
  | cons x xs ih =>
    intro m a hw ha hl
    simp only [List.length_cons] at hl
    rw [Memory.writeBytes, List.length_cons, Memory.bytesFrom,
      ih _ _ (Memory.write_wf x hw a.isLt) (wrap_wrap ..) (by omega),
      Memory.read_writeBytes_other _ _ _ _ _ (wrap_wrap ..), Memory.read_write_same _ _ _ hw.1]
    intro i hi
    rw [wrap_succ_add, Ne, BitVec.toNat_inj]
    intro h
    exact wrap_add_ne md a (Nat.succ_pos i) (by omega) (h.trans ha.symm)

/-- How many bytes a step fetches. -/
@[simp] theorem fetch_length (s : State) : s.fetch.length = s.textLeft :=
  Memory.bytesFrom_length ..

/-- Where bytes are fetched, `pc` is not the end of the program text. -/
theorem ip_ne_textStop {s : State} (h : s.fetch ≠ []) : s.ip ≠ s.textStop := by
  rw [Ne, ← textLeft_eq_zero, ← fetch_length]
  exact fun e => h (List.eq_nil_of_length_eq_zero e)

/-- Launching a program keeps the canonical form. -/
theorem loadText_mem_wf {s : State} (bs : List Byte) (h : s.mem.wf) : (s.loadText bs).mem.wf :=
  Memory.writeBytes_wf _ bs _ h

/-- Placing a table word keeps the canonical form. -/
theorem withFetchWord_mem_wf {s : State} (nbits w : Nat) (h : s.mem.wf) :
    (s.withFetchWord nbits w).mem.wf :=
  loadText_mem_wf (s := s.enable64) _ h

/-- Memory after reset has the canonical form. -/
theorem reset_mem_wf : State.reset.mem.wf := by decide

end Sys2Proof.Machine
end

