-- ==== Sys2Proof/Laws/PerInstr.lean ====
section
/-! SUPPORT. Statements made per instruction, one lemma per constructor of `Instr`. -/

namespace Sys2Proof.Laws.EncodedHead

/-- The encoding begins with the escape byte of its kind, holds the opcode byte
`13h` after the prefix, and has the encoded length (spec/30_encoding.md R45, R66). -/
def Statement (i : Instr) : Prop :=
  (encode i).length = i.len ∧
  match i with
  | .vex128 _ _ | .vex256 _ _ => (encode i)[0]? = some 0xC4#8 ∧ (encode i)[3]? = some 0x13#8
  | .evex128 _ _ _ _ | .evex256 _ _ _ _ | .evex512 _ _ _ _ | .evex512Sae _ _ _ _ =>
    (encode i)[0]? = some 0x62#8 ∧ (encode i)[4]? = some 0x13#8

theorem memForm_bytes_length (reg : BitVec 3) (f : MemForm) : (f.bytes reg).length = 1 + f.len := by
  rcases f with ⟨b, _ | _ | _⟩ | _ | ⟨b, idx, sc, _ | _ | _⟩ | _ <;> rfl

theorem vexSrc_parts_length (reg : BitVec 3) (src : VexSrc) :
    (src.parts reg).2.2.length = 1 + src.len := by
  cases src with
  | reg n => rfl
  | mem f => exact memForm_bytes_length reg f

theorem evexSrc_parts_length (reg : BitVec 3) (src : EvexSrc) :
    (src.parts reg).2.2.length = 1 + src.len := by
  cases src with
  | reg n => rfl
  | mem f => exact memForm_bytes_length reg f

theorem encodeVex_length (l : Bool) (dst : BitVec 4) (src : VexSrc) :
    (encodeVex l dst src).length = 5 + src.len := by
  simp only [encodeVex_eq, List.length_cons, vexSrc_parts_length]; omega

theorem encodeEvex_length (ll : BitVec 2) (sae : Bool) (dst : BitVec 5) (src : EvexSrc)
    (aaa : BitVec 3) (z : Bool) : (encodeEvex ll sae dst src aaa z).length = 6 + src.len := by
  simp only [encodeEvex_eq, List.length_cons, evexSrc_parts_length]; omega

theorem vex128 (dst : BitVec 4) (src : VexSrc) : Statement (.vex128 dst src) :=
  ⟨encodeVex_length false dst src, rfl, rfl⟩

theorem vex256 (dst : BitVec 4) (src : VexSrc) : Statement (.vex256 dst src) :=
  ⟨encodeVex_length true dst src, rfl, rfl⟩

theorem evex128 (dst : BitVec 5) (src : EvexSrc) (aaa : BitVec 3) (z : Bool) :
    Statement (.evex128 dst src aaa z) :=
  ⟨encodeEvex_length 0#2 false dst src aaa z, rfl, rfl⟩

theorem evex256 (dst : BitVec 5) (src : EvexSrc) (aaa : BitVec 3) (z : Bool) :
    Statement (.evex256 dst src aaa z) :=
  ⟨encodeEvex_length 1#2 false dst src aaa z, rfl, rfl⟩

theorem evex512 (dst : BitVec 5) (src : EvexSrc) (aaa : BitVec 3) (z : Bool) :
    Statement (.evex512 dst src aaa z) :=
  ⟨encodeEvex_length 2#2 false dst src aaa z, rfl, rfl⟩

theorem evex512Sae (dst src : BitVec 5) (aaa : BitVec 3) (z : Bool) :
    Statement (.evex512Sae dst src aaa z) :=
  ⟨encodeEvex_length 2#2 true dst (.reg src) aaa z, rfl, rfl⟩

end Sys2Proof.Laws.EncodedHead
end

