-- ==== Sys2Proof/Tests/Slice0.lean ====
section
/-! SUPPORT. Checks on fixed values. Expected values are those of
spec/95_test_vectors.md (the vector is named at each test), or are worked out by hand
from the rule named. The witnesses at the end meet the hypotheses of the statements. -/

open Sys2Proof Sys2Proof.Machine

namespace Sys2Proof.Tests

-- one theorem at a time: each kernel evaluation would else hold a thread of its own
set_option Elab.async false

/-! ### A small machine -/

/-- The setting of spec/95_test_vectors.md: 64-bit mode, every form enabled,
`CR4.OSXMMEXCPT = 1`, `pc = 1000h`. -/
def base : State := { State.reset.enable64 with pc := 0x1000, textEnd := 0x1010, cr4 := 0x40400 }

/-- The same in 32-bit mode. -/
def base32 : State := { base with mode := .m32 }

/-- A state with one vector register set. -/
def setV (n : Fin 32) (x : VecWord) (s : State) : State := { s with vec := s.vec.set n x }

/-- A state with one opmask register set. -/
def setK (n : Fin 8) (x : BitVec 64) (s : State) : State := { s with k := s.k.set n x }

/-- A state with bytes in memory. -/
def setMem (a : Addr) (bs : List Byte) (s : State) : State :=
  { s with mem := s.mem.writeBytes s.mode a bs }

/-- What a next state shows. -/
def shows {α : Type} (f : State → α) (o : Host.Outcome State Fault Refusal) : Option α :=
  match o with
  | .next t => some (f t)
  | .fault _ => none
  | .refused _ => none

/-- What a fault shows: the exception, its `pc`, and something of the state. -/
def faults {α : Type} (f : State → α) (o : Host.Outcome State Fault Refusal) :
    Option (Exception × Addr × α) :=
  match o with
  | .next _ => none
  | .fault (.raised e pc t) => some (e, pc, f t)
  | .refused _ => none

/-- A next state exists where one is shown. -/
theorem next_of_shows {o : Host.Outcome State Fault Refusal} (h : shows (fun _ => 0) o = some 0) :
    ∃ t, o = .next t := by
  cases o with
  | next t => exact ⟨t, rfl⟩
  | fault _ => cases h
  | refused _ => cases h

/-- Halves 1.0, 2.0, 3.0, 4.0, and their singles (V1). -/
def halves4 : VecWord := 0x4400420040003C00#512
def singles4 : VecWord := 0x408000004040000040000000_3F800000#512

/-- Halves 1.0 to 8.0, and their singles (V11). -/
def halves8 : VecWord := 0x48004700460045004400420040003C00#512
def singles8 : VecWord :=
  0x4100000040E0000040C0000040A00000408000004040000040000000_3F800000#512

/-- Halves 1.0 to 16.0, and their singles (V23). -/
def halves16 : VecWord := 0x4C004B804B004A804A00498049004880_48004700460045004400420040003C00#512
def singles16 : VecWord :=
  0x4180000041700000416000004150000041400000413000004120000041100000_4100000040E0000040C0000040A00000408000004040000040000000_3F800000#512

/-! ### Well-formedness: one ill-formed term for each check -/

theorem test_wf_refuses :
    -- `r/m = 100b` announces a SIB byte: no base register 4 or 12 without one
    Instr.wf .m64 (.vex128 0 (.mem (.base 4 .none))) = false ∧
    Instr.wf .m64 (.vex128 0 (.mem (.base 12 (.d8 1)))) = false ∧
    -- `mod = 00b`, `r/m = 101b`: no base register 5 or 13 without a displacement
    Instr.wf .m64 (.vex128 0 (.mem (.base 5 .none))) = false ∧
    Instr.wf .m64 (.vex128 0 (.mem (.base 13 .none))) = false ∧
    -- the same for the SIB base
    Instr.wf .m64 (.vex256 0 (.mem (.sib 5 1 0 .none))) = false ∧
    -- zeroing without a writemask
    Instr.wf .m64 (.evex128 0 (.reg 1) 0 true) = false ∧
    Instr.wf .m64 (.evex512Sae 0 1 0 true) = false ∧
    -- 32-bit mode: registers above 7, as destination, source, base, index
    Instr.wf .m32 (.vex128 8 (.reg 0)) = false ∧
    Instr.wf .m32 (.evex256 0 (.reg 8) 0 false) = false ∧
    Instr.wf .m32 (.vex256 0 (.mem (.base 8 .none))) = false ∧
    Instr.wf .m32 (.evex512 0 (.mem (.sib 0 9 0 .none)) 0 false) = false ∧
    Instr.wf .m32 (.evex512 0 (.mem (.sibNoBase 8 0 0)) 0 false) = false ∧
    Instr.wf .m32 (.evex512Sae 16 1 0 false) = false := by decide +kernel

theorem test_wf_accepts :
    Instr.wf .m64 (.vex128 15 (.mem (.base 5 (.d8 0)))) = true ∧
    Instr.wf .m64 (.evex512Sae 31 31 7 true) = true ∧
    Instr.wf .m32 (.evex128 7 (.mem (.sib 7 4 3 (.d32 0))) 1 true) = true := by decide +kernel

/-! ### Decoding (E1 to E46), 64-bit mode -/

/-- Register forms (E1, E2, E4 to E9, E30 to E33). -/
theorem test_decode_registers :
    decode .m64 [0xC4, 0xE2, 0x79, 0x13, 0xCA] = .instr (.vex128 1 (.reg 2)) ∧
    decode .m64 [0xC4, 0xE2, 0x7D, 0x13, 0xCA] = .instr (.vex256 1 (.reg 2)) ∧
    decode .m64 [0x62, 0xF2, 0x7D, 0x08, 0x13, 0xCA] = .instr (.evex128 1 (.reg 2) 0 false) ∧
    decode .m64 [0x62, 0xF2, 0x7D, 0x28, 0x13, 0xCA] = .instr (.evex256 1 (.reg 2) 0 false) ∧
    decode .m64 [0x62, 0xF2, 0x7D, 0x48, 0x13, 0xCA] = .instr (.evex512 1 (.reg 2) 0 false) ∧
    decode .m64 [0x62, 0xF2, 0x7D, 0xC9, 0x13, 0xCA] = .instr (.evex512 1 (.reg 2) 1 true) ∧
    decode .m64 [0x62, 0xF2, 0x7D, 0x4A, 0x13, 0xCA] = .instr (.evex512 1 (.reg 2) 2 false) ∧
    decode .m64 [0x62, 0xF2, 0x7D, 0x58, 0x13, 0xCA] = .instr (.evex512Sae 1 2 0 false) ∧
    decode .m64 [0xC4, 0x62, 0x7D, 0x13, 0xC7] = .instr (.vex256 8 (.reg 7)) ∧
    decode .m64 [0xC4, 0x42, 0x7D, 0x13, 0xC7] = .instr (.vex256 8 (.reg 15)) ∧
    decode .m64 [0x62, 0x92, 0x7D, 0x48, 0x13, 0xC7] = .instr (.evex512 0 (.reg 31) 0 false) ∧
    decode .m64 [0x62, 0x02, 0x7D, 0x48, 0x13, 0xFF] =
      .instr (.evex512 31 (.reg 31) 0 false) := by decide +kernel

/-- Memory forms (E3, E22 to E29, E34 to E37). -/
theorem test_decode_memory :
    decode .m64 [0xC4, 0xE2, 0x7D, 0x13, 0x00] = .instr (.vex256 0 (.mem (.base 0 .none))) ∧
    decode .m64 [0x62, 0xF2, 0x7D, 0x48, 0x13, 0x48, 0x01] =
      .instr (.evex512 1 (.mem (.base 0 (.d8 1))) 0 false) ∧
    decode .m64 [0x62, 0xF2, 0x7D, 0x28, 0x13, 0x48, 0xFF] =
      .instr (.evex256 1 (.mem (.base 0 (.d8 0xFF))) 0 false) ∧
    decode .m64 [0x62, 0xF2, 0x7D, 0x08, 0x13, 0x48, 0x02] =
      .instr (.evex128 1 (.mem (.base 0 (.d8 2))) 0 false) ∧
    decode .m64 [0xC4, 0xE2, 0x79, 0x13, 0x48, 0x08] =
      .instr (.vex128 1 (.mem (.base 0 (.d8 8)))) ∧
    decode .m64 [0xC4, 0xE2, 0x79, 0x13, 0x05, 0x10, 0x00, 0x00, 0x00] =
      .instr (.vex128 0 (.mem (.dispOnly 0x10))) ∧
    decode .m64 [0xC4, 0xE2, 0x79, 0x13, 0x04, 0x88] =
      .instr (.vex128 0 (.mem (.sib 0 1 2 .none))) ∧
    decode .m64 [0xC4, 0xA2, 0x79, 0x13, 0x04, 0x88] =
      .instr (.vex128 0 (.mem (.sib 0 9 2 .none))) ∧
    decode .m64 [0xC4, 0xC2, 0x79, 0x13, 0x00] = .instr (.vex128 0 (.mem (.base 8 .none))) ∧
    decode .m64 [0x62, 0xF2, 0x7D, 0x48, 0x13, 0x84, 0xC8, 0x00, 0x01, 0x00, 0x00] =
      .instr (.evex512 0 (.mem (.sib 0 1 3 (.d32 0x100))) 0 false) ∧
    decode .m64 [0x62, 0xF2, 0x7D, 0x48, 0x13, 0x04, 0x25, 0x00, 0x10, 0x00, 0x00] =
      .instr (.evex512 0 (.mem (.sibNoBase 4 0 0x1000)) 0 false) ∧
    decode .m64 [0xC4, 0xE2, 0x79, 0x13, 0x44, 0x24, 0xF8] =
      .instr (.vex128 0 (.mem (.sib 4 4 0 (.d8 0xF8)))) ∧
    decode .m64 [0xC4, 0xE2, 0x7D, 0x13, 0x80, 0x00, 0x00, 0x01, 0x00] =
      .instr (.vex256 0 (.mem (.base 0 (.d32 0x10000)))) := by decide +kernel

/-- Reserved fields (E11 to E21) and illegal prefixes (E38 to E40). -/
theorem test_decode_ud :
    ∀ bs ∈ ([[0xC4, 0xE2, 0xF9, 0x13, 0xCA], [0xC4, 0xE2, 0x71, 0x13, 0xCA],
      [0xC4, 0xE2, 0x39, 0x13, 0xCA], [0x62, 0xF2, 0x75, 0x48, 0x13, 0xCA],
      [0x62, 0xF2, 0xFD, 0x48, 0x13, 0xCA], [0x62, 0xF2, 0x7D, 0x88, 0x13, 0xCA],
      [0x62, 0xF2, 0x7D, 0x68, 0x13, 0xCA], [0x62, 0xF2, 0x7D, 0x40, 0x13, 0xCA],
      [0x62, 0xF2, 0x7D, 0x58, 0x13, 0x08], [0x62, 0xF6, 0x7D, 0x48, 0x13, 0xCA],
      [0x62, 0xF2, 0x79, 0x48, 0x13, 0xCA], [0x66, 0xC4, 0xE2, 0x79, 0x13, 0xCA],
      [0xF0, 0x62, 0xF2, 0x7D, 0x48, 0x13, 0xCA], [0x48, 0xC4, 0xE2, 0x79, 0x13, 0xCA]] :
      List (List Byte)), decode .m64 bs = .ud := by decide +kernel

/-- Refusals by name (E10, E41 to E46). -/
theorem test_decode_refuses :
    decode .m64 [0x62, 0xF2, 0x7D, 0x18, 0x13, 0xCA] = .refuse .saeWithOtherLL ∧
    decode .m64 [0x67, 0xC4, 0xE2, 0x79, 0x13, 0x00] = .refuse .legacyPrefix ∧
    decode .m64 [0xC5, 0xF9, 0x13, 0xCA] = .refuse .notVcvtph2ps ∧
    decode .m64 [0xC4, 0xE1, 0x79, 0x13, 0xCA] = .refuse .notVcvtph2ps ∧
    decode .m64 [0xC4, 0xE2, 0x7A, 0x13, 0xCA] = .refuse .notVcvtph2ps ∧
    decode .m64 [0xC4, 0xE2, 0x79, 0x14, 0xCA] = .refuse .notVcvtph2ps ∧
    decode .m64 [0x62, 0xF1, 0x7D, 0x48, 0x13, 0xCA] = .refuse .notVcvtph2ps ∧
    decode .m64 [0xC4, 0xE2, 0x79, 0x13] = .refuse .truncated := by decide +kernel

/-- Short strings, by hand from the lines of spec/30_encoding.md R67: a line is decided by the
bytes it names, and where one names a byte that is not there no line answers. Behind an
illegal prefix that is neither `Inst` nor `UD`. -/
theorem test_decode_short :
    decode .m64 [0x62, 0xF6, 0x7D] = .ud ∧
    decode .m64 [0xC4, 0xE2, 0xF9, 0x13] = .ud ∧
    decode .m32 [0xC4, 0x08] = .refuse .notVcvtph2ps ∧
    decode .m64 [0xC4, 0xE1] = .refuse .notVcvtph2ps ∧
    decode .m64 [0x62, 0xF2, 0x79] = .ud ∧
    decode .m64 [0x62, 0xF2, 0x7D, 0x68, 0x13] = .ud ∧
    decode .m64 [0x62, 0xF2, 0x7D, 0x48] = .refuse .truncated ∧
    decode .m64 [0xC4, 0xE2, 0x79, 0x13, 0x05, 0x10] = .refuse .truncated ∧
    decode .m64 [0x66, 0x62, 0xF6] = .ud ∧
    decode .m64 [0x66, 0xC4, 0xE2] = .refuse .notVcvtph2ps := by decide +kernel

/-- 32-bit mode (E1, E9, E29, E30, E40, and the absolute operand). -/
theorem test_decode_m32 :
    decode .m32 [0xC4, 0xE2, 0x79, 0x13, 0xCA] = .instr (.vex128 1 (.reg 2)) ∧
    decode .m32 [0x62, 0xF2, 0x7D, 0x58, 0x13, 0xCA] = .instr (.evex512Sae 1 2 0 false) ∧
    decode .m32 [0xC4, 0xC2, 0x79, 0x13, 0x00] = .refuse .extBitIn32BitMode ∧
    decode .m32 [0xC4, 0x62, 0x7D, 0x13, 0xC7] = .refuse .notVcvtph2ps ∧
    decode .m32 [0x48, 0xC4, 0xE2, 0x79, 0x13, 0xCA] = .refuse .notVcvtph2ps ∧
    decode .m32 [0xC4, 0xE2, 0x79, 0x13, 0x05, 0x00, 0x20, 0x00, 0x00] =
      .instr (.vex128 0 (.mem (.dispOnly 0x2000))) := by decide +kernel

/-- The encoder writes the words of E1, E7, E9, E28 and E34. -/
theorem test_encode :
    encode (.vex128 1 (.reg 2)) = [0xC4, 0xE2, 0x79, 0x13, 0xCA] ∧
    encode (.evex512 1 (.reg 2) 1 true) = [0x62, 0xF2, 0x7D, 0xC9, 0x13, 0xCA] ∧
    encode (.evex512Sae 1 2 0 false) = [0x62, 0xF2, 0x7D, 0x58, 0x13, 0xCA] ∧
    encode (.vex128 0 (.mem (.sib 0 9 2 .none))) = [0xC4, 0xA2, 0x79, 0x13, 0x04, 0x88] ∧
    encode (.evex512 0 (.mem (.sib 0 1 3 (.d32 0x100))) 0 false) =
      [0x62, 0xF2, 0x7D, 0x48, 0x13, 0x84, 0xC8, 0x00, 0x01, 0x00, 0x00] := by decide +kernel

/-- The six rows of spec/opcode_table.json, their free bits 0: all stored extension
bits 0 select the highest registers (spec/30_encoding.md R51, R52). -/
theorem test_table_words :
    decodeTableWord 40 0x00137902C4 = some (.vex128 8 (.mem (.base 8 .none))) ∧
    decodeTableWord 40 0x00137D02C4 = some (.vex256 8 (.mem (.base 8 .none))) ∧
    decodeTableWord 48 0x0013087D0262 = some (.evex128 24 (.mem (.base 8 .none)) 0 false) ∧
    decodeTableWord 48 0x0013287D0262 = some (.evex256 24 (.mem (.base 8 .none)) 0 false) ∧
    decodeTableWord 48 0x0013487D0262 = some (.evex512 24 (.mem (.base 8 .none)) 0 false) ∧
    decodeTableWord 48 0xC013587D0262 = some (.evex512Sae 24 24 0 false) := by decide +kernel

/-- Placed at reset, such a word is what the next step runs: the four zero bytes at
address 0 convert to zeros, and `pc` moves past the instruction. -/
theorem test_table_word_runs :
    shows (fun t => (t.pc, t.readVec 24)) (step (State.reset.withFetchWord 48 0x0013087D0262)) =
      some (0xFFFFFFF6#64, 0#512) := by decide +kernel

/-! ### The element conversion (H1 to H52) -/

theorem test_convert_zero_denormal :
    [0x0000#16, 0x8000, 0x0001, 0x8001, 0x0002, 0x0003, 0x01FF, 0x0200, 0x03FF, 0x83FF].map
      cvtH2s = [0x00000000#32, 0x80000000, 0x33800000, 0xB3800000, 0x34000000, 0x34400000,
        0x37FF8000, 0x38000000, 0x387FC000, 0xB87FC000].map (·, false) := by decide +kernel

theorem test_convert_normal :
    [0x0400#16, 0x0401, 0x3555, 0x3C00, 0xBC00, 0x3F80, 0x4248, 0x5640, 0x7BFF, 0xFBFF].map
      cvtH2s = [0x38800000#32, 0x38802000, 0x3EAAA000, 0x3F800000, 0xBF800000, 0x3FF00000,
        0x40490000, 0x42C80000, 0x477FE000, 0xC77FE000].map (·, false) := by decide +kernel

theorem test_convert_infinity_nan :
    [0x7C00#16, 0xFC00, 0x7E00, 0xFE00, 0x7E01, 0x7FFF, 0xFFFF].map cvtH2s =
      [0x7F800000#32, 0xFF800000, 0x7FC00000, 0xFFC00000, 0x7FC02000, 0x7FFFE000,
        0xFFFFE000].map (·, false) ∧
    [0x7C01#16, 0xFC01, 0x7D00, 0xFD00, 0x7D55, 0x7DFF].map cvtH2s =
      [0x7FC02000#32, 0xFFC02000, 0x7FE00000, 0xFFE00000, 0x7FEAA000, 0x7FFFE000].map
        (·, true) := by decide +kernel

/-- `cvt_h2s` is a configuration field (spec/00_scope.md R4): a machine whose NaN result for
`7E01h` is the default quiet NaN, without and with Invalid; other inputs are as before. -/
theorem test_convert_parameter :
    let s := setV 2 0x3C007E01#512 base
    let m (bad : Bool) : State :=
      { s with cfg := { s.cfg with cvtDiff := [(0x7E01, 0x7FC00000, bad)] } }
    shows (fun t => (t.readVec 1, t.mxcsr)) (exec (.vex128 1 (.reg 2)) s) =
      some (0x3F8000007FC02000#512, 0x1F80#32) ∧
    shows (fun t => (t.readVec 1, t.mxcsr)) (exec (.vex128 1 (.reg 2)) (m false)) =
      some (0x3F8000007FC00000#512, 0x1F80#32) ∧
    shows (fun t => (t.readVec 1, t.mxcsr)) (exec (.vex128 1 (.reg 2)) (m true)) =
      some (0x3F8000007FC00000#512, 0x1F81#32) := by decide +kernel

/-! ### Execution, one instruction each -/

/-- V2: source bits above 63 are ignored, the destination's upper bits cleared. -/
theorem test_vex128_register :
    shows (fun t => (t.readVec 1, t.mxcsr, t.pc))
      (exec (.vex128 1 (.reg 2))
        (setV 2 (halves4 ||| (-1#512 <<< 64)) (setV 1 (-1#512) base))) =
      some (singles4, 0x1F80#32, 0x1005#64) := by decide +kernel

/-- V7 and V8: a signaling NaN, masked and not. -/
theorem test_vex128_invalid :
    shows (fun t => (t.readVec 1, t.mxcsr, t.pc))
      (exec (.vex128 1 (.reg 2)) (setV 2 0x3C003C003C007C01#512 base)) =
      some (0x3F8000003F8000003F800000_7FC02000#512, 0x1F81#32, 0x1005#64) ∧
    faults (fun t => (t.readVec 1, t.mxcsr, t.pc))
      (exec (.vex128 1 (.reg 2))
        { setV 2 0x3C003C003C007C01#512 (setV 1 0x1234#512 base) with mxcsr := 0x1F00 }) =
      some (.xm, 0x1000#64, 0x1234#512, 0x1F01#32, 0x1000#64) := by decide +kernel

/-- P2: RIP-relative and unaligned, with every class of element. -/
theorem test_vex256_memory :
    shows (fun t => (t.readVec 0, t.mxcsr, t.pc))
      (exec (.vex256 0 (.mem (.dispOnly 0x10)))
        (setMem 0x1019 [0x55, 0x35, 0x00, 0xBC, 0x01, 0x00, 0xFF, 0x7B, 0x00, 0x80, 0x00, 0x7C,
          0x00, 0xFE, 0x40, 0x56] base)) =
      some (0x42C80000FFC000007F80000080000000_477FE00033800000BF8000003EAAA000#512, 0x1F80#32,
        0x1009#64) := by decide +kernel

/-- V33: a read that runs past the admitted range. -/
theorem test_vex256_memory_fault :
    faults (fun t => (t.readVec 0, t.mxcsr, t.pc))
      (exec (.vex256 0 (.mem (.sibNoBase 4 0 0x2FF8)))
        { base with readable := [⟨0x2000, 0x1000⟩] }) =
      some (.memFault 0x2FF8 16, 0x1000#64, 0#512, 0x1F80#32, 0x1000#64) := by decide +kernel

/-- V16 and V17: merging and zeroing. -/
theorem test_evex128_masked :
    let s := setK 1 5 (setV 2 halves4
      (setV 1 0xEEEEEEEEDDDDDDDDCCCCCCCCBBBBBBBBAAAAAAAA#512 base))
    shows (fun t => (t.readVec 1, t.readK 1, t.pc)) (exec (.evex128 1 (.reg 2) 1 false) s) =
      some (0xDDDDDDDD40400000BBBBBBBB_3F800000#512, 5#64, 0x1006#64) ∧
    shows (fun t => t.readVec 1) (exec (.evex128 1 (.reg 2) 1 true) s) =
      some 0x0000000040400000000000003F800000#512 := by decide +kernel

/-- V20 and V21: a signaling NaN masked off, and selected. -/
theorem test_evex128_masked_nan :
    let s := { setV 2 0x3C003C007C013C00#512 base with mxcsr := 0x1F00 }
    shows (fun t => (t.readVec 1, t.mxcsr)) (exec (.evex128 1 (.reg 2) 1 true) (setK 1 13 s)) =
      some (0x3F8000003F800000000000003F800000#512, 0x1F00#32) ∧
    faults (fun t => (t.readVec 1, t.mxcsr)) (exec (.evex128 1 (.reg 2) 1 true) (setK 1 2 s)) =
      some (.xm, 0x1000#64, 0#512, 0x1F01#32) := by decide +kernel

/-- P5: merging from memory with a compressed displacement. -/
theorem test_evex256_memory :
    let s := setK 1 15 (setMem 0x2000 [0x00, 0x3C, 0x00, 0x40, 0x00, 0x42, 0x00, 0x44, 0x01,
      0x7C, 0x01, 0x7C, 0x01, 0x7C, 0x01, 0x7C] (setV 1
      (0x8888888877777777666666665555555544444444333333332222222211111111#512 |||
        (-1#512 <<< 256)) base))
    shows (fun t => (t.readVec 1, t.mxcsr, t.pc))
      (exec (.evex256 1 (.mem (.base 0 (.d8 0xFF))) 1 false)
        { s with gpr := s.gpr.set 0 0x2010, mxcsr := 0x1F00, readable := [⟨0x2000, 16⟩] }) =
      some (0x88888888777777776666666655555555_408000004040000040000000_3F800000#512, 0x1F00#32,
        0x1007#64) := by decide +kernel

/-- V34: the same inaccessible bytes without and with fault suppression. -/
theorem test_evex256_suppression :
    let s := setK 1 15 (setMem 0x2FF8 [0x00, 0x3C, 0x00, 0x40, 0x00, 0x42, 0x00, 0x44]
      { base with readable := [⟨0x2000, 0x1000⟩] })
    let i := Instr.evex256 1 (.mem (.sibNoBase 4 0 0x2FF8)) 1 true
    (faults (fun t => t.pc) (exec i s)).map Prod.fst = some (.memFault 0x2FF8 16) ∧
    shows (fun t => t.readVec 1)
      (exec i { s with cfg := { s.cfg with evexFaultSuppression := true } }) =
      some singles4 := by decide +kernel

/-- V23 and V28: sixteen elements, also from the destination itself. -/
theorem test_evex512 :
    shows (fun t => (t.readVec 1, t.pc)) (exec (.evex512 1 (.reg 2) 0 false) (setV 2 halves16 base)) =
      some (singles16, 0x1006#64) ∧
    shows (fun t => t.readVec 4)
      (exec (.evex512 4 (.reg 4) 0 false) (setV 4 (halves16 ||| (-1#512 <<< 256)) base)) =
      some singles16 := by decide +kernel

/-- V25: merging over all sixteen elements. -/
theorem test_evex512_merging :
    shows (fun t => t.readVec 1)
      (exec (.evex512 1 (.reg 2) 2 false) (setK 2 0xAAAA (setV 2 halves16 (setV 1
        (pack 512 (fun j => 0x0D0D0D00#32 + BitVec.ofNat 32 j) 16) base)))) =
      some 0x418000000D0D0D0E416000000D0D0D0C414000000D0D0D0A412000000D0D0D08_410000000D0D0D0640C000000D0D0D04408000000D0D0D02400000000D0D0D00#512 := by
  decide +kernel

/-- V26 and V27: `{sae}` and the same data without it. -/
theorem test_evex512_sae :
    let s := { setV 2 0x7C01#512 (setV 1 5#512 base) with mxcsr := 0x1F00 }
    shows (fun t => (t.readVec 1, t.mxcsr, t.pc)) (exec (.evex512Sae 1 2 0 false) s) =
      some (0x7FC02000#512, 0x1F00#32, 0x1006#64) ∧
    faults (fun t => (t.readVec 1, t.mxcsr)) (exec (.evex512 1 (.reg 2) 0 false) s) =
      some (.xm, 0x1000#64, 5#512, 0x1F01#32) := by decide +kernel

/-- V31 and V32: the source is read before the destination is written. -/
theorem test_vex_in_place :
    shows (fun t => t.readVec 3)
      (exec (.vex128 3 (.reg 3)) (setV 3 0x11112222333344444400420040003C00#512 base)) =
      some singles4 ∧
    shows (fun t => t.readVec 5) (exec (.vex256 5 (.reg 5)) (setV 5 halves8 base)) =
      some singles8 := by decide +kernel

/-- V35 to V38: availability before `TS`. -/
theorem test_availability :
    let noF16c := { base with cfg := { base.cfg with hasF16c := false } }
    let noVl := { base with cfg := { base.cfg with hasAvx512vl := false } }
    (faults (fun t => t.pc) (exec (.vex128 1 (.reg 2)) noF16c)).map Prod.fst = some .ud ∧
    (faults (fun t => t.pc) (exec (.evex256 1 (.reg 2) 0 false) noVl)).map Prod.fst = some .ud ∧
    shows (fun t => t.pc) (exec (.evex512 1 (.reg 2) 0 false) noVl) = some 0x1006#64 ∧
    (faults (fun t => t.pc) (exec (.vex128 1 (.reg 2))
      { base with cr0 := base.cr0 ||| 8 })).map Prod.fst = some .nm ∧
    (faults (fun t => t.pc) (exec (.vex128 1 (.reg 2))
      { noF16c with cr0 := base.cr0 ||| 8 })).map Prod.fst = some .ud := by decide +kernel

/-- P6: the same operand in the two modes. -/
theorem test_disp_only_modes :
    effectiveAddress base .vex128 9 (.dispOnly 0x2000) = 0x3009#64 ∧
    effectiveAddress base32 .vex128 9 (.dispOnly 0x2000) = 0x2000#64 := by decide +kernel

/-- Memory: a byte written and removed (canonical form), by hand from its definition. -/
theorem test_memory_write :
    Memory.write (Memory.write [] 7 1) 3 2 = [(3, 2), (7, 1)] ∧
    Memory.write [(3, 2), (7, 1)] 3 0 = [(7, 1)] := by decide +kernel

/-! ### Witnesses: states and operands that meet the hypotheses of the statements -/

/-- The small machine in a mode, with a program at `pc`. -/
def at' (m : Mode) (bs : List Byte) : State := ({ base with mode := m } : State).loadText bs

/-- Nothing stands between a step and decoding, and the bytes are those given. -/
abbrev ready (s : State) (bs : List Byte) : Prop :=
  s.faultRecord = none ∧ s.fetch = bs

/-- A fault exists where one is shown. -/
theorem fault_of_shows {o : Host.Outcome State Fault Refusal} {e : Exception} {pc : Addr}
    (h : faults (fun _ => 0) o = some (e, pc, 0)) : ∃ t, o = .fault (.raised e pc t) := by
  cases o with
  | next _ => cases h
  | fault r =>
    obtain ⟨e', pc', t⟩ := r
    simp only [faults, Option.some.injEq, Prod.mk.injEq] at h
    exact ⟨t, by rw [h.1, h.2.1]⟩
  | refused _ => cases h

theorem witness_DecodeOfEncode :
    Instr.wf .m64 (.vex128 15 (.mem (.sib 15 15 3 (.d32 0xFFFFFFFF)))) = true ∧
    Instr.wf .m64 (.vex256 0 (.reg 15)) = true ∧
    Instr.wf .m64 (.evex128 31 (.reg 31) 7 true) = true ∧
    Instr.wf .m64 (.evex256 16 (.mem (.base 13 (.d8 0x80))) 0 false) = true ∧
    Instr.wf .m64 (.evex512 8 (.mem (.sibNoBase 4 0 0)) 1 false) = true ∧
    Instr.wf .m64 (.evex512Sae 31 31 7 true) = true ∧
    Instr.wf .m32 (.evex512 7 (.mem (.dispOnly 0)) 0 false) = true := by decide +kernel

theorem witness_DecodedIsWellFormedAndFits :
    decode .m64 [0x62, 0xF2, 0x7D, 0x48, 0x13, 0x84, 0xC8, 0x00, 0x01, 0x00, 0x00] =
      .instr (.evex512 0 (.mem (.sib 0 1 3 (.d32 0x100))) 0 false) ∧
    decode .m32 [0xC4, 0xE2, 0x79, 0x13, 0xCA] = .instr (.vex128 1 (.reg 2)) := by decide +kernel

theorem witness_DecodedLengthIsTable :
    decode .m64 (0xC4#8 :: 0xE2#8 :: 0x79#8 :: 0x13#8 :: 0x05#8 :: [0x10, 0x00, 0x00, 0x00]) =
      .instr (.vex128 0 (.mem (.dispOnly 0x10))) ∧
    decode .m64 (0x62#8 :: 0xF2#8 :: 0x7D#8 :: 0x48#8 :: 0x13#8 :: 0x84#8 ::
      [0xC8, 0x00, 0x01, 0x00, 0x00]) =
      .instr (.evex512 0 (.mem (.sib 0 1 3 (.d32 0x100))) 0 false) := by decide +kernel

/-- A whole instruction and a string too short for one. -/
theorem witness_DecodingIgnoresWhatFollows :
    decode .m64 [0xC4, 0xE2, 0x79, 0x13, 0xCA] = .instr (.vex128 1 (.reg 2)) ∧
    decode .m64 [0x62, 0xF6] = .ud := by decide +kernel

/-- For each of the six clauses the shortest string, which in 32-bit mode has its two top
bits set, and the fields it names. -/
theorem witness_ShortStringsAreDecided :
    bits 0xE1#8 0 5 ≠ 2#5 ∧
    (bits 0x7A#8 0 2 ≠ 1#2 ∧ bits 0xE2#8 6 2 = 3#2 ∧ bits 0xE2#8 0 5 = 2#5) ∧
    (∀ v2 ∈ [0xF9#8, 0x71#8], bits 0xE2#8 5 3 = 7#3 ∧ bits 0xE2#8 0 5 = 2#5 ∧
      bits v2 0 2 = 1#2 ∧ (v2.getLsbD 7 = true ∨ bits v2 3 4 ≠ 15#4)) ∧
    (bits 0xF6#8 6 2 = 3#2 ∧ bits 0xF6#8 2 2 ≠ 0#2) ∧
    (bits 0xF2#8 6 2 = 3#2 ∧ (0x79#8).getLsbD 2 = false) ∧
    ([(0xF1#8, 0x7D#8), (0xF2#8, 0x7E#8)].all fun (p0, p1) =>
      bits p0 6 2 = 3#2 ∧ bits p0 2 2 = 0#2 ∧ p1.getLsbD 2 = true ∧
      (bits p0 0 2 ≠ 2#2 ∨ bits p1 0 2 ≠ 1#2)) := by decide +kernel

theorem witness_VexRegisterNumbers :
    ∀ v1 ∈ [0x02#8, 0xE2#8], ∀ v2 ∈ [0x79#8, 0x7D#8], ∀ modrm ∈ [0xC0#8, 0xFF#8],
      bits v1 0 5 = 2#5 ∧ v2 &&& 0xFB#8 = 0x79#8 ∧ bits modrm 6 2 = 3#2 := by decide +kernel

theorem witness_EvexRegisterNumbers :
    ∀ p0 ∈ [0x02#8, 0xF2#8], ∀ p2 ∈ [0x08#8, 0x28#8, 0xCF#8], ∀ modrm ∈ [0xC0#8, 0xFF#8],
      bits p0 0 4 = 2#4 ∧ bits p2 3 2 = 1#2 ∧ bits p2 5 2 ≠ 3#2 ∧
      (p2.getLsbD 7 = true → bits p2 0 3 ≠ 0#3) ∧ bits modrm 6 2 = 3#2 := by decide +kernel

/-- `W = 1` and `vvvv = 1110b`, `0111b`, in both modes, and with nothing after the opcode
byte. -/
theorem witness_ReservedVvvvAndVexWRaiseUD :
    ([Mode.m64, .m32].all fun m => [0xF9#8, 0x71#8, 0x39#8].all fun v2 =>
      ready (at' m [0xC4, 0xE2, v2, 0x13, 0xCA]) (0xC4#8 :: 0xE2#8 :: v2 :: 0x13#8 :: 0xCA#8 :: []) ∧
      ((at' m []).mode = .m32 → bits 0xE2#8 5 3 = 7#3) ∧ bits 0xE2#8 0 5 = 2#5 ∧
      bits v2 0 2 = 1#2 ∧ (v2.getLsbD 7 = true ∨ bits v2 3 4 ≠ 15#4) ∧
      ready (at' m [0xC4, 0xE2, v2, 0x13]) (0xC4#8 :: 0xE2#8 :: v2 :: 0x13#8 :: [])) ∧
    ([Mode.m64, .m32].all fun m => [0x75#8, 0x3D#8].all fun p1 =>
      ready (at' m [0x62, 0xF2, p1, 0x48, 0x13, 0xCA])
        (0x62#8 :: 0xF2#8 :: p1 :: 0x48#8 :: 0x13#8 :: 0xCA#8 :: []) ∧
      ((at' m []).mode = .m32 → bits 0xF2#8 4 4 = 15#4 ∧ (0x48#8).getLsbD 3 = true) ∧
      bits 0xF2#8 0 2 = 2#2 ∧ bits p1 0 2 = 1#2 ∧ bits p1 3 4 ≠ 15#4) := by decide +kernel

/-- One encoding for each alternative of each clause. -/
theorem witness_ReservedEvexFieldsRaiseUD :
    ([(0xF2#8, 0xFD#8, 0x48#8), (0xF2#8, 0x7D#8, 0x68#8), (0xF6#8, 0x7D#8, 0x48#8),
        (0xF2#8, 0x79#8, 0x48#8), (0xF2#8, 0x7D#8, 0x40#8)].all fun (p0, p1, p2) =>
      ready (at' .m64 [0x62, p0, p1, p2, 0x13, 0xCA])
        (0x62#8 :: p0 :: p1 :: p2 :: 0x13#8 :: 0xCA#8 :: []) ∧
      ((at' .m64 []).mode = .m32 → bits p0 4 4 = 15#4 ∧ p2.getLsbD 3 = true) ∧
      bits p0 0 2 = 2#2 ∧ bits p1 0 2 = 1#2 ∧
      (p1.getLsbD 7 = true ∨ (bits p2 5 2 = 3#2 ∧ p2.getLsbD 4 = false) ∨
        bits p0 2 2 ≠ 0#2 ∨ p1.getLsbD 2 = false ∨ p2.getLsbD 3 = false)) ∧
    ([(0xE1#8, 0x79#8, 0x13#8), (0xE2#8, 0x7A#8, 0x13#8), (0xE2#8, 0x79#8, 0x14#8)].all
      fun (v1, v2, op) =>
      ready (at' .m64 [0xC4, v1, v2, op, 0xCA]) (0xC4#8 :: v1 :: v2 :: op :: 0xCA#8 :: []) ∧
      (bits v1 0 5 ≠ 2#5 ∨ bits v2 0 2 ≠ 1#2 ∨ op ≠ 0x13#8)) ∧
    ([(0xF1#8, 0x7D#8, 0x13#8), (0xF2#8, 0x7E#8, 0x13#8), (0xF2#8, 0x7D#8, 0x14#8)].all
      fun (p0, p1, op) =>
      ready (at' .m64 [0x62, p0, p1, 0x48, op, 0xCA])
        (0x62#8 :: p0 :: p1 :: 0x48#8 :: op :: 0xCA#8 :: []) ∧
      bits p0 2 2 = 0#2 ∧ p1.getLsbD 2 = true ∧
      (bits p0 0 2 ≠ 2#2 ∨ bits p1 0 2 ≠ 1#2 ∨ op ≠ 0x13#8)) := by decide +kernel

/-- For each of the six clauses, a `P2` and a ModRM byte; the fields they share; and a
register form and a memory form that hold all their bytes, in both modes. -/
theorem witness_EvexBBitTable :
    (∀ p2 ∈ [0x08#8, 0x28#8, 0x48#8, 0x58#8, 0x18#8, 0x38#8, 0x78#8],
      bits 0xF2#8 4 4 = 15#4 ∧ bits 0xF2#8 0 4 = 2#4 ∧ p2.getLsbD 3 = true ∧
      (p2.getLsbD 7 = true → bits p2 0 3 ≠ 0#3)) ∧
    (tailLength 0xC0#8 (([] : List Byte).headD 0#8) ≤ ([] : List Byte).length) ∧
    (tailLength 0x80#8 ([0x04#8, 0, 0, 0].headD 0#8) ≤ [0x04#8, 0, 0, 0].length) ∧
    ((0x08#8).getLsbD 4 = false ∧ bits 0x08#8 5 2 = 0#2) ∧
    ((0x28#8).getLsbD 4 = false ∧ bits 0x28#8 5 2 = 1#2) ∧
    ((0x48#8).getLsbD 4 = false ∧ bits 0x48#8 5 2 = 2#2) ∧
    ((0x58#8).getLsbD 4 = true ∧ bits 0xC0#8 6 2 = 3#2 ∧ bits 0x58#8 5 2 = 2#2) ∧
    (∀ p2 ∈ [0x18#8, 0x38#8, 0x78#8],
      p2.getLsbD 4 = true ∧ bits 0xC0#8 6 2 = 3#2 ∧ bits p2 5 2 ≠ 2#2) ∧
    ((0x58#8).getLsbD 4 = true ∧ bits 0x80#8 6 2 ≠ 3#2) := by decide +kernel

theorem witness_ZeroingWithoutMaskRaisesUD :
    [Mode.m64, .m32].all fun m =>
      ready (at' m [0x62, 0xF2, 0x7D, 0x88, 0x13, 0xCA])
        (0x62#8 :: 0xF2#8 :: 0x7D#8 :: 0x88#8 :: 0x13#8 :: 0xCA#8 :: []) ∧
      ((at' m []).mode = .m32 → bits 0xF2#8 4 4 = 15#4 ∧ (0x88#8).getLsbD 3 = true) ∧
      bits 0xF2#8 0 2 = 2#2 ∧ bits 0x7D#8 0 2 = 1#2 ∧ (0x88#8).getLsbD 7 = true ∧
      bits 0x88#8 0 3 = 0#3 := by decide +kernel

/-- Each prefix, `REX` at both ends of its range, before an instruction and before `UD`. -/
theorem witness_LegacyPrefixesRaiseUDOrRefuse :
    ([0xF0#8, 0x66#8, 0xF2#8, 0xF3#8, 0x40#8, 0x4F#8].all fun b =>
      ready (at' .m64 [b, 0xC4, 0xE2, 0x79, 0x13, 0xCA]) (b :: [0xC4, 0xE2, 0x79, 0x13, 0xCA]) ∧
      (b ∈ [0xF0#8, 0x66#8, 0xF2#8, 0xF3#8] ∨
        ((at' .m64 []).mode = .m64 ∧ 0x40#8 ≤ b ∧ b ≤ 0x4F#8)) ∧
      decode .m64 [0xC4, 0xE2, 0x79, 0x13, 0xCA] = .instr (.vex128 1 (.reg 2))) ∧
    decode .m64 [0x66, 0xC4, 0xE2, 0x79, 0x13, 0xCA] = .ud ∧
    ([0x26#8, 0x67#8].all fun b =>
      ready (at' .m64 [b, 0xC4, 0xE2, 0x79, 0x13, 0x00]) (b :: [0xC4, 0xE2, 0x79, 0x13, 0x00]) ∧
      b ∈ [0x26#8, 0x2E#8, 0x36#8, 0x3E#8, 0x64#8, 0x65#8, 0x67#8]) := by decide +kernel

theorem witness_OtherFirstByteRefused :
    (0xC5#8 ≠ 0xC4#8 ∧ 0xC5#8 ≠ 0x62#8 ∧ isUdPrefix .m64 0xC5 = false ∧
      isRefusedPrefix 0xC5 = false) ∧
    (0x48#8 ≠ 0xC4#8 ∧ 0x48#8 ≠ 0x62#8 ∧ isUdPrefix .m32 0x48 = false ∧
      isRefusedPrefix 0x48 = false) := by decide +kernel

/-- The first four clauses at E29, E30 and their EVEX counterparts, the last at register 7. -/
theorem witness_Mode32ExtensionBits :
    bits 0x62#8 6 2 ≠ 3#2 ∧ bits 0xA2#8 6 2 ≠ 3#2 ∧
    (bits 0xC2#8 6 2 = 3#2 ∧ (0xC2#8).getLsbD 5 = false ∧ bits 0xC2#8 0 5 = 2#5 ∧
      bits 0x79#8 0 2 = 1#2) ∧
    ([(0xD2#8, 0x48#8), (0xE2#8, 0x48#8), (0xF2#8, 0x40#8)].all fun (p0, p2) =>
      bits p0 6 2 = 3#2 ∧ bits p0 0 4 = 2#4 ∧ (0x7D#8).getLsbD 2 = true ∧
      bits 0x7D#8 0 2 = 1#2 ∧
      (p0.getLsbD 5 = false ∨ p0.getLsbD 4 = false ∨ p2.getLsbD 3 = false)) ∧
    decode .m32 [0x62, 0xF2, 0x7D, 0x48, 0x13, 0xFF] = .instr (.evex512 7 (.reg 7) 0 false) := by
  decide +kernel

theorem witness_StepRunsDecodedInstruction :
    let s := at' .m64 [0xC4, 0xE2, 0x79, 0x13, 0xCA]
    s.faultRecord = none ∧ decode s.mode s.fetch = .instr (.vex128 1 (.reg 2)) := by
  decide +kernel

theorem witness_StepRunsEncodedInstruction :
    let i := Instr.vex256 0 (.mem (.dispOnly 0x10))
    [Mode.m64, .m32].all fun m =>
      (at' m (encode i ++ [0xC4, 0xE2])).faultRecord = none ∧ i.wf (at' m []).mode = true ∧
      (at' m (encode i ++ [0xC4, 0xE2])).fetch = encode i ++ [0xC4, 0xE2] := by
  decide +kernel

/-- Five bytes below the top of the address space of a mode. -/
def top (m : Mode) : State :=
  { base with mode := m, pc := BitVec.ofNat 64 (addrSpace m - 5) }

/-- A text that ends at the top of either address space, and one that runs over it. -/
theorem witness_LoadedTextIsFetched :
    [Mode.m64, .m32].all fun m =>
      (top m).mem.wf ∧ (top m).ip.toNat + 5 = addrSpace (top m).mode ∧
      5 < addrSpace (top m).mode ∧ 15 < addrSpace (top m).mode := by decide +kernel

theorem witness_PlacedWordRunsNext :
    decodeTableWord 40 0x00137902C4 = some (.vex128 8 (.mem (.base 8 .none))) ∧
    State.reset.mem.wf ∧ (top .m64).mem.wf := by decide +kernel

/-- A machine without F16C, whose first instruction raises `#UD`. -/
def noF16c : State :=
  let s := at' .m64 [0xC4, 0xE2, 0x79, 0x13, 0xCA]
  { s with cfg := { s.cfg with hasF16c := false } }

theorem witness_FaultedStepStaysFaulted :
    noF16c.faultRecord = none ∧ ∃ t, step noF16c = .fault (.raised .ud 0x1000 t) :=
  ⟨rfl, fault_of_shows (by decide +kernel)⟩

/-- A next state that has no fault recorded and stands at the end of its text is the end of
a run. -/
theorem finished_of_shows {o : Host.Outcome State Fault Refusal}
    (h : shows (fun t => (t.faultRecord, t.ip == t.textStop)) o = some (none, true)) :
    ∃ t, o = .next t ∧ t.finished := by
  cases o with
  | next t =>
    simp only [shows, Option.some.injEq, Prod.mk.injEq, beq_iff_eq] at h
    exact ⟨t, rfl, h⟩
  | fault _ => cases h
  | refused _ => cases h

theorem witness_RunEndsAtEndOfText :
    ∃ t, step (at' .m64 [0xC4, 0xE2, 0x79, 0x13, 0xCA]) = .next t ∧ t.finished ∧ endsIn t t :=
  have ⟨t, ht, hf⟩ := finished_of_shows (o := step (at' .m64 [0xC4, 0xE2, 0x79, 0x13, 0xCA]))
    (by decide +kernel)
  ⟨t, ht, hf, 0, rfl, hf⟩

/-- The one instruction of a text that ends at the top of the address space of either mode. -/
theorem witness_LastInstructionEndsRun :
    let i := Instr.vex128 1 (.reg 2)
    ∀ m ∈ [Mode.m64, .m32],
      ((top m).loadText (encode i)).faultRecord = none ∧ i.wf (top m).mode = true ∧
      ((top m).loadText (encode i)).fetch = encode i ∧
      ∃ t, step ((top m).loadText (encode i)) = .next t := by
  intro i m hm
  refine ⟨rfl, ?_, ?_, next_of_shows ?_⟩ <;>
  · revert m
    decide +kernel

/-- By hand from spec/10_state.md R15: `pc` comes round to 0 there, also in the middle of a
text that runs over the top, whose second instruction then stands at 0. -/
theorem test_text_at_the_top :
    ∀ m ∈ [Mode.m64, .m32],
      (shows (fun t => (t.pc, t.textEnd)) (step ((top m).loadText [0xC4, 0xE2, 0x79, 0x13, 0xCA])) =
        some (0#64, 0#64)) ∧
      shows (fun t => (t.pc, t.fetch))
        (step ((top m).loadText [0xC4, 0xE2, 0x79, 0x13, 0xCA, 0xC4, 0xE2, 0x7D])) =
        some (0#64, [0xC4, 0xE2, 0x7D]) := by decide +kernel

/-- The ends of the ranges of each clause. -/
theorem witness_MemoryReadIsLittleEndian :
    (32 ≤ 32 ∧ 255 < 8 * 32 ∧ 0 < 8 * 8) ∧
    (0 < Form.vex128.kl ∧ 15 < Form.evex512.kl) ∧
    (0 < base.textLeft ∧ 15 < base.textLeft) ∧
    (7 < ((top .m32).loadText (List.replicate 8 0)).textLeft) ∧
    takeDisp32 [0x10, 0x32, 0x54, 0x76, 0x98] = some 0x76543210#32 ∧ 31 < 32 := by
  decide +kernel

/-- Parameters without differences, and with one. -/
theorem witness_ConversionIsParameter :
    State.reset.cfg.cvtDiff = [] ∧
    ({ State.reset.cfg with cvtDiff := [(0x7E01, 0x7FC00000, false)] } : Params).cvtDiff ≠ [] :=
  by decide

/-- The ends of each class. -/
theorem witness_ConversionTable :
    ([0x0000#16, 0x8000].all fun h => (halfExp h).toNat = 0 ∧ (halfFrac h).toNat = 0) ∧
    ([(0x0001#16, 0), (0x01FF, 8), (0x0200, 9), (0x83FF, 9)].all fun (h, p) =>
      (halfExp h).toNat = 0 ∧ 2 ^ p ≤ (halfFrac h).toNat ∧ (halfFrac h).toNat < 2 ^ (p + 1)) ∧
    ([0x0400#16, 0x7BFF, 0xFBFF].all fun h => 1 ≤ (halfExp h).toNat ∧ (halfExp h).toNat ≤ 30) ∧
    ([0x7C00#16, 0xFC00].all fun h => (halfExp h).toNat = 31 ∧ (halfFrac h).toNat = 0) ∧
    ([0x7E00#16, 0xFFFF].all fun h => (halfExp h).toNat = 31 ∧ 512 ≤ (halfFrac h).toNat) ∧
    ([0x7C01#16, 0xFDFF].all fun h => (halfExp h).toNat = 31 ∧ 0 < (halfFrac h).toNat ∧
      (halfFrac h).toNat < 512) ∧
    ([0x0000#16, 0x0001, 0xFBFF].all fun h => (halfExp h).toNat ≠ 31) := by decide +kernel

theorem witness_ConversionSignAndRange : (cvtH2s 0x8000).1.extractLsb' 23 8 = 0#8 := by
  decide +kernel

/-- A state whose register 2 and memory at `2000h` hold a signaling NaN in element 0. -/
def nanState : State := setMem 0x2000 [0x01, 0x7C] (setV 2 0x7C01#512 base)

theorem witness_Vex128Converts :
    (∀ src ∈ [VexSrc.reg 2, .mem (.sibNoBase 4 0 0x2000)],
      reachesConversion nanState (instOf (.vex128 1 src) nanState) ∧
      invalidQuiet nanState (instOf (.vex128 1 src) nanState) ∧
      (nanState.cfg.cvt (halfAt nanState (instOf (.vex128 1 src) nanState).src 0)).2 = true) ∧
    (∀ j < 4, (base.cfg.cvt (halfAt base (instOf (.vex128 1 (.reg 2)) base).src j)).2 = false) := by
  refine ⟨fun src hs => ⟨?_, .inr (.inl rfl), ?_⟩, by decide +kernel⟩
  · revert src
    unfold reachesConversion
    decide +kernel
  · revert src
    decide +kernel

theorem witness_Vex256Converts :
    (∀ src ∈ [VexSrc.reg 2, .mem (.sibNoBase 4 0 0x2000)],
      reachesConversion nanState (instOf (.vex256 1 src) nanState) ∧
      invalidQuiet nanState (instOf (.vex256 1 src) nanState) ∧
      (nanState.cfg.cvt (halfAt nanState (instOf (.vex256 1 src) nanState).src 0)).2 = true) ∧
    (∀ j < 8, (base.cfg.cvt (halfAt base (instOf (.vex256 1 (.reg 2)) base).src j)).2 = false) := by
  refine ⟨fun src hs => ⟨?_, .inr (.inl rfl), ?_⟩, by decide +kernel⟩
  · revert src
    unfold reachesConversion
    decide +kernel
  · revert src
    decide +kernel

/-- With mask `k1 = 1`: element 0 is selected and a signaling NaN, element 1 is not selected. -/
def maskState : State := setK 1 1 nanState

theorem selected_maskState : selected maskState 1 0 ∧ ¬ selected maskState 1 1 := by
  unfold selected
  decide +kernel

theorem invalid_maskState (f : Form) (z : Bool) :
    invalidArises maskState (evexInst f false 1 (.reg 2) 1 z maskState).src 1 f.kl :=
  ⟨0, by cases f <;> decide, selected_maskState.1,
    by show (maskState.cfg.cvt (halfAt maskState (.reg 2) 0)).2 = true; decide +kernel⟩

theorem quiet_base (f : Form) (z : Bool) :
    ¬ invalidArises base (evexInst f false 1 (.reg 2) 1 z base).src 1 f.kl := by
  rintro ⟨j, hj, hs, -⟩
  unfold selected at hs
  have : base.readK 1 = 0#64 := by decide +kernel
  rw [this] at hs
  simp at hs

theorem witness_Evex128Converts :
    (∀ src ∈ [EvexSrc.reg 2, .mem (.sibNoBase 4 0 0x2000)], ∀ z ∈ [true, false],
      reachesConversion maskState (instOf (.evex128 1 src 1 z) maskState) ∧
      invalidQuiet maskState (instOf (.evex128 1 src 1 z) maskState)) ∧
    selected maskState 1 0 ∧ ¬ selected maskState 1 1 ∧
    invalidArises maskState (instOf (.evex128 1 (.reg 2) 1 true) maskState).src 1 4 ∧
    ¬ invalidArises base (instOf (.evex128 1 (.reg 2) 1 true) base).src 1 4 := by
  refine ⟨fun src hs z hz => ⟨?_, .inr (.inl rfl)⟩, selected_maskState.1, selected_maskState.2,
    invalid_maskState .evex128 true, quiet_base .evex128 true⟩
  revert src z
  unfold reachesConversion
  decide +kernel

theorem witness_Evex256Converts :
    (∀ src ∈ [EvexSrc.reg 2, .mem (.sibNoBase 4 0 0x2000)], ∀ z ∈ [true, false],
      reachesConversion maskState (instOf (.evex256 1 src 1 z) maskState) ∧
      invalidQuiet maskState (instOf (.evex256 1 src 1 z) maskState)) ∧
    selected maskState 1 0 ∧ ¬ selected maskState 1 1 ∧
    invalidArises maskState (instOf (.evex256 1 (.reg 2) 1 true) maskState).src 1 8 ∧
    ¬ invalidArises base (instOf (.evex256 1 (.reg 2) 1 true) base).src 1 8 := by
  refine ⟨fun src hs z hz => ⟨?_, .inr (.inl rfl)⟩, selected_maskState.1, selected_maskState.2,
    invalid_maskState .evex256 true, quiet_base .evex256 true⟩
  revert src z
  unfold reachesConversion
  decide +kernel

theorem witness_Evex512Converts :
    (∀ src ∈ [EvexSrc.reg 2, .mem (.sibNoBase 4 0 0x2000)], ∀ z ∈ [true, false],
      reachesConversion maskState (instOf (.evex512 1 src 1 z) maskState) ∧
      invalidQuiet maskState (instOf (.evex512 1 src 1 z) maskState)) ∧
    selected maskState 1 0 ∧ ¬ selected maskState 1 1 ∧
    invalidArises maskState (instOf (.evex512 1 (.reg 2) 1 true) maskState).src 1 16 ∧
    ¬ invalidArises base (instOf (.evex512 1 (.reg 2) 1 true) base).src 1 16 := by
  refine ⟨fun src hs z hz => ⟨?_, .inr (.inl rfl)⟩, selected_maskState.1, selected_maskState.2,
    invalid_maskState .evex512 true, quiet_base .evex512 true⟩
  revert src z
  unfold reachesConversion
  decide +kernel

theorem witness_Evex512SaeConverts :
    maskState.available .evex512 = true ∧ maskState.ts = false ∧
    selected maskState 1 0 ∧ ¬ selected maskState 1 1 ∧
    ∃ u, exec (.evex512 1 (.reg 2) 1 true) maskState = .next u :=
  ⟨by decide +kernel, by decide +kernel, selected_maskState.1, selected_maskState.2,
    next_of_shows (by decide +kernel)⟩

/-- Each constructor completes somewhere: the hypothesis of CompletionFrame,
PcAdvancesByLength, UpperDestinationZeroed and NoInstructionIsRefused. -/
theorem witness_CompletionFrame :
    ∀ i ∈ [Instr.vex128 1 (.reg 2), .vex256 1 (.mem (.sibNoBase 4 0 0x2000)),
      .evex128 1 (.reg 2) 1 true, .evex256 1 (.mem (.base 0 .none)) 1 false,
      .evex512 31 (.reg 31) 0 false, .evex512Sae 1 2 1 true], ∃ t, exec i maskState = .next t := by
  intro i hi
  apply next_of_shows
  revert i
  decide +kernel

theorem witness_PcAdvancesByLength :
    (∃ t, exec (.vex128 1 (.reg 2)) { base32 with pc := 0xFFFFFFFB } = .next t) ∧
    ∃ t, exec (.vex128 1 (.reg 2)) noF16c = .fault (.raised .ud 0x1000 t) :=
  ⟨next_of_shows (by decide +kernel), fault_of_shows (by decide +kernel)⟩

theorem witness_UpperDestinationZeroed :
    (∃ t, exec (.evex128 1 (.reg 2) 1 false) maskState = .next t) ∧
    (instOf (.evex128 1 (.reg 2) 1 false) maskState).form.vl ≤ 128 ∧
    ∃ t, exec (.vex128 1 (.reg 2)) noF16c = .fault (.raised .ud 0x1000 t) :=
  ⟨next_of_shows (by decide +kernel), by decide +kernel, fault_of_shows (by decide +kernel)⟩

/-- The last line but two: mask bit 0 clear, so the signaling NaN in element 0 is masked off. -/
theorem witness_WritemaskGovernsElements :
    (∀ z ∈ [true, false], ∃ t, exec (.evex128 1 (.reg 2) 1 z) maskState = .next t) ∧
    selected maskState 1 0 ∧ ¬ selected maskState 1 1 ∧
    (reachesConversion (setK 1 0xE nanState)
        (instOf (.evex128 1 (.reg 2) 1 true) (setK 1 0xE nanState)) ∧
      (nanState.cfg.cvt (halfAt (setK 1 0xE nanState) (.reg 2) 0)).2 = true ∧
      ∀ j < 4, ¬ ((setK 1 0xE nanState).readK 1).getLsbD j = true ∨
        (nanState.cfg.cvt (halfAt (setK 1 0xE nanState) (.reg 2) j)).2 = false) ∧
    Form.vex128.isEvex = false ∧
    (∀ j < 4, (0xFFF1#64).getLsbD j = (maskState.readK 1).getLsbD j) := by
  refine ⟨fun z hz => ?_, selected_maskState.1, selected_maskState.2,
    ⟨by unfold reachesConversion; decide +kernel, by decide +kernel, by decide +kernel⟩, rfl,
    by decide +kernel⟩
  apply next_of_shows
  revert z
  decide +kernel

/-- Registers 2 and 3 hold the same value. -/
def twins : State := setV 3 halves16 (setV 2 halves16 base)

theorem witness_SourceIsSampledFirst :
    (twins.readVec 3 = twins.readVec 2 ∧
    ∀ d ∈ [2#5, 3#5], (∃ t, exec (.evex128 d (.reg 2) 0 false) twins = .next t) ∧
      (∃ t, exec (.evex256 d (.reg 2) 0 false) twins = .next t) ∧
      (∃ t, exec (.evex512 d (.reg 2) 0 false) twins = .next t) ∧
      ∃ t, exec (.evex512Sae d 2 0 false) twins = .next t) ∧
    twins.readVec ((3#4).setWidth 5) = twins.readVec ((2#4).setWidth 5) ∧
    ∀ d ∈ [2#4, 3#4], (∃ t, exec (.vex128 d (.reg 2)) twins = .next t) ∧
      ∃ t, exec (.vex256 d (.reg 2)) twins = .next t := by
  refine ⟨⟨by decide +kernel, fun d hd => ⟨?_, ?_, ?_, ?_⟩⟩, by decide +kernel,
    fun d hd => ⟨?_, ?_⟩⟩ <;>
  · apply next_of_shows
    revert d
    decide +kernel

/-- Two states that agree in lane 15 and differ in lane 0. -/
theorem witness_LanesAreIndependent :
    let s' := setV 2 (halves16 ^^^ 1#512) twins
    (∃ t, exec (.evex512 1 (.reg 2) 0 false) twins = .next t) ∧
    (∃ t, exec (.evex512 1 (.reg 2) 0 false) s' = .next t) ∧
    twins.cfg.cvtDiff = s'.cfg.cvtDiff ∧ 15 < Form.evex512.kl ∧ halfAt twins (.reg 2) 15 = halfAt s' (.reg 2) 15 ∧
    halfAt twins (.reg 2) 0 ≠ halfAt s' (.reg 2) 0 ∧
    (selected twins 0 15 ↔ selected s' 0 15) ∧
    lane (twins.readVec 1) 15 = lane (s'.readVec 1) 15 :=
  ⟨next_of_shows (by decide +kernel), next_of_shows (by decide +kernel), rfl, by decide +kernel,
    by decide +kernel, by decide +kernel, ⟨fun _ => .inl rfl, fun _ => .inl rfl⟩,
    by decide +kernel⟩

/-- `DAZ`, `FTZ`, `RC = 11b` and every other mask set or cleared (V10, V44). -/
theorem witness_MxcsrControlsIgnored :
    (∃ t, exec (.vex128 1 (.reg 2)) nanState = .next t) ∧
    (0xFFC0#32).getLsbD 7 = nanState.im ∧ (0x00BF#32).getLsbD 7 = nanState.im :=
  ⟨next_of_shows (by decide +kernel), by decide +kernel⟩

theorem witness_EflagsPlayNoPart :
    (∃ t, exec (.vex128 1 (.reg 2)) base = .next t) ∧
    (0x8D7#32).getLsbD 17 = base.vm ∧ (0x8D7#32).getLsbD 18 = base.acFlag :=
  ⟨next_of_shows (by decide +kernel), by decide +kernel⟩

theorem witness_PrivilegeLevelPlaysNoPart :
    base.cfg.evexReportsAc = false ∧ ∃ t, exec (.evex128 1 (.reg 2) 0 false) base = .next t :=
  ⟨rfl, next_of_shows (by decide +kernel)⟩

theorem witness_UpperSourceBitsIgnored :
    (∃ t, exec (.vex128 1 (.reg 2)) twins = .next t) ∧
    (instOf (.vex128 1 (.reg 2)) twins).src = .reg 2 ∧
    (2#5 : BitVec 5) ≠ (instOf (.vex128 1 (.reg 2)) twins).dst ∧
    (∀ b < 64, (halves16 ^^^ (-1#512 <<< 64)).getLsbD b = twins.vec[2].getLsbD b) :=
  ⟨next_of_shows (by decide +kernel), rfl, by decide +kernel, by decide +kernel⟩

theorem witness_VexAndEvexAgree :
    (∃ t, exec (.vex128 1 (.reg 2)) twins = .next t) ∧
    (∃ t, exec (.evex128 1 (.reg 2) 0 false) twins = .next t) ∧
    (∃ t, exec (.vex256 15 (.reg 2)) twins = .next t) ∧
    ∃ t, exec (.evex256 15 (.reg 2) 0 false) twins = .next t :=
  ⟨next_of_shows (by decide +kernel), next_of_shows (by decide +kernel),
    next_of_shows (by decide +kernel), next_of_shows (by decide +kernel)⟩

theorem witness_UnavailableFormRaisesUD :
    (∀ f ∈ [Form.vex128, .vex256, .evex128, .evex256, .evex512], base.available f = true ∧
      ({ base with xcr0 := 3 } : State).available f = false) ∧
    noF16c.available .vex128 = false := by decide +kernel

/-- The small machine with `CR0.TS = 1`. -/
def tsState : State := { base with cr0 := base.cr0 ||| 8 }

theorem witness_TaskSwitchedRaisesNM :
    tsState.available (instOf (.vex256 1 (.reg 2)) tsState).form = true ∧
    tsState.cr0.getLsbD 3 = true := by decide +kernel

/-- `2000h` to `2FFFh` readable only; the operand starts in it and ends outside. -/
def edgeState : State := { base with readable := [⟨0x2000, 0x1000⟩] }

theorem witness_InaccessibleOperandRaisesMemFault :
    let I := instOf (.vex256 0 (.mem (.sibNoBase 4 0 0x2FF1))) edgeState
    edgeState.available I.form = true ∧ edgeState.ts = false ∧
    edgeState.cfg.evexFaultSuppression = false ∧ I.src = .mem 0x2FF1 ∧
    edgeState.accessible 0x2FF1 (2 * I.form.kl) = false ∧
    edgeState.accessible 0x2FF0 (2 * I.form.kl) = true ∧
    (instOf (.vex128 1 (.reg 2)) edgeState).src = .reg 2 := by decide +kernel

/-- The second case of the same statement: fault suppression, and element 7 outside. -/
theorem witness_InaccessibleOperandRaisesMemFault_suppressed :
    let s := { edgeState with cfg := { edgeState.cfg with evexFaultSuppression := true } }
    let I := instOf (.evex256 0 (.mem (.sibNoBase 4 0 0x2FF1)) 0 false) s
    s.available I.form = true ∧ s.ts = false ∧ s.cfg.evexFaultSuppression = true ∧
    I.src = .mem 0x2FF1 ∧ 7 < I.form.kl ∧ selected s I.aaa 7 ∧
    s.accessible (0x2FF1 + 2 * 7) 2 = false :=
  ⟨by decide +kernel, by decide +kernel, rfl, by decide +kernel, by decide +kernel, .inl rfl,
    by decide +kernel⟩

theorem witness_FaultSuppressionByMask :
    let s := setK 1 15 edgeState
    let s' := { s with cfg := { s.cfg with evexFaultSuppression := true } }
    let i := Instr.evex256 1 (.mem (.sibNoBase 4 0 0x2FF8)) 1 true
    (instOf i s).src = .mem 0x2FF8 ∧ s.available (instOf i s).form = true ∧ s.ts = false ∧
    s.cfg.evexFaultSuppression = false ∧ s'.cfg.evexFaultSuppression = true ∧
    s.accessible 0x2FF8 16 = false ∧ (∃ t, exec i s' = .next t) ∧
    (∃ t, exec (.evex256 1 (.mem (.sibNoBase 4 0 0x2FF0)) 1 true) s = .next t) ∧
    ∃ t, exec (.evex256 1 (.mem (.sibNoBase 4 0 0x2FF0)) 1 true) s' = .next t := by
  refine ⟨rfl, by decide +kernel, by decide +kernel, rfl, rfl, by decide +kernel, ?_, ?_, ?_⟩ <;>
  · apply next_of_shows
    decide +kernel

/-- Alignment checking on, at privilege level 3, with the parameter set. -/
def acState : State :=
  { base with
    cfg := { base.cfg with evexReportsAc := true }
    cr0 := base.cr0 ||| 0x40000, eflags := 0x40002, cpl := 3 }

theorem witness_AlignmentCheckOnlyByParameter :
    let i := Instr.evex128 1 (.mem (.sibNoBase 4 0 0x2001)) 0 false
    (instOf i acState).src = .mem 0x2001 ∧ acState.available (instOf i acState).form = true ∧
    acState.ts = false ∧ memFaultOf acState (instOf i acState) = none ∧
    acDue acState (instOf i acState).form (instOf i acState).src = true ∧
    (Config.acOccurs acState.acTicks = true ∨ Config.acOccurs acState.acTicks = false) ∧
    invalidQuiet acState (instOf i acState) ∧
    (instOf (.vex128 1 (.mem (.sibNoBase 4 0 0x2001))) acState).form.isEvex = false ∧
    (∀ s ∈ [{ acState with cpl := 2 }, { acState with cr0 := base.cr0 },
        { acState with eflags := 2 }, base], acDue s .evex128 (.mem 0x2001) = false) ∧
    acDue acState .evex128 (.mem 0x2000) = false :=
  ⟨rfl, by decide +kernel, by decide +kernel, by decide +kernel, by decide +kernel,
    by cases Config.acOccurs acState.acTicks <;> simp, .inr (.inl rfl), rfl, by decide +kernel,
    by decide +kernel⟩

/-- A signaling NaN with `IM = 1`; with `IM = 0` and either `OSXMMEXCPT`; and none. -/
theorem witness_UnmaskedInvalidRaisesXM :
    let i := Instr.vex128 1 (.reg 2)
    (∀ s ∈ [nanState, { nanState with mxcsr := 0x1F00 },
        { nanState with mxcsr := 0x1F00, cr4 := 0x40000 }, base],
      reachesConversion s (instOf i s)) ∧ (instOf i nanState).sae = false ∧
    invalidArises nanState (.reg 2) 0 4 ∧ ¬ invalidArises base (.reg 2) 0 4 ∧
    nanState.mxcsr.getLsbD 7 = true ∧ (0x1F00#32).getLsbD 7 = false ∧
    nanState.cr4.getLsbD 10 = true ∧ (0x40000#64).getLsbD 10 = false := by
  refine ⟨?_, rfl, ⟨0, by decide, .inl rfl, by decide +kernel⟩, ?_, by decide +kernel⟩
  · unfold reachesConversion
    decide +kernel
  · rintro ⟨j, hj, -, hs⟩
    have : ∀ j < 4, (base.cfg.cvt (halfAt base (.reg 2) j)).2 = false := by decide +kernel
    rw [this j hj] at hs
    cases hs

theorem witness_FaultsArePrecise :
    (∃ t, exec (.vex128 1 (.reg 2)) noF16c = .fault (.raised .ud 0x1000 t)) ∧
    (∃ t, exec (.vex128 1 (.reg 2)) { nanState with mxcsr := 0x1F00 } =
      .fault (.raised .xm 0x1000 t)) ∧
    noF16c.faultRecord = none ∧ ∃ t, step noF16c = .fault (.raised .ud 0x1000 t) :=
  ⟨fault_of_shows (by decide +kernel), fault_of_shows (by decide +kernel), rfl,
    fault_of_shows (by decide +kernel)⟩

theorem witness_ExceptionPriority :
    (ready (at' .m64 [0xC4, 0xE2, 0xF9, 0x13, 0xCA]) [0xC4, 0xE2, 0xF9, 0x13, 0xCA] ∧
      decode .m64 [0xC4, 0xE2, 0xF9, 0x13, 0xCA] = .ud) ∧
    noF16c.available .vex128 = false ∧
    (tsState.available .vex128 = true ∧ tsState.ts = true) ∧
    (edgeState.available .vex256 = true ∧ edgeState.ts = false ∧
      memFaultOf edgeState (instOf (.vex256 0 (.mem (.sibNoBase 4 0 0x2FF8))) edgeState) =
        some (.memFault 0x2FF8 16)) ∧
    reachesConversion { nanState with mxcsr := 0x1F00 } (instOf (.vex128 1 (.reg 2)) nanState) ∧
    ¬ invalidQuiet { nanState with mxcsr := 0x1F00 } (instOf (.vex128 1 (.reg 2)) nanState) := by
  refine ⟨by decide +kernel, by decide +kernel, by decide +kernel, by decide +kernel, ?_, ?_⟩
  · unfold reachesConversion
    decide +kernel
  · rintro (h | h | h)
    · cases h
    · revert h
      decide +kernel
    · exact h ⟨0, by decide, .inl rfl, by decide +kernel⟩

/-- A state that meets the invariant and takes a step. -/
theorem witness_StepKeepsInvariant :
    Inv (at' .m64 [0xC4, 0xE2, 0x79, 0x13, 0xCA]) ∧
    ∃ t, step (at' .m64 [0xC4, 0xE2, 0x79, 0x13, 0xCA]) = .next t :=
  ⟨⟨by decide +kernel, by decide +kernel, by decide +kernel, by decide +kernel,
    by decide +kernel, by decide +kernel, by decide +kernel, rfl⟩,
    next_of_shows (by decide +kernel)⟩

/-- A step is a run of one step. -/
theorem run_one {s t : State} (h : step s = .next t) : Host.Core.run core 1 s = .next t := by
  have h' : core.step s = .next t := h
  simp [Host.Core.run, h']

theorem witness_RunsAreBounded :
    Inv (at' .m64 [0xC4, 0xE2, 0x79, 0x13, 0xCA]) ∧
    ∃ t, Host.Core.run core 1 (at' .m64 [0xC4, 0xE2, 0x79, 0x13, 0xCA]) = .next t :=
  witness_StepKeepsInvariant.2.elim fun t h => ⟨witness_StepKeepsInvariant.1, t, run_one h⟩

end Sys2Proof.Tests
end

/-! PROOF. Decoding what the encoder writes (spec/30_encoding.md R45 to R67), from the
operand outwards: a memory operand, operand 2 of each kind, VEX and EVEX encodings. -/

namespace Sys2Proof

/-- A displacement without bytes never stands where `r/m = 101b` means no base. -/
theorem not_dispOnly_of_okWithBase {d : Disp} {low : BitVec 3} (h : d.okWithBase low = true) :
    ¬ (d.md = 0#2 ∧ low = 5#3) := by
  cases d with
  | none => simpa [Disp.okWithBase, Disp.md] using h
  | d8 | d32 => simp [Disp.md]

/-- `mod = 11b` announces a register, and no displacement does. -/
theorem disp_md_ne_three (d : Disp) : d.md ≠ 3#2 := by
  cases d <;> simp [Disp.md]

/-- A memory operand reads back from its ModRM byte and what follows it. -/
theorem decodeMem_bytes {m : Mode} {f : MemForm} (reg : BitVec 3) (h : f.wf m = true)
    (rest : List Byte) : ∃ modrm tail, f.bytes reg = modrm :: tail ∧ bits modrm 3 3 = reg ∧
      bits modrm 6 2 ≠ 3#2 ∧
      decodeMem (bits modrm 6 2) (bits modrm 0 3) f.xBit f.bBit (tail ++ rest) = some f := by
  cases f with
  | base b d =>
    simp only [MemForm.wf, Bool.and_eq_true, bne_iff_ne] at h
    obtain ⟨⟨-, hsib⟩, hd⟩ := h
    refine ⟨_, _, rfl, modRm_reg .., by simp [disp_md_ne_three], ?_⟩
    simp only [modRm_md, modRm_rm, decodeMem, if_neg hsib, if_neg (not_dispOnly_of_okWithBase hd),
      takeDisp_bytes, Option.map_some, MemForm.bBit, reg4_parts]
  | dispOnly d =>
    refine ⟨_, _, rfl, modRm_reg .., by simp, ?_⟩
    simp [decodeMem, takeDisp32_bytes]
  | sib b idx scale d =>
    simp only [MemForm.wf, Bool.and_eq_true] at h
    obtain ⟨-, hd⟩ := h
    refine ⟨_, _, rfl, modRm_reg .., by simp [disp_md_ne_three], ?_⟩
    simp only [modRm_md, modRm_rm, decodeMem, List.cons_append, sibByte_base, sibByte_idx,
      sibByte_scale, if_true, if_neg (not_dispOnly_of_okWithBase hd), takeDisp_bytes,
      Option.map_some, MemForm.xBit, MemForm.bBit, reg4_parts]
  | sibNoBase idx scale d =>
    refine ⟨_, _, rfl, modRm_reg .., by simp, ?_⟩
    simp [decodeMem, takeDisp32_bytes, MemForm.xBit]

/-- Operand 2 of a VEX form reads back from ModRM, what follows it, and the bits `X` and
`B`. -/
theorem decodeVexSrc_parts {m : Mode} {src : VexSrc} (reg : BitVec 3) (h : src.wf m = true)
    (rest : List Byte) : ∃ modrm tail, (src.parts reg).2.2 = modrm :: tail ∧
      bits modrm 3 3 = reg ∧
      decodeVexSrc modrm (src.parts reg).1 (src.parts reg).2.1 (tail ++ rest) = some src := by
  cases src with
  | reg n =>
    refine ⟨_, _, rfl, modRm_reg .., ?_⟩
    simp [decodeVexSrc, VexSrc.parts]
  | mem f =>
    obtain ⟨modrm, tail, hbytes, hreg, hmod, hdec⟩ := decodeMem_bytes reg h rest
    refine ⟨modrm, tail, hbytes, hreg, ?_⟩
    simp only [decodeVexSrc, if_neg hmod, VexSrc.parts, hdec, Option.map_some]

/-- Operand 2 of an EVEX form reads back from ModRM, what follows it, and the bits `X` and
`B`. -/
theorem decodeEvexSrc_parts {m : Mode} {src : EvexSrc} (reg : BitVec 3) (h : src.wf m = true)
    (rest : List Byte) : ∃ modrm tail, (src.parts reg).2.2 = modrm :: tail ∧
      bits modrm 3 3 = reg ∧
      decodeEvexSrc modrm (src.parts reg).1 (src.parts reg).2.1 (tail ++ rest) = some src := by
  cases src with
  | reg n =>
    refine ⟨_, _, rfl, modRm_reg .., ?_⟩
    simp [decodeEvexSrc, EvexSrc.parts]
  | mem f =>
    obtain ⟨modrm, tail, hbytes, hreg, hmod, hdec⟩ := decodeMem_bytes reg h rest
    refine ⟨modrm, tail, hbytes, hreg, ?_⟩
    simp only [decodeEvexSrc, if_neg hmod, EvexSrc.parts, hdec, Option.map_some]

/-! ### 32-bit mode names registers 0 to 7 only (R58) -/

/-- A register number of four bits below 8 has no extension bit. -/
theorem reg4_ext_of_lt {n : BitVec 4} (h : n.toNat < 8) : n.getLsbD 3 = false := by
  revert n; decide

/-- A register number of five bits below 8 has no extension bit. -/
theorem reg5_ext_of_lt {n : BitVec 5} (h : n.toNat < 8) :
    n.getLsbD 3 = false ∧ n.getLsbD 4 = false := by
  revert n; decide

/-- A memory operand well-formed in 32-bit mode has no extension bit. -/
theorem memForm_ext_m32 {f : MemForm} (h : f.wf .m32 = true) :
    f.xBit = false ∧ f.bBit = false := by
  cases f with
  | base b d =>
    simp only [MemForm.wf, gprOk, Bool.and_eq_true, decide_eq_true_eq] at h
    obtain ⟨⟨hb, -⟩, -⟩ := h
    exact ⟨rfl, reg4_ext_of_lt hb⟩
  | dispOnly d => exact ⟨rfl, rfl⟩
  | sib b idx scale d =>
    simp only [MemForm.wf, gprOk, Bool.and_eq_true, decide_eq_true_eq] at h
    obtain ⟨⟨hb, hidx⟩, -⟩ := h
    exact ⟨reg4_ext_of_lt hidx, reg4_ext_of_lt hb⟩
  | sibNoBase idx scale d => exact ⟨reg4_ext_of_lt (of_decide_eq_true h), rfl⟩

/-- Operand 2 of a VEX form well-formed in 32-bit mode has no extension bit. -/
theorem vexSrc_ext_of_m32 {m : Mode} {src : VexSrc} (reg : BitVec 3) (h : src.wf m = true) :
    m = .m32 → (src.parts reg).1 = false ∧ (src.parts reg).2.1 = false := by
  rintro rfl
  cases src with
  | reg n => exact ⟨rfl, reg4_ext_of_lt (of_decide_eq_true h)⟩
  | mem f => exact memForm_ext_m32 h

/-- Operand 2 of an EVEX form well-formed in 32-bit mode has no extension bit. -/
theorem evexSrc_ext_of_m32 {m : Mode} {src : EvexSrc} (reg : BitVec 3) (h : src.wf m = true) :
    m = .m32 → (src.parts reg).1 = false ∧ (src.parts reg).2.1 = false := by
  rintro rfl
  cases src with
  | reg n => exact (reg5_ext_of_lt (of_decide_eq_true h)).symm
  | mem f => exact memForm_ext_m32 h

/-! ### VEX and EVEX encodings -/

/-- The destination of a VEX form reads back. -/
theorem vexDst_vexByte1 {dst : BitVec 4} {modrm : Byte} (x b : Bool)
    (h : bits modrm 3 3 = dst.setWidth 3) :
    vexDst (vexByte1 (dst.getLsbD 3) x b) modrm = dst := by
  obtain ⟨-, hr, -⟩ := vexByte1_fields (dst.getLsbD 3) x b
  rw [vexDst, hr, Bool.not_not, h, reg4_parts]

/-- The destination of an EVEX form reads back. -/
theorem evexDst_evexByte0 {dst : BitVec 5} {modrm : Byte} (x b : Bool)
    (h : bits modrm 3 3 = dst.setWidth 3) :
    evexDst (evexByte0 (dst.getLsbD 3) x b (dst.getLsbD 4)) modrm = dst := by
  obtain ⟨-, -, hr, -, -, hr', -⟩ := evexByte0_fields (dst.getLsbD 3) x b (dst.getLsbD 4)
  rw [evexDst, hr, hr', Bool.not_not, Bool.not_not, h, reg5_parts]

/-- The bytes of a VEX encoding decode to the form that `L` selects. -/
theorem decode_vexBytes {m : Mode} {dst : BitVec 4} {src : VexSrc} {x b l : Bool} {modrm : Byte}
    {rest : List Byte} (hdst : dst.toNat < nvec m false)
    (hext : m = .m32 → x = false ∧ b = false) (hreg : bits modrm 3 3 = dst.setWidth 3)
    (hdec : decodeVexSrc modrm x b rest = some src) :
    decode m (0xC4#8 :: vexByte1 (dst.getLsbD 3) x b :: vexByte2 l :: 0x13#8 :: modrm :: rest) =
      if l then .instr (.vex256 dst src) else .instr (.vex128 dst src) := by
  have hd := vexDst_vexByte1 x b hreg
  obtain ⟨hmm, -, hx, hb, htop⟩ := vexByte1_fields (dst.getLsbD 3) x b
  obtain ⟨hpp, hw, hv, hl⟩ := vexByte2_fields l
  have hlegacy : ¬ (m = .m32 ∧ bits (vexByte1 (dst.getLsbD 3) x b) 6 2 ≠ 3#2) := by
    rintro ⟨rfl, hne⟩
    exact hne (htop.mpr ⟨reg4_ext_of_lt hdst, (hext rfl).1⟩)
  have hbit : ¬ (m = .m32 ∧ (!b) = false) := by
    rintro ⟨hm, h⟩
    rw [(hext hm).2] at h
    cases h
  rw [decode_vex, decodeVex_cons, if_neg hlegacy]
  simp only [hmm, hpp, hb, if_neg hbit, hw, hv, hx, Bool.not_not, hdec, hl, hd, ne_eq,
    not_true_eq_false, or_self, Bool.false_eq_true, if_false]

/-- A VEX encoding decodes to the form that its length bit selects. -/
theorem decode_encodeVex {m : Mode} (l : Bool) {dst : BitVec 4} {src : VexSrc}
    (hdst : dst.toNat < nvec m false) (hsrc : src.wf m = true) (rest : List Byte) :
    decode m (encodeVex l dst src ++ rest) =
      if l then .instr (.vex256 dst src) else .instr (.vex128 dst src) := by
  obtain ⟨modrm, tail, hparts, hreg, hdec⟩ := decodeVexSrc_parts (dst.setWidth 3) hsrc rest
  rw [encodeVex_eq, hparts]
  exact decode_vexBytes hdst (vexSrc_ext_of_m32 _ hsrc) hreg hdec

/-- The bytes of an EVEX encoding decode to the `{sae}` form where `b = 1`, else to the
form that `L'L` selects. -/
theorem decode_evexBytes {m : Mode} {dst : BitVec 5} {src : EvexSrc} {x b z sae : Bool}
    {ll : BitVec 2} {aaa : BitVec 3} {modrm : Byte} {rest : List Byte}
    (hdst : dst.toNat < nvec m true) (hext : m = .m32 → x = false ∧ b = false)
    (hmask : maskOk aaa z = true) (hreg : bits modrm 3 3 = dst.setWidth 3) (hform : ll ≠ 3#2)
    (hsae : sae = true → bits modrm 6 2 = 3#2 ∧ ll = 2#2)
    (hdec : decodeEvexSrc modrm x b rest = some src) :
    decode m (0x62#8 :: evexByte0 (dst.getLsbD 3) x b (dst.getLsbD 4) :: evexByte1 ::
        evexByte2 z ll sae aaa :: 0x13#8 :: modrm :: rest) =
      if sae then
        .instr (.evex512Sae dst (BitVec.ofBool x ++ BitVec.ofBool b ++ bits modrm 0 3) aaa z)
      else evexOfLL ll dst src aaa z := by
  have hd := evexDst_evexByte0 x b hreg
  obtain ⟨hzero, hmm, -, hx, hb, hr', htop⟩ := evexByte0_fields (dst.getLsbD 3) x b (dst.getLsbD 4)
  obtain ⟨hpp, hone, hw, hv⟩ := evexByte1_fields
  obtain ⟨hz, hll, hs, hv', haaa⟩ := evexByte2_fields z ll sae aaa
  have hlegacy : ¬ (m = .m32 ∧
      bits (evexByte0 (dst.getLsbD 3) x b (dst.getLsbD 4)) 6 2 ≠ 3#2) := by
    rintro ⟨rfl, hne⟩
    exact hne (htop.mpr ⟨(reg5_ext_of_lt hdst).1, (hext rfl).1⟩)
  have hbits : ¬ (m = .m32 ∧ ((!b) = false ∨ (!dst.getLsbD 4) = false)) := by
    rintro ⟨rfl, h⟩
    rw [(hext rfl).2, (reg5_ext_of_lt hdst).2] at h
    revert h
    decide
  have hzeroing : ¬ (z = true ∧ aaa = 0#3) := by
    rintro ⟨rfl, rfl⟩
    simp [maskOk] at hmask
  have hmem : ¬ (sae = true ∧ bits modrm 6 2 ≠ 3#2) := fun ⟨h, hne⟩ => hne (hsae h).1
  have hother : ¬ (sae = true ∧ ll ≠ 2#2) := fun ⟨h, hne⟩ => hne (hsae h).2
  rw [decode_evex, decodeEvex_cons, if_neg hlegacy]
  simp only [hzero, hmm, hx, hb, hr', hpp, hone, hw, hv, hz, hll, hs, hv', haaa, hd,
    Bool.not_not, if_neg hbits, if_neg hzeroing, if_neg hmem, if_neg hother, if_neg hform, hdec,
    ne_eq, not_true_eq_false, or_self, or_false, Bool.false_eq_true, Bool.true_eq_false, if_false]

/-- An EVEX encoding with `b = 0` decodes to the form that `L'L` selects. -/
theorem decode_encodeEvex {m : Mode} {ll : BitVec 2} (hll : ll ≠ 3#2) {dst : BitVec 5}
    {src : EvexSrc} {aaa : BitVec 3} {z : Bool} (hdst : dst.toNat < nvec m true)
    (hsrc : src.wf m = true) (hmask : maskOk aaa z = true) (rest : List Byte) :
    decode m (encodeEvex ll false dst src aaa z ++ rest) = evexOfLL ll dst src aaa z := by
  obtain ⟨modrm, tail, hparts, hreg, hdec⟩ := decodeEvexSrc_parts (dst.setWidth 3) hsrc rest
  rw [encodeEvex_eq, hparts]
  exact decode_evexBytes hdst (evexSrc_ext_of_m32 _ hsrc) hmask hreg hll nofun hdec

/-- The EVEX encoding with `b = 1` of a register source decodes to the `{sae}` form. -/
theorem decode_encodeEvexSae {m : Mode} {dst src : BitVec 5} {aaa : BitVec 3} {z : Bool}
    (hdst : dst.toNat < nvec m true) (hsrc : src.toNat < nvec m true)
    (hmask : maskOk aaa z = true) (rest : List Byte) :
    decode m (encodeEvex 2#2 true dst (.reg src) aaa z ++ rest) =
      .instr (.evex512Sae dst src aaa z) := by
  have hext : m = .m32 → src.getLsbD 4 = false ∧ src.getLsbD 3 = false :=
    evexSrc_ext_of_m32 (src := .reg src) (dst.setWidth 3) (decide_eq_true hsrc)
  have hmod : bits (modRm 3#2 (dst.setWidth 3) (src.setWidth 3)) 6 2 = 3#2 := modRm_md ..
  have hdec := decode_evexBytes (sae := true) (rest := rest) hdst hext hmask
    (modRm_reg 3#2 (dst.setWidth 3) (src.setWidth 3)) (by decide) (fun _ => ⟨hmod, rfl⟩)
    (if_pos hmod)
  rw [modRm_rm, reg5_parts, if_pos rfl] at hdec
  exact hdec

/-- What the encoder writes for a well-formed instruction decodes to it, whatever follows. -/
theorem decode_encode {m : Mode} {i : Instr} (h : i.wf m = true) (rest : List Byte) :
    decode m (encode i ++ rest) = .instr i := by
  cases i <;> simp only [Instr.wf, Bool.and_eq_true, decide_eq_true_eq] at h
  case vex128 =>
    obtain ⟨hdst, hsrc⟩ := h
    exact decode_encodeVex false hdst hsrc rest
  case vex256 =>
    obtain ⟨hdst, hsrc⟩ := h
    exact decode_encodeVex true hdst hsrc rest
  case evex512Sae =>
    obtain ⟨⟨hdst, hsrc⟩, hmask⟩ := h
    exact decode_encodeEvexSae hdst hsrc hmask rest
  all_goals
    obtain ⟨⟨hdst, hsrc⟩, hmask⟩ := h
    exact decode_encodeEvex (by decide) hdst hsrc hmask rest

end Sys2Proof

/-! PROOF. The statements of spec/00_scope.md: a step is the decoded instruction (R8), and
the conversion is a parameter (R4). -/

namespace Sys2Proof.Machine

/-- What decodes to an instruction holds at least one byte. -/
theorem ne_nil_of_decode_instr {m : Mode} {bs : List Byte} {i : Instr}
    (h : decode m bs = .instr i) : bs ≠ [] := by
  rintro rfl
  cases h

/-- A step from a state without a fault executes what the bytes at `pc` decode to. -/
theorem step_of_decode {s : State} {i : Instr} (hf : s.faultRecord = none)
    (hd : decode s.mode s.fetch = .instr i) : step s = exec i s := by
  have hip : s.ip ≠ s.textStop := ip_ne_textStop (ne_nil_of_decode_instr hd)
  simp [step, hf, hip, hd]

/-- Settles O16: where an instruction is decoded, the text has not ended. -/
theorem stepRunsDecodedInstruction : Obligations.StepRunsDecodedInstruction :=
  fun _ _ hf hd => step_of_decode hf hd

/-- Settles O17: the encoding decodes to the instruction, which the step then executes. -/
theorem stepRunsEncodedInstruction : Obligations.StepRunsEncodedInstruction := by
  intro s i rest hf hwf hfetch
  refine step_of_decode hf ?_
  rw [hfetch]
  exact decode_encode hwf rest

/-- The list of differences that makes `f` the conversion: every input with its result. -/
def diffOf (f : Half → Single × Bool) : List (Half × Single × Bool) :=
  (FinEnum.toList Half).map fun h => (h, f h)

theorem diffOf_lookup (f : Half → Single × Bool) (h : Half) :
    (diffOf f).lookup h = some (f h) :=
  List.lookup_graph f (FinEnum.mem_toList h)

/-- Parameters with the differences of `f` convert as `f` does. -/
theorem cvt_diffOf (p : Params) (f : Half → Single × Bool) (h : Half) :
    ({ p with cvtDiff := diffOf f } : Params).cvt h = f h := by
  rw [Params.cvt, diffOf_lookup, Option.getD_some]

/-- Settles O27, with the list of all inputs and their results. -/
theorem conversionIsParameter : Obligations.ConversionIsParameter :=
  ⟨fun f => ⟨diffOf f, fun p h => cvt_diffOf p f h⟩, fun _ h hnil => cvt_of_nil hnil h, rfl⟩

end Sys2Proof.Machine

/-! PROOF. The statements of spec/10_state.md: how `exec` ends, read in both directions; the
invariant of the state (R10 to R18), `pc` (R15), and the parts of `MXCSR` (R13) and `EFLAGS`
(R14) that the instruction ignores. -/

namespace Sys2Proof.Machine

/-! ### How an instruction ends -/

/-- An instruction that reaches the conversion ends as the conversion does
(spec/40_vcvtph2ps.md R78). -/
theorem execInst_of_reachesConversion {i : Inst} {s : State} (h : reachesConversion s i) :
    execInst i s = convert i (sourceBits s i.form i.src) (drawn s i) := by
  obtain ⟨hav, hts, hmem, hac⟩ := h
  rcases execInst_cases i s with ⟨hav', _⟩ | ⟨_, hts', _⟩ | ⟨_, _, e, hmem', _⟩ |
    ⟨_, _, _, hdue, hocc, _⟩ | ⟨_, _, _, _, hconv⟩
  · simp [hav] at hav'
  · simp [hts] at hts'
  · simp [hmem] at hmem'
  · simp [hac hdue] at hocc
  · exact hconv

/-- Completion without a flag, where the Invalid condition is suppressed or not there. -/
theorem execInst_of_noInvalid {i : Inst} {s : State} (h : reachesConversion s i)
    (hq : i.sae = true ∨ ¬ invalidArises s i.src i.aaa i.form.kl) :
    execInst i s = .next (completed (drawn s i) i) := by
  rw [execInst_of_reachesConversion h]
  rcases convert_cases i s with ⟨_, hc⟩ | ⟨hsae, hinv, _⟩ | ⟨hsae, hinv, _⟩
  · exact hc
  all_goals simp [hsae, hinv] at hq

/-- Completion with `IE` set, where the Invalid condition arises and is masked. -/
theorem execInst_of_maskedInvalid {i : Inst} {s : State} (h : reachesConversion s i)
    (hsae : i.sae = false) (hinv : invalidArises s i.src i.aaa i.form.kl) (him : s.im = true) :
    execInst i s = .next (completed (drawn s i).setIE i) := by
  rw [execInst_of_reachesConversion h]
  rcases convert_cases i s with ⟨hq, _⟩ | ⟨_, _, _, hc⟩ | ⟨_, _, him', _⟩
  · simp [hsae, hinv] at hq
  · exact hc
  · simp [him] at him'

/-- An instruction that raises an exception raises it in the state it started from, or it
reached the conversion and an unmasked Invalid ended it (spec/60_exceptions.md R106). -/
theorem exec_fault {i : Instr} {s : State} {f : Fault} (h : exec i s = .fault f) :
    (∃ e, .fault f = raise e s) ∨
    (reachesConversion s (instOf i s) ∧ (instOf i s).sae = false ∧
      invalidArises s (instOf i s).src (instOf i s).aaa (instOf i s).form.kl ∧
      s.im = false ∧ .fault f = raiseInvalid (drawn s (instOf i s))) := by
  rw [exec_eq] at h
  rcases execInst_cases (instOf i s) s with ⟨_, hr⟩ | ⟨_, _, hr⟩ | ⟨_, _, e, _, hr⟩ |
    ⟨_, _, _, _, _, hr⟩ | ⟨hav, hts, hmem, hac, hconv⟩
  iterate 4 exact .inl ⟨_, h.symm.trans hr⟩
  rw [hconv] at h
  rcases convert_cases (instOf i s) s with ⟨_, hc⟩ | ⟨_, _, _, hc⟩ | ⟨hsae, hinv, him, hc⟩
  · simp [hc] at h
  · simp [hc] at h
  · exact .inr ⟨⟨hav, hts, hmem, hac⟩, hsae, hinv, him, h.symm.trans hc⟩

/-- A step that answers a next state ran the instruction decoded at `pc`. -/
theorem step_next {s t : State} (h : step s = .next t) :
    s.faultRecord = none ∧ ∃ i, decode s.mode s.fetch = .instr i ∧ exec i s = .next t := by
  unfold step at h
  split at h
  · cases h
  next hf =>
    refine ⟨hf, ?_⟩
    split at h
    · cases h
    split at h
    next i hd => exact ⟨i, hd, h⟩
    · cases h
    · cases h

/-! ### The state the conversion starts from -/

@[simp] theorem drawn_mode (s : State) (i : Inst) : (drawn s i).mode = s.mode := by
  obtain ⟨n, hn, -, -⟩ := drawn_eq s i
  rw [hn]

@[simp] theorem drawn_pc (s : State) (i : Inst) : (drawn s i).pc = s.pc := by
  obtain ⟨n, hn, -, -⟩ := drawn_eq s i
  rw [hn]

@[simp] theorem drawn_ip (s : State) (i : Inst) : (drawn s i).ip = s.ip := by
  obtain ⟨n, hn, -, -⟩ := drawn_eq s i
  rw [hn, tick_ip]

@[simp] theorem drawn_mxcsr (s : State) (i : Inst) : (drawn s i).mxcsr = s.mxcsr := by
  obtain ⟨n, hn, -, -⟩ := drawn_eq s i
  rw [hn]

@[simp] theorem drawn_eflags (s : State) (i : Inst) : (drawn s i).eflags = s.eflags := by
  obtain ⟨n, hn, -, -⟩ := drawn_eq s i
  rw [hn]

/-! ### The invariant (R10 to R18) -/

/-- The invariant reads neither `IE` nor another bit of `MXCSR` below the reserved ones. -/
theorem Inv.setIE {s : State} (h : Inv s) : Inv s.setIE where
  pcWidth := h.pcWidth
  endWidth := h.endWidth
  vecWidth := h.vecWidth
  kWidth := h.kWidth
  gprWidth := h.gprWidth
  mxcsrRes := by
    rw [setIE_mxcsr, BitVec.extractLsb'_or, h.mxcsrRes]
    rfl
  memory := h.memory
  noFault := h.noFault

/-- The counter of free values is no part of the invariant. -/
theorem Inv.drawn {s : State} (h : Inv s) (i : Inst) : Inv (drawn s i) := by
  obtain ⟨n, hn, -, -⟩ := drawn_eq s i
  rw [hn]
  exact ⟨h.pcWidth, h.endWidth, h.vecWidth, h.kWidth, h.gprWidth, h.mxcsrRes, h.memory, h.noFault⟩

/-- A vector register written is cut to the bits that exist, and every other is kept. -/
theorem Inv.writeVec {s : State} (h : Inv s) (d : BitVec 5) (x : VecWord) :
    Inv (s.writeVec d x) where
  pcWidth := h.pcWidth
  endWidth := h.endWidth
  vecWidth n := by
    by_cases hn : n = d
    · subst hn
      rw [writeVec_readVec_same, writeVec_vec, Vector.getElem_set_self]
    · have hne : d.toNat ≠ n.toNat := fun e => hn (BitVec.eq_of_toNat_eq e.symm)
      rw [writeVec_readVec_other s hn, h.vecWidth]
      simp only [writeVec_vec]
      rw [Vector.getElem_set_ne _ _ hne]
  kWidth := h.kWidth
  gprWidth := h.gprWidth
  mxcsrRes := h.mxcsrRes
  memory := h.memory
  noFault := h.noFault

/-- `pc` advances modulo the address space, so it stays at the mode's width. -/
theorem Inv.advance {s : State} (h : Inv s) (n : Nat) : Inv (s.advance n) where
  pcWidth := wrap_wrap _ _
  endWidth := h.endWidth
  vecWidth := h.vecWidth
  kWidth := h.kWidth
  gprWidth := h.gprWidth
  mxcsrRes := h.mxcsrRes
  memory := h.memory
  noFault := h.noFault

theorem Inv.completed {s : State} (h : Inv s) (i : Inst) : Inv (completed s i) :=
  (h.writeVec _ _).advance _

/-- Every instruction that completes keeps the invariant. -/
theorem Inv.exec {i : Instr} {s t : State} (h : Inv s) (hx : exec i s = .next t) : Inv t := by
  obtain ⟨-, -, -, -, ⟨-, rfl⟩ | ⟨-, -, -, rfl⟩⟩ := exec_next hx
  · exact (h.drawn _).completed _
  · exact (h.drawn _).setIE.completed _

/-- Settles O59: a step is an instruction that completes, and each of the updates it is made
of keeps the invariant. -/
theorem stepKeepsInvariant : Obligations.StepKeepsInvariant := by
  intro s t h hst
  obtain ⟨-, i, -, hx⟩ := step_next hst
  exact h.exec hx

/-- Settles O58: the registers are 0, memory is empty, and `pc` and `MXCSR` are numbers. -/
theorem invariantHoldsAfterReset : Obligations.InvariantHoldsAfterReset where
  pcWidth := by decide
  endWidth := by decide
  vecWidth n := by simp [State.readVec, State.reset]
  kWidth n := by simp [State.readK, State.reset]
  gprWidth n := by simp [State.readGpr, State.reset, wrap]
  mxcsrRes := by decide
  memory := reset_mem_wf
  noFault := rfl

/-! ### `pc` (R15) -/

/-- `pc` after completion, as a number. -/
theorem completed_ip_toNat (s : State) (i : Inst) :
    (completed s i).ip.toNat = (s.ip.toNat + i.len) % addrSpace s.mode := by
  rw [completed, advance_ip, writeVec_ip, writeVec_mode, wrap_toNat, BitVec.toNat_add,
    BitVec.toNat_ofNat, Nat.add_mod_mod, Nat.mod_mod_of_dvd _ (addrSpace_dvd s.mode)]

/-- `raise` leaves `pc` at the instruction's first byte (spec/60_exceptions.md R107). -/
theorem raise_after_pc {e e' : Exception} {a : Addr} {s t : State}
    (h : .fault (.raised e a t) = raise e' s) : t.pc = s.pc := by
  cases h
  rfl

/-- Settles O37: completion ends in one advance by the length, and no exception moves `pc`. -/
theorem pcAdvancesByLength : Obligations.PcAdvancesByLength := by
  intro i s t
  refine ⟨fun hx => ?_, fun e pc hx => ?_⟩
  · obtain ⟨-, -, -, -, ⟨-, rfl⟩ | ⟨-, -, -, rfl⟩⟩ := exec_next hx
    all_goals simp [completed_ip_toNat]
  · rcases exec_fault hx with ⟨e', hr⟩ | ⟨-, -, -, -, hr⟩
    · exact raise_after_pc hr
    · simpa using raise_after_pc hr

/-! ### `MXCSR` (R13) -/

/-- The decoded record takes nothing from `MXCSR`. -/
theorem instOf_withMxcsr (i : Instr) (s : State) (x : BitVec 32) :
    instOf i { s with mxcsr := x } = instOf i s := by
  cases i <;> rfl

theorem drawn_withMxcsr (s : State) (i : Inst) (x : BitVec 32) :
    drawn { s with mxcsr := x } i = { drawn s i with mxcsr := x } := by
  have hdue : acDue { s with mxcsr := x } i.form i.src = acDue s i.form i.src := rfl
  rw [drawn, drawn, hdue]
  split <;> rfl

/-- With any other `MXCSR` of the same `IM` an instruction that completes does the same, `IE`
included. -/
theorem exec_withMxcsr {i : Instr} {s t : State} {x : BitVec 32} (hx : exec i s = .next t)
    (him : x.getLsbD 7 = s.im) :
    (t.mxcsr = s.mxcsr ∧ exec i { s with mxcsr := x } = .next { t with mxcsr := x }) ∨
    (t.mxcsr = s.mxcsr ||| 1#32 ∧
      exec i { s with mxcsr := x } = .next { t with mxcsr := x ||| 1#32 }) := by
  obtain ⟨hav, hts, hmem, hac, hend⟩ := exec_next hx
  have hr : reachesConversion { s with mxcsr := x } (instOf i s) := ⟨hav, hts, hmem, hac⟩
  rw [exec_eq, instOf_withMxcsr]
  rcases hend with ⟨hq, rfl⟩ | ⟨hsae, hinv, hm, rfl⟩
  · refine .inl ⟨by rw [completed_mxcsr, drawn_mxcsr], ?_⟩
    rw [execInst_of_noInvalid hr hq, drawn_withMxcsr]
    rfl
  · refine .inr ⟨by rw [completed_mxcsr, setIE_mxcsr, drawn_mxcsr], ?_⟩
    rw [execInst_of_maskedInvalid hr hsae hinv (him.trans hm), drawn_withMxcsr]
    rfl

/-- Settles O42: the two runs differ in `MXCSR` alone, and each gets `IE` or neither does. -/
theorem mxcsrControlsIgnored : Obligations.MxcsrControlsIgnored := by
  intro i s t x hx him
  rcases exec_withMxcsr hx him with ⟨ht, hu⟩ | ⟨ht, hu⟩
  · exact ⟨_, hu, rfl, rfl, .inl ⟨ht, rfl⟩⟩
  · exact ⟨_, hu, rfl, rfl, .inr ⟨ht, rfl⟩⟩

/-! ### `EFLAGS` (R14) -/

/-- The decoded record takes nothing from `EFLAGS`. -/
theorem instOf_withEflags (i : Instr) (s : State) (x : BitVec 32) :
    instOf i { s with eflags := x } = instOf i s := by
  cases i <;> rfl

/-- Of `EFLAGS`, availability reads `VM` alone. -/
theorem available_withEflags {s : State} {x : BitVec 32} (hvm : x.getLsbD 17 = s.vm) (f : Form) :
    ({ s with eflags := x } : State).available f = s.available f := by
  have hvm' : ({ s with eflags := x } : State).vm = s.vm := hvm
  rw [State.available, State.osEnabled, hvm']
  rfl

/-- Of `EFLAGS`, the alignment check reads `AC` alone. -/
theorem acDue_withEflags {s : State} {x : BitVec 32} (hac : x.getLsbD 18 = s.acFlag) (f : Form)
    (src : Source) : acDue { s with eflags := x } f src = acDue s f src := by
  have hac' : ({ s with eflags := x } : State).acFlag = s.acFlag := hac
  cases src with
  | reg n => rfl
  | mem a =>
    rw [acDue, State.alignmentChecked, hac']
    rfl

/-- The checks before the conversion read `VM` and `AC` alone. -/
theorem reachesConversion_withEflags {s : State} {x : BitVec 32} (hvm : x.getLsbD 17 = s.vm)
    (hac : x.getLsbD 18 = s.acFlag) (i : Inst) :
    reachesConversion { s with eflags := x } i ↔ reachesConversion s i := by
  rw [reachesConversion, available_withEflags hvm, acDue_withEflags hac]
  rfl

theorem drawn_withEflags {s : State} {x : BitVec 32} (hac : x.getLsbD 18 = s.acFlag) (i : Inst) :
    drawn { s with eflags := x } i = { drawn s i with eflags := x } := by
  rw [drawn, drawn, acDue_withEflags hac]
  split <;> rfl

/-- Writing the destination and advancing `pc` leave `EFLAGS`. -/
@[simp] theorem completed_eflags (s : State) (i : Inst) : (completed s i).eflags = s.eflags := rfl

/-- An instruction that completes leaves `EFLAGS`, with the Invalid flag set or not. -/
theorem exec_eflags {i : Instr} {s t : State} (hx : exec i s = .next t) : t.eflags = s.eflags := by
  obtain ⟨-, -, -, -, ⟨-, rfl⟩ | ⟨-, -, -, rfl⟩⟩ := exec_next hx
  all_goals simp

/-- Settles O43: `VM` and `AC` decide whether the conversion is reached, and nothing after that
reads or writes `EFLAGS`. -/
theorem eflagsPlayNoPart : Obligations.EflagsPlayNoPart := by
  intro i s t x hx hvm hac
  refine ⟨exec_eflags hx, ?_⟩
  obtain ⟨hav, hts, hmem, hocc, hend⟩ := exec_next hx
  have hr : reachesConversion { s with eflags := x } (instOf i s) :=
    (reachesConversion_withEflags hvm hac _).mpr ⟨hav, hts, hmem, hocc⟩
  rw [exec_eq, instOf_withEflags]
  rcases hend with ⟨hq, rfl⟩ | ⟨hsae, hinv, him, rfl⟩
  · rw [execInst_of_noInvalid hr hq, drawn_withEflags hac]
    rfl
  · rw [execInst_of_maskedInvalid hr hsae hinv him, drawn_withEflags hac]
    rfl

end Sys2Proof.Machine

/-! PROOF. The statements of spec/20_memory.md: the address space and admitted ranges (R30,
R37), byte order (R31), the program text in memory, and masked reads (R44). -/

namespace Sys2Proof.Machine

/-! ### Accessible ranges (R30, R37) -/

/-- The arithmetic form of canonical is R30's own: inside the address space, and bits 63:47
all equal. -/
theorem canonical_iff (a : Nat) :
    canonical a = true ↔ a < 2 ^ 64 ∧ ((BitVec.ofNat 64 a).extractLsb' 47 17 = 0#17 ∨
      (BitVec.ofNat 64 a).extractLsb' 47 17 = BitVec.allOnes 17) := by
  have hones : (BitVec.allOnes 17).toNat = 2 ^ 17 - 1 := rfl
  simp only [canonical, ← BitVec.toNat_inj, BitVec.extractLsb'_toNat, BitVec.toNat_ofNat,
    Nat.shiftRight_eq_div_pow, hones, Bool.or_eq_true, Bool.and_eq_true, decide_eq_true_eq]
  omega

/-- A byte is accessible where its address is in the space, canonical in 64-bit mode, and in an
admitted range. -/
theorem byteAccessible_iff (s : State) (a : Nat) :
    s.byteAccessible a = true ↔ a < addrSpace s.mode ∧
      (s.mode = .m64 → (BitVec.ofNat 64 a).extractLsb' 47 17 = 0#17 ∨
        (BitVec.ofNat 64 a).extractLsb' 47 17 = BitVec.allOnes 17) ∧
      ∃ r ∈ s.readable, r.lo ≤ a ∧ a < r.lo + r.size := by
  unfold State.byteAccessible
  cases s.mode with
  | m64 => simp [canonical_iff, addrSpace, Range.holds, and_assoc]
  | m32 => simp [addrSpace, Range.holds]

/-- A range is accessible exactly when each of its bytes is. -/
theorem accessible_iff (s : State) (a n : Nat) :
    s.accessible a n = true ↔ ∀ k < n, s.byteAccessible (a + k) = true := by
  simp [State.accessible]

/-- Settles O26: the range is its bytes, and each byte is accessible by R30 and R37. -/
theorem accessibleMeansEveryByte : Obligations.AccessibleMeansEveryByte := by
  intro s a n
  simp only [accessible_iff, byteAccessible_iff]

/-! ### Byte order (R31) -/

/-- A bit of a data read is a bit of one of its bytes. -/
theorem getLsbD_memRead (s : State) (a : Addr) {n b : Nat} (hn : n ≤ 32) (hb : b < 8 * n) :
    (memRead s a n).getLsbD b = (s.mem.read (a.toNat + b / 8)).getLsbD (b % 8) := by
  have h256 : b < 256 := by omega
  rw [memRead, getLsbD_pack (by decide)]
  simp [h256, hb]

/-- A byte of the program text is the byte at `pc` and so many addresses on. -/
theorem fetch_getElem? {s : State} {i : Nat} (hi : i < s.textLeft) :
    s.fetch[i]? = some (s.mem.read ((s.ip.toNat + i) % addrSpace s.mode)) :=
  Memory.bytesFrom_getElem? s.mode s.mem s.textLeft s.ip i (wrap_wrap ..) hi

/-- A bit of a four-byte displacement is a bit of one of its bytes. -/
theorem getLsbD_of_takeDisp32 {bs : List Byte} {d : BitVec 32} (h : takeDisp32 bs = some d)
    {b : Nat} (hb : b < 32) : d.getLsbD b = (bs.getD (b / 8) 0#8).getLsbD (b % 8) := by
  unfold takeDisp32 at h
  split at h
  next b0 b1 b2 b3 rest =>
    cases h
    have hbyte : b / 8 < 4 := by omega
    have hbit : b = 8 * (b / 8) + b % 8 := by omega
    simp only [BitVec.getLsbD_append]
    generalize b / 8 = q at *
    interval_cases q <;> grind
  · cases h

/-- Settles O25: one law for each of the four readers of bytes. -/
theorem memoryReadIsLittleEndian : Obligations.MemoryReadIsLittleEndian :=
  ⟨fun s a _ _ hn hb => getLsbD_memRead s a hn hb,
    fun s f a _ hj => srcElem_sourceBits s f (.mem a) hj,
    fun _ _ hi => fetch_getElem? hi,
    fun _ _ _ h hb => getLsbD_of_takeDisp32 h hb⟩

/-! ### The program text -/

/-- Settles O18: the launched bytes are the text left, and they read back as written. -/
theorem loadedTextIsFetched : Obligations.LoadedTextIsFetched := by
  intro s bs hwf hlen
  rw [State.fetch, loadText_textLeft s hlen]
  exact Memory.bytesFrom_writeBytes s.mode bs s.mem s.ip hwf (wrap_wrap ..) hlen.le

/-! ### When a masked read faults (R37, R44) -/

/-- Without fault suppression every byte of the operand counts. -/
theorem sourceAdmitted_of_noSuppression {s : State} (h : s.cfg.evexFaultSuppression = false)
    (f : Form) (aaa : BitVec 3) (a : Addr) :
    sourceAdmitted s f aaa a = s.accessible a.toNat (2 * f.kl) := by
  simp [sourceAdmitted, h]

/-- With fault suppression the bytes of a selected element count. -/
theorem sourceAdmitted_eq_false_of_suppression {s : State}
    (h : s.cfg.evexFaultSuppression = true) (f : Form) (aaa : BitVec 3) (a : Addr) :
    sourceAdmitted s f aaa a = false ↔
      ∃ j < f.kl, selected s aaa j ∧ s.accessible (a.toNat + 2 * j) 2 = false := by
  simp [sourceAdmitted, h, maskBit_iff]

/-- A memory source has a fault exactly where its read is not admitted. -/
theorem memFaultOf_eq_some_iff {s : State} {i : Inst} {a : Addr} (h : i.src = .mem a) :
    memFaultOf s i = some (.memFault a (2 * i.form.kl)) ↔
      sourceAdmitted s i.form i.aaa a = false := by
  simp [memFaultOf, h]

/-- An unmasked Invalid is never a memory fault (spec/60_exceptions.md R106). -/
theorem raiseInvalid_ne_memFault (s t : State) (a pc : Addr) (n : Nat) :
    raiseInvalid s ≠ .fault (.raised (.memFault a n) pc t) := by
  unfold raiseInvalid
  split <;> exact nofun

/-- A memory fault comes of a read that is not admitted, and of nothing else. -/
theorem memFaultOf_of_exec_memFault {i : Instr} {s t : State} {a pc : Addr} {n : Nat}
    (h : exec i s = .fault (.raised (.memFault a n) pc t)) :
    memFaultOf s (instOf i s) = some (.memFault a n) := by
  rw [exec_eq] at h
  rcases execInst_cases (instOf i s) s with ⟨_, hr⟩ | ⟨_, _, hr⟩ | ⟨_, _, e, hmem, hr⟩ |
    ⟨_, _, _, _, _, hr⟩ | ⟨_, _, _, _, hconv⟩
  · cases hr.symm.trans h
  · cases hr.symm.trans h
  · cases hr.symm.trans h
    exact hmem
  · cases hr.symm.trans h
  · rw [hconv] at h
    rcases convert_cases (instOf i s) s with ⟨_, hc⟩ | ⟨_, _, _, hc⟩ | ⟨_, _, _, hc⟩
    · cases hc.symm.trans h
    · cases hc.symm.trans h
    · exact absurd (hc.symm.trans h) (raiseInvalid_ne_memFault _ _ _ _ _)

/-- Where the earlier checks pass, the fault of the read is raised. -/
theorem exec_of_memFaultOf {i : Instr} {s : State} {e : Exception}
    (hav : s.available (instOf i s).form = true) (hts : s.ts = false)
    (hmem : memFaultOf s (instOf i s) = some e) : exec i s = raise e s := by
  simp [exec_eq, execInst, hav, hts, hmem]

/-- An instruction of an available form with `TS` clear ends in a memory fault exactly where
the read of its operand is not admitted. -/
theorem exec_memFault_iff {i : Instr} {s : State} {a : Addr} (hsrc : (instOf i s).src = .mem a)
    (hav : s.available (instOf i s).form = true) (hts : s.ts = false) :
    (∃ pc t, exec i s = .fault (.raised (.memFault a (2 * (instOf i s).form.kl)) pc t)) ↔
      sourceAdmitted s (instOf i s).form (instOf i s).aaa a = false := by
  rw [← memFaultOf_eq_some_iff hsrc]
  exact ⟨fun ⟨_, _, hx⟩ => memFaultOf_of_exec_memFault hx,
    fun hmem => ⟨_, _, exec_of_memFaultOf hav hts hmem⟩⟩

/-! ### The value of a masked read (R44) -/

/-- The state with the parameter `EVEX_FAULT_SUPPRESSION` set to `b`. -/
def State.withSuppression (s : State) (b : Bool) : State :=
  { s with cfg := { s.cfg with evexFaultSuppression := b } }

/-- The decoded record takes nothing from the parameters. -/
theorem instOf_withSuppression (i : Instr) (s : State) (b : Bool) :
    instOf i (s.withSuppression b) = instOf i s := by
  cases i <;> rfl

theorem drawn_withSuppression (s : State) (i : Inst) (b : Bool) :
    drawn (s.withSuppression b) i = (drawn s i).withSuppression b := by
  have hdue : acDue (s.withSuppression b) i.form i.src = acDue s i.form i.src := by
    cases i.src <;> rfl
  rw [drawn, drawn, hdue]
  split <;> rfl

/-- The conversion does not ask how the read was admitted: where one setting completes, the
other completes in the same state, if its own checks pass. -/
theorem exec_withSuppression {i : Instr} {s t : State} {b : Bool} (hx : exec i s = .next t)
    (hr : reachesConversion (s.withSuppression b) (instOf i s)) :
    exec i (s.withSuppression b) = .next (t.withSuppression b) := by
  obtain ⟨-, -, -, -, hend⟩ := exec_next hx
  rw [exec_eq, instOf_withSuppression]
  rcases hend with ⟨hq, rfl⟩ | ⟨hsae, hinv, him, rfl⟩
  · rw [execInst_of_noInvalid hr hq, drawn_withSuppression]
    rfl
  · rw [execInst_of_maskedInvalid hr hsae hinv him, drawn_withSuppression]
    rfl

/-- An instruction that completes has passed the checks before the conversion. -/
theorem reachesConversion_of_exec {i : Instr} {s t : State} (hx : exec i s = .next t) :
    reachesConversion s (instOf i s) := by
  obtain ⟨hav, hts, hmem, hac, -⟩ := exec_next hx
  exact ⟨hav, hts, hmem, hac⟩

/-- Two completions that differ in the setting alone end in states that differ in it alone. -/
theorem eq_withSuppression_of_exec {i : Instr} {s t u : State} {b : Bool}
    (ht : exec i s = .next t) (hu : exec i (s.withSuppression b) = .next u) :
    u = t.withSuppression b := by
  have hr := reachesConversion_of_exec hu
  rw [instOf_withSuppression] at hr
  cases hu.symm.trans (exec_withSuppression ht hr)
  rfl

/-- Settles O50: each setting has its own reading of an admitted read, and the conversion that
follows does not depend on the setting. -/
theorem faultSuppressionByMask : Obligations.FaultSuppressionByMask := by
  intro i s a hsrc hav hts
  refine ⟨fun hoff => ?_, fun hon => ?_, fun b t u ht hu => ?_⟩
  · rw [exec_memFault_iff hsrc hav hts, sourceAdmitted_of_noSuppression hoff]
  · rw [exec_memFault_iff hsrc hav hts, sourceAdmitted_eq_false_of_suppression hon]
  · cases eq_withSuppression_of_exec ht hu
    exact ⟨rfl, rfl⟩

end Sys2Proof.Machine

/-! PROOF. The statements of spec/30_encoding.md: what the decoder reads from an operand's
bytes (R50 to R56), the length (R66), the lines of R67, the reserved fields (R58 to R65), and
the effective address (R53 to R57). -/

namespace Sys2Proof

open Machine

/-- Settles O1: the round trip, by the kind of the encoding and of its operand 2. -/
theorem decodeOfEncode : Obligations.DecodeOfEncode :=
  fun _ _ rest h => decode_encode h rest

/-! ### The bytes a memory operand takes (R53, R56, R66) -/

/-- How many displacement bytes `mod` announces behind a base register (R66). -/
def dispLen (md : BitVec 2) : Nat := if md = 0#2 then 0 else if md = 1#2 then 1 else 4

/-- Four displacement bytes are read exactly where there are four bytes. -/
theorem takeDisp32_map_const {α : Type} (a : α) (bs : List Byte) :
    (takeDisp32 bs).map (fun _ => a) = if 4 ≤ bs.length then some a else none := by
  rcases bs with _ | ⟨_, _ | ⟨_, _ | ⟨_, _ | ⟨_, _⟩⟩⟩⟩ <;> simp [takeDisp32]

/-- The displacement behind a base register is read exactly where the bytes that `mod`
announces are there. -/
theorem takeDisp_map_len (md : BitVec 2) (bs : List Byte) :
    (takeDisp md bs).map Disp.len = if dispLen md ≤ bs.length then some (dispLen md) else none := by
  unfold takeDisp dispLen
  split
  · simp [Disp.len]
  split
  · cases bs <;> simp [Disp.len]
  · rw [Option.map_map]
    exact takeDisp32_map_const 4 bs

/-- The table of R66, by the fields of ModRM and of the SIB byte. -/
theorem tailLength_eq (modrm sib : Byte) :
    tailLength modrm sib =
      if bits modrm 6 2 = 3#2 then 0
      else if bits modrm 0 3 = 4#3 then
        if bits modrm 6 2 = 0#2 ∧ bits sib 0 3 = 5#3 then 5 else 1 + dispLen (bits modrm 6 2)
      else if bits modrm 6 2 = 0#2 ∧ bits modrm 0 3 = 5#3 then 4
      else dispLen (bits modrm 6 2) := by
  unfold tailLength
  generalize bits modrm 6 2 = md, bits modrm 0 3 = rm, bits sib 0 3 = b
  revert md rm b
  decide

/-- A memory operand is read exactly where the bytes that the table of R66 gives are there,
and those are its length. -/
theorem decodeMem_map_len {modrm : Byte} (hmod : bits modrm 6 2 ≠ 3#2) (x b : Bool)
    (bs : List Byte) :
    (decodeMem (bits modrm 6 2) (bits modrm 0 3) x b bs).map MemForm.len =
      if tailLength modrm (bs.headD 0#8) ≤ bs.length then
        some (tailLength modrm (bs.headD 0#8)) else none := by
  unfold decodeMem
  by_cases hsib : bits modrm 0 3 = 4#3
  · rw [if_pos hsib]
    cases bs with
    | nil =>
      rw [List.headD_nil, tailLength_eq, if_neg hmod, if_pos hsib, if_neg]
      · rfl
      · split <;> simp
    | cons sib rest =>
      rw [List.headD_cons, List.length_cons, tailLength_eq, if_neg hmod, if_pos hsib]
      by_cases hbase : bits modrm 6 2 = 0#2 ∧ bits sib 0 3 = 5#3
      · simp only [if_pos hbase, Option.map_map]
        refine (takeDisp32_map_const 5 rest).trans ?_
        simp
      · simp only [if_neg hbase, Option.map_map]
        have h := congrArg (Option.map (1 + ·)) (takeDisp_map_len (bits modrm 6 2) rest)
        rw [Option.map_map] at h
        refine h.trans ?_
        simp [Nat.add_comm 1]
  · rw [if_neg hsib, tailLength_eq, if_neg hmod, if_neg hsib]
    by_cases hbase : bits modrm 6 2 = 0#2 ∧ bits modrm 0 3 = 5#3
    · simp only [if_pos hbase, Option.map_map]
      exact takeDisp32_map_const 4 bs
    · simp only [if_neg hbase, Option.map_map]
      exact takeDisp_map_len _ bs

/-- Operand 2 of a VEX form is read exactly where the bytes that the table of R66 gives are
there, and those are its length. -/
theorem decodeVexSrc_map_len (modrm : Byte) (x b : Bool) (bs : List Byte) :
    (decodeVexSrc modrm x b bs).map VexSrc.len =
      if tailLength modrm (bs.headD 0#8) ≤ bs.length then
        some (tailLength modrm (bs.headD 0#8)) else none := by
  unfold decodeVexSrc
  split
  next hmod => simp [tailLength_eq, hmod, VexSrc.len]
  next hmod =>
    rw [Option.map_map]
    exact decodeMem_map_len hmod x b bs

/-- Operand 2 of an EVEX form is read exactly where the bytes that the table of R66 gives are
there, and those are its length. -/
theorem decodeEvexSrc_map_len (modrm : Byte) (x b : Bool) (bs : List Byte) :
    (decodeEvexSrc modrm x b bs).map EvexSrc.len =
      if tailLength modrm (bs.headD 0#8) ≤ bs.length then
        some (tailLength modrm (bs.headD 0#8)) else none := by
  unfold decodeEvexSrc
  split
  next hmod => simp [tailLength_eq, hmod, EvexSrc.len]
  next hmod =>
    rw [Option.map_map]
    exact decodeMem_map_len hmod x b bs

/-- What a reader with such a law has read is as long as the law says, and its bytes are there. -/
theorem len_of_map_len {α : Type} {o : Option α} {len : α → Nat} {n k : Nat} {a : α}
    (h : o.map len = if n ≤ k then some n else none) (ha : o = some a) : len a = n ∧ n ≤ k := by
  rw [ha] at h
  split at h
  next hle => exact ⟨Option.some.inj h, hle⟩
  · cases h

/-- The table's length is at most 5. -/
theorem tailLength_le (modrm sib : Byte) : tailLength modrm sib ≤ 5 := by
  have hd : dispLen (bits modrm 6 2) ≤ 4 := by
    unfold dispLen
    (repeat' split) <;> decide
  rw [tailLength_eq]
  (repeat' split) <;> omega

/-! ### An answer does not change when more bytes follow (R67) -/

/-- What is read from some bytes is read from them when more follow. -/
def Extends {α : Type} (read : List Byte → Option α) : Prop :=
  ∀ (bs more : List Byte) (a : α), read bs = some a → read (bs ++ more) = some a

theorem Extends.const {α : Type} (o : Option α) : Extends fun _ => o := fun _ _ _ h => h

theorem Extends.map {α β : Type} {read : List Byte → Option α} (h : Extends read) (f : α → β) :
    Extends fun bs => (read bs).map f := by
  intro bs more b hb
  obtain ⟨a, ha, rfl⟩ := Option.map_eq_some_iff.mp hb
  simp only [h bs more a ha, Option.map_some]

theorem Extends.ite {α : Type} {c : Prop} [Decidable c] {read read' : List Byte → Option α}
    (h : Extends read) (h' : Extends read') : Extends fun bs => if c then read bs else read' bs := by
  by_cases hc : c
  · simpa only [if_pos hc] using h
  · simpa only [if_neg hc] using h'

/-- A reader that needs a first byte, by what it reads behind it. -/
theorem Extends.of_cons {α : Type} {read : List Byte → Option α} (hnil : read [] = none)
    (hcons : ∀ b, Extends fun bs => read (b :: bs)) : Extends read := by
  intro bs more a h
  cases bs with
  | nil => simp [hnil] at h
  | cons b rest => exact hcons b rest more a h

theorem takeDisp32_extends : Extends takeDisp32 :=
  .of_cons rfl fun _ => .of_cons rfl fun _ => .of_cons rfl fun _ => .of_cons rfl fun _ => .const _

theorem takeDisp_extends (md : BitVec 2) : Extends (takeDisp md) := by
  unfold takeDisp
  exact .ite (.const _) (.ite (.of_cons rfl fun _ => .const _) (takeDisp32_extends.map _))

theorem decodeMem_extends (md : BitVec 2) (rm : BitVec 3) (x b : Bool) :
    Extends (decodeMem md rm x b) := by
  unfold decodeMem
  exact .ite
    (.of_cons rfl fun _ => .ite (takeDisp32_extends.map _) ((takeDisp_extends md).map _))
    (.ite (takeDisp32_extends.map _) ((takeDisp_extends md).map _))

theorem decodeVexSrc_extends (modrm : Byte) (x b : Bool) : Extends (decodeVexSrc modrm x b) := by
  unfold decodeVexSrc
  exact .ite (.const _) ((decodeMem_extends _ _ x b).map _)

theorem decodeEvexSrc_extends (modrm : Byte) (x b : Bool) :
    Extends (decodeEvexSrc modrm x b) := by
  unfold decodeEvexSrc
  exact .ite (.const _) ((decodeMem_extends _ _ x b).map _)

/-- What is answered on some bytes, a refusal apart, is answered on them when more follow. -/
def Stable (dec : List Byte → Decoded) : Prop :=
  ∀ bs more : List Byte, (∀ why, dec bs ≠ .refuse why) → dec (bs ++ more) = dec bs

theorem Stable.const (d : Decoded) : Stable fun _ => d := fun _ _ _ => rfl

theorem Stable.ite {c : Prop} [Decidable c] {dec dec' : List Byte → Decoded}
    (h : Stable dec) (h' : Stable dec') : Stable fun bs => if c then dec bs else dec' bs := by
  by_cases hc : c
  · simpa only [if_pos hc] using h
  · simpa only [if_neg hc] using h'

/-- A line that asks for a byte, by the lines behind it. -/
theorem Stable.withByte {f : Byte → List Byte → Decoded} (h : ∀ b, Stable (f b)) :
    Stable fun bs => withByte bs f := by
  intro bs more hbs
  cases bs with
  | nil => exact absurd rfl (hbs .truncated)
  | cons b rest => exact h b rest more hbs

/-- A line that answers from an operand, and refuses where the operand is not whole. -/
theorem Stable.of_some {α : Type} {read : List Byte → Option α} {dec : List Byte → Decoded}
    (hread : Extends read) (hnone : ∀ bs, read bs = none → dec bs = .refuse .truncated)
    (hsome : ∀ bs bs' a, read bs = some a → read bs' = some a → dec bs' = dec bs) :
    Stable dec := by
  intro bs more hbs
  cases h : read bs with
  | none => exact absurd (hnone bs h) (hbs _)
  | some a => exact hsome bs _ a h (hread bs more a h)

/-- The lines of the VEX branch, in their order. -/
theorem decodeVex_stable (m : Mode) : Stable (decodeVex m) := by
  unfold decodeVex
  refine .withByte fun v1 => .ite (.const _) <| .ite (.const _) <| .withByte fun v2 =>
    .ite (.const _) <| .withByte fun op => .ite (.const _) <| .ite (.const _) <|
    .ite (.const _) <| .ite (.const _) <| .withByte fun modrm =>
    .of_some (decodeVexSrc_extends modrm (!v1.getLsbD 6) (!v1.getLsbD 5)) (fun _ h => ?_)
    (fun _ _ _ h h' => ?_)
  · rw [h]
  · rw [h, h']

/-- The lines of the EVEX branch, in their order. -/
theorem decodeEvex_stable (m : Mode) : Stable (decodeEvex m) := by
  unfold decodeEvex
  refine .withByte fun p0 => .ite (.const _) <| .ite (.const _) <| .withByte fun p1 =>
    .ite (.const _) <| .ite (.const _) <| .withByte fun p2 => .withByte fun op =>
    .ite (.const _) <| .ite (.const _) <| .ite (.const _) <| .ite (.const _) <|
    .ite (.const _) <| .ite (.const _) <|
    .ite (.withByte fun modrm => .ite (.const _) <| .ite (.const _) (.const _)) <|
    .ite (.const _) <| .withByte fun modrm =>
    .of_some (decodeEvexSrc_extends modrm (!p0.getLsbD 6) (!p0.getLsbD 5)) (fun _ h => ?_)
    (fun _ _ _ h h' => ?_)
  · rw [h]
  · rw [h, h']

/-! ### The first byte (R64, R65) -/

/-- `LOCK`, `66h`, `F2h`, `F3h` or `REX` before bytes that are not refused is `UD` (R64). -/
theorem decode_udPrefix {m : Mode} {b : Byte} {rest : List Byte} (hb : isUdPrefix m b = true)
    (h : ∀ why, decode m rest ≠ .refuse why) : decode m (b :: rest) = .ud := by
  rw [decode, if_pos hb]
  split
  · rfl
  · rfl
  next why hw => exact absurd hw (h why)

/-- `LOCK`, `66h`, `F2h`, `F3h` or `REX` before bytes that are refused is refused (R67). -/
theorem decode_udPrefix_refuse {m : Mode} {b : Byte} {rest : List Byte} {why : DecodeRefusal}
    (hb : isUdPrefix m b = true) (h : decode m rest = .refuse why) :
    decode m (b :: rest) = .refuse .notVcvtph2ps := by
  rw [decode, if_pos hb, h]

/-- Any other first byte decides alone which lines follow. -/
theorem decode_cons {m : Mode} {b : Byte} (hb : isUdPrefix m b = false) (rest : List Byte) :
    decode m (b :: rest) =
      if isRefusedPrefix b then .refuse .legacyPrefix
      else if b = 0xC4#8 then decodeVex m rest
      else if b = 0x62#8 then decodeEvex m rest
      else .refuse .notVcvtph2ps := by
  rw [decode, if_neg (by simp [hb])]

/-- The decoder's answer, a refusal apart, through any number of prefixes. -/
theorem decode_stable (m : Mode) : Stable (decode m) := by
  intro bs more hbs
  induction bs with
  | nil => exact absurd rfl (hbs .truncated)
  | cons b rest ih =>
    cases hb : isUdPrefix m b with
    | true =>
      have hrest : ∀ why, decode m rest ≠ .refuse why :=
        fun _ h => hbs _ (decode_udPrefix_refuse hb h)
      rw [List.cons_append, decode_udPrefix hb hrest, decode_udPrefix hb (ih hrest ▸ hrest)]
    | false =>
      have hline : Stable fun rest => decode m (b :: rest) := by
        simp only [decode_cons hb]
        exact .ite (.const _) (.ite (decodeVex_stable m) (.ite (decodeEvex_stable m) (.const _)))
      exact hline rest more hbs

/-- Settles O4: every line of the decoder is stable, and neither answer is a refusal. -/
theorem decodingIgnoresWhatFollows : Obligations.DecodingIgnoresWhatFollows := by
  intro m bs more
  have h := decode_stable m bs more
  exact ⟨fun i hi => by rw [h (by simp [hi]), hi], fun hu => by rw [h (by simp [hu]), hu]⟩

/-- Settles O13: the line 'otherwise' of R67. -/
theorem otherFirstByteRefused : Obligations.OtherFirstByteRefused := by
  intro m b rest hvex hevex hud hrefused
  rw [decode_cons hud, if_neg (by simp [hrefused]), if_neg hvex, if_neg hevex]

/-- An instruction is decoded from a VEX or an EVEX escape only. -/
theorem decode_instr {m : Mode} {bs : List Byte} {i : Instr} (h : decode m bs = .instr i) :
    (∃ rest, bs = 0xC4#8 :: rest ∧ decodeVex m rest = .instr i) ∨
    (∃ rest, bs = 0x62#8 :: rest ∧ decodeEvex m rest = .instr i) := by
  cases bs with
  | nil => cases h
  | cons b rest =>
    cases hb : isUdPrefix m b with
    | true =>
      cases hd : decode m rest with
      | refuse why => simp [decode_udPrefix_refuse hb hd] at h
      | instr | ud => simp [decode_udPrefix hb (rest := rest) (by simp [hd])] at h
    | false =>
      rw [decode_cons hb] at h
      replace h := else_instr h nofun
      split at h
      next he => exact .inl ⟨rest, by rw [he], h⟩
      split at h
      next he => exact .inr ⟨rest, by rw [he], h⟩
      · cases h

/-! ### What is decoded is well-formed (R51 to R53, R58, R63) -/

/-- The low bits of a register number are its field. -/
theorem setWidth_ofBool_append (e : Bool) (r : BitVec 3) :
    (BitVec.ofBool e ++ r).setWidth 3 = r := by
  revert e r; decide

/-- A register number without its extension bit is below 8. -/
theorem toNat_ofBool_append_lt {e : Bool} (h : e = false) (r : BitVec 3) :
    (BitVec.ofBool e ++ r).toNat < 8 := by
  subst h; revert r; decide

theorem gprOk_append {m : Mode} {e : Bool} (h : m = .m32 → e = false) (r : BitVec 3) :
    gprOk m (BitVec.ofBool e ++ r) = true := by
  cases m with
  | m64 => rfl
  | m32 => exact decide_eq_true (toNat_ofBool_append_lt (h rfl) r)

/-- No displacement is read only for `mod = 00b`, where `101b` means no base register. -/
theorem takeDisp_okWithBase {md : BitVec 2} {bs : List Byte} {d : Disp} {low : BitVec 3}
    (h : takeDisp md bs = some d) (hbase : ¬ (md = 0#2 ∧ low = 5#3)) :
    d.okWithBase low = true := by
  cases d with
  | d8 | d32 => rfl
  | none =>
    have hlen := (len_of_map_len (takeDisp_map_len md bs) h).1
    have hmd : md = 0#2 := by
      unfold dispLen at hlen
      split at hlen
      · assumption
      · split at hlen <;> cases hlen
    simpa [Disp.okWithBase, hmd] using hbase

/-- A memory operand that is read is well-formed, in 32-bit mode where the extension bits are
clear. -/
theorem decodeMem_wf {m : Mode} {md : BitVec 2} {rm : BitVec 3} {x b : Bool} {bs : List Byte}
    {f : MemForm} (hext : m = .m32 → x = false ∧ b = false)
    (h : decodeMem md rm x b bs = some f) : f.wf m = true := by
  have hx : m = .m32 → x = false := fun hm => (hext hm).1
  have hb : m = .m32 → b = false := fun hm => (hext hm).2
  unfold decodeMem at h
  split at h
  · cases bs with
    | nil => cases h
    | cons sib rest =>
      simp only at h
      split at h <;> obtain ⟨d, hd, rfl⟩ := Option.map_eq_some_iff.mp h
      · exact gprOk_append hx _
      next hbase =>
        simp [MemForm.wf, gprOk_append hx, gprOk_append hb, setWidth_ofBool_append,
          takeDisp_okWithBase hd hbase]
  next hsib =>
    split at h <;> obtain ⟨d, hd, rfl⟩ := Option.map_eq_some_iff.mp h
    · rfl
    next hbase =>
      simp [MemForm.wf, gprOk_append hb, setWidth_ofBool_append, hsib,
        takeDisp_okWithBase hd hbase]

/-- The destination of a VEX form is a register of the mode. -/
theorem nvec_vex {m : Mode} {e : Bool} (h : m = .m32 → e = false) (r : BitVec 3) :
    (BitVec.ofBool e ++ r).toNat < nvec m false := by
  cases m with
  | m64 => exact (BitVec.ofBool e ++ r).isLt
  | m32 => exact toNat_ofBool_append_lt (h rfl) r

/-- The destination of an EVEX form is a register of the mode. -/
theorem nvec_evex {m : Mode} {e e' : Bool} (h : m = .m32 → e' = false ∧ e = false)
    (r : BitVec 3) : (BitVec.ofBool e' ++ BitVec.ofBool e ++ r).toNat < nvec m true := by
  cases m with
  | m64 => exact (BitVec.ofBool e' ++ BitVec.ofBool e ++ r).isLt
  | m32 =>
    obtain ⟨rfl, rfl⟩ := h rfl
    revert r
    decide

theorem decodeVexSrc_wf {m : Mode} {modrm : Byte} {x b : Bool} {bs : List Byte} {src : VexSrc}
    (hext : m = .m32 → x = false ∧ b = false) (h : decodeVexSrc modrm x b bs = some src) :
    src.wf m = true := by
  unfold decodeVexSrc at h
  split at h
  · cases h
    exact decide_eq_true (nvec_vex (fun hm => (hext hm).2) _)
  · obtain ⟨f, hf, rfl⟩ := Option.map_eq_some_iff.mp h
    exact decodeMem_wf hext hf

theorem decodeEvexSrc_wf {m : Mode} {modrm : Byte} {x b : Bool} {bs : List Byte} {src : EvexSrc}
    (hext : m = .m32 → x = false ∧ b = false) (h : decodeEvexSrc modrm x b bs = some src) :
    src.wf m = true := by
  unfold decodeEvexSrc at h
  split at h
  · cases h
    exact decide_eq_true (nvec_evex hext _)
  · obtain ⟨f, hf, rfl⟩ := Option.map_eq_some_iff.mp h
    exact decodeMem_wf hext hf

/-- A check that answers no instruction was passed, and its condition was not met. -/
theorem not_and_else_instr {c : Prop} [Decidable c] {d e : Decoded} {i : Instr}
    (h : (if c then d else e) = .instr i) (hd : d ≠ .instr i) : ¬ c ∧ e = .instr i := by
  refine ⟨fun hc => ?_, else_instr h hd⟩
  rw [if_pos hc] at h
  exact hd h

/-- The top two bits of a byte, one by one. -/
theorem bits_top_eq_three (v : Byte) :
    bits v 6 2 = 3#2 ↔ v.getLsbD 7 = true ∧ v.getLsbD 6 = true := by
  revert v; decide

/-- What a VEX encoding that decodes to an instruction decodes to, and the bits stored 1 in
32-bit mode (R58). -/
theorem decodeVex_cons_instr {m : Mode} {v1 v2 op modrm : Byte} {rest : List Byte} {i : Instr}
    (h : decodeVex m (v1 :: v2 :: op :: modrm :: rest) = .instr i) :
    (m = .m32 → v1.getLsbD 7 = true ∧ v1.getLsbD 6 = true ∧ v1.getLsbD 5 = true) ∧
    ∃ src, decodeVexSrc modrm (!v1.getLsbD 6) (!v1.getLsbD 5) rest = some src ∧
      (i = .vex256 (vexDst v1 modrm) src ∨ i = .vex128 (vexDst v1 modrm) src) := by
  rw [decodeVex_cons] at h
  obtain ⟨htop, h⟩ := not_and_else_instr h nofun
  replace h := else_instr h nofun
  obtain ⟨hb, h⟩ := not_and_else_instr h nofun
  iterate 2 replace h := else_instr h nofun
  refine ⟨fun hm => ?_, ?_⟩
  · simp only [hm, true_and, not_not, bits_top_eq_three] at htop
    simp only [hm, true_and, Bool.not_eq_false] at hb
    exact ⟨htop.1, htop.2, hb⟩
  · cases hsrc : decodeVexSrc modrm (!v1.getLsbD 6) (!v1.getLsbD 5) rest with
    | none =>
      rw [hsrc] at h
      cases h
    | some src =>
      rw [hsrc] at h
      refine ⟨src, rfl, ?_⟩
      by_cases hl : v2.getLsbD 2 = true
      · exact .inl (Decoded.instr.inj ((if_pos hl).symm.trans h)).symm
      · exact .inr (Decoded.instr.inj ((if_neg hl).symm.trans h)).symm

/-- The plain EVEX form of each `L'L`. -/
theorem evexOfLL_instr {ll : BitVec 2} {dst : BitVec 5} {src : EvexSrc} {aaa : BitVec 3}
    {z : Bool} {i : Instr} (h : evexOfLL ll dst src aaa z = .instr i) :
    i = .evex128 dst src aaa z ∨ i = .evex256 dst src aaa z ∨ i = .evex512 dst src aaa z := by
  unfold evexOfLL at h
  split at h
  · exact .inl (Decoded.instr.inj h).symm
  split at h
  · exact .inr (.inl (Decoded.instr.inj h).symm)
  split at h
  · exact .inr (.inr (Decoded.instr.inj h).symm)
  · cases h

/-- Zeroing is for a writemask only (R63). -/
theorem maskOk_iff {aaa : BitVec 3} {z : Bool} :
    maskOk aaa z = true ↔ (z = true → aaa ≠ 0#3) := by
  cases z <;> simp [maskOk]

/-- What an EVEX encoding that decodes to an instruction decodes to, its mask (R63), and the
bits stored 1 in 32-bit mode (R58). -/
theorem decodeEvex_cons_instr {m : Mode} {p0 p1 p2 op modrm : Byte} {rest : List Byte}
    {i : Instr} (h : decodeEvex m (p0 :: p1 :: p2 :: op :: modrm :: rest) = .instr i) :
    (m = .m32 → p0.getLsbD 7 = true ∧ p0.getLsbD 6 = true ∧ p0.getLsbD 5 = true ∧
      p0.getLsbD 4 = true) ∧
    maskOk (bits p2 0 3) (p2.getLsbD 7) = true ∧
    ((bits modrm 6 2 = 3#2 ∧ i = .evex512Sae (evexDst p0 modrm)
        (BitVec.ofBool (!p0.getLsbD 6) ++ BitVec.ofBool (!p0.getLsbD 5) ++ bits modrm 0 3)
        (bits p2 0 3) (p2.getLsbD 7)) ∨
      ∃ src, decodeEvexSrc modrm (!p0.getLsbD 6) (!p0.getLsbD 5) rest = some src ∧
        (i = .evex128 (evexDst p0 modrm) src (bits p2 0 3) (p2.getLsbD 7) ∨
          i = .evex256 (evexDst p0 modrm) src (bits p2 0 3) (p2.getLsbD 7) ∨
          i = .evex512 (evexDst p0 modrm) src (bits p2 0 3) (p2.getLsbD 7))) := by
  rw [decodeEvex_cons] at h
  obtain ⟨htop, h⟩ := not_and_else_instr h nofun
  iterate 2 replace h := else_instr h nofun
  obtain ⟨hbits, h⟩ := not_and_else_instr h nofun
  iterate 3 replace h := else_instr h nofun
  obtain ⟨hmask, h⟩ := not_and_else_instr h nofun
  obtain ⟨hmem, h⟩ := not_and_else_instr h nofun
  iterate 2 replace h := else_instr h nofun
  refine ⟨fun hm => ?_, ?_, ?_⟩
  · simp only [hm, true_and, not_not, bits_top_eq_three] at htop
    simp only [hm, true_and, not_or, Bool.not_eq_false] at hbits
    exact ⟨htop.1, htop.2, hbits.1, hbits.2.1⟩
  · exact maskOk_iff.mpr (not_and.mp hmask)
  · cases hsae : p2.getLsbD 4 with
    | true =>
      simp only [hsae, true_and, not_not] at hmem
      simp only [hsae, if_true] at h
      exact .inl ⟨hmem, (Decoded.instr.inj h).symm⟩
    | false =>
      simp only [hsae, Bool.false_eq_true, if_false] at h
      cases hsrc : decodeEvexSrc modrm (!p0.getLsbD 6) (!p0.getLsbD 5) rest with
      | none =>
        rw [hsrc] at h
        cases h
      | some src =>
        rw [hsrc] at h
        exact .inr ⟨src, rfl, evexOfLL_instr h⟩

/-- A decoded VEX form is well-formed, and as long as the table of R66 says, all of it there. -/
theorem decodeVex_cons_wf_len {m : Mode} {v1 v2 op modrm : Byte} {rest : List Byte} {i : Instr}
    (h : decodeVex m (v1 :: v2 :: op :: modrm :: rest) = .instr i) :
    i.wf m = true ∧ i.len = 3 + 2 + tailLength modrm (rest.headD 0#8) ∧
      tailLength modrm (rest.headD 0#8) ≤ rest.length := by
  obtain ⟨hbits, src, hsrc, hi⟩ := decodeVex_cons_instr h
  obtain ⟨hlen, hfits⟩ := len_of_map_len (decodeVexSrc_map_len ..) hsrc
  have hext : m = .m32 → (!v1.getLsbD 6) = false ∧ (!v1.getLsbD 5) = false := fun hm => by
    simp [hbits hm]
  have hdst : (vexDst v1 modrm).toNat < nvec m false := nvec_vex (fun hm => by simp [hbits hm]) _
  have hwf : src.wf m = true := decodeVexSrc_wf hext hsrc
  rcases hi with rfl | rfl
  all_goals exact ⟨by simp only [Instr.wf, hdst, hwf, decide_true, Bool.and_self],
    by rw [Instr.len, hlen], hfits⟩

/-- A decoded EVEX form is well-formed, and as long as the table of R66 says, all of it there. -/
theorem decodeEvex_cons_wf_len {m : Mode} {p0 p1 p2 op modrm : Byte} {rest : List Byte}
    {i : Instr} (h : decodeEvex m (p0 :: p1 :: p2 :: op :: modrm :: rest) = .instr i) :
    i.wf m = true ∧ i.len = 4 + 2 + tailLength modrm (rest.headD 0#8) ∧
      tailLength modrm (rest.headD 0#8) ≤ rest.length := by
  obtain ⟨hbits, hmask, hi⟩ := decodeEvex_cons_instr h
  have hext : m = .m32 → (!p0.getLsbD 6) = false ∧ (!p0.getLsbD 5) = false := fun hm => by
    simp [hbits hm]
  have hdst : (evexDst p0 modrm).toNat < nvec m true := nvec_evex (fun hm => by simp [hbits hm]) _
  rcases hi with ⟨hmod, rfl⟩ | ⟨src, hsrc, hi⟩
  · rw [tailLength_eq, if_pos hmod]
    exact ⟨by simp only [Instr.wf, hdst, nvec_evex hext, hmask, decide_true, Bool.and_self], rfl,
      Nat.zero_le _⟩
  · obtain ⟨hlen, hfits⟩ := len_of_map_len (decodeEvexSrc_map_len ..) hsrc
    have hwf : src.wf m = true := decodeEvexSrc_wf hext hsrc
    rcases hi with rfl | rfl | rfl
    all_goals exact ⟨by simp only [Instr.wf, hdst, hwf, hmask, decide_true, Bool.and_self],
      by rw [Instr.len, hlen], hfits⟩

/-- What is decoded is well-formed, and its bytes are there. -/
theorem decode_wf_fits {m : Mode} {bs : List Byte} {i : Instr} (h : decode m bs = .instr i) :
    i.wf m = true ∧ i.len ≤ bs.length := by
  rcases decode_instr h with ⟨rest, rfl, hd⟩ | ⟨rest, rfl, hd⟩
  · obtain ⟨v1, v2, op, modrm, rest, rfl⟩ := decodeVex_instr hd
    obtain ⟨hwf, hlen, hfits⟩ := decodeVex_cons_wf_len hd
    exact ⟨hwf, by simp only [List.length_cons]; omega⟩
  · obtain ⟨p0, p1, p2, op, modrm, rest, rfl⟩ := decodeEvex_instr hd
    obtain ⟨hwf, hlen, hfits⟩ := decodeEvex_cons_wf_len hd
    exact ⟨hwf, by simp only [List.length_cons]; omega⟩

/-- Settles O2: the destination and operand 2 are of the mode, and the operand was read from
bytes that are there. -/
theorem decodedIsWellFormedAndFits : Obligations.DecodedIsWellFormedAndFits :=
  fun _ _ _ h => decode_wf_fits h

/-- Settles O3: the VEX or EVEX bytes, the opcode and ModRM, and what the table gives for operand 2. -/
theorem decodedLengthIsTable : Obligations.DecodedLengthIsTable := by
  refine ⟨fun m v1 v2 op modrm rest i h => ?_, fun m p0 p1 p2 op modrm rest i h => ?_⟩
  all_goals have htail := tailLength_le modrm (rest.headD 0#8)
  · rw [decode_vex] at h
    obtain ⟨-, hlen, -⟩ := decodeVex_cons_wf_len h
    exact ⟨hlen, by omega⟩
  · rw [decode_evex] at h
    obtain ⟨-, hlen, -⟩ := decodeEvex_cons_wf_len h
    exact ⟨hlen, by omega⟩

/-! ### The lines of R67 on the bytes they name -/

/-- Where the bits are stored 1 that a line asks for in 32-bit mode, the line does not answer. -/
theorem not_m32_and_not {m : Mode} {p q : Prop} (h : m = .m32 → p) (hq : q → ¬ p) :
    ¬ (m = .m32 ∧ q) :=
  fun ⟨hm, hq'⟩ => hq hq' (h hm)

/-- Stored `R`, `X` and `B` all 1. -/
theorem bits_ext_eq_seven {v : Byte} (h : bits v 5 3 = 7#3) :
    bits v 6 2 = 3#2 ∧ v.getLsbD 5 = true := by
  revert v; decide

/-- Stored `R`, `X`, `B` and `R'` all 1. -/
theorem bits_ext_eq_fifteen {v : Byte} (h : bits v 4 4 = 15#4) :
    bits v 6 2 = 3#2 ∧ v.getLsbD 5 = true ∧ v.getLsbD 4 = true := by
  revert v; decide

/-- A VEX encoding of the instruction but for `W` or `vvvv` is `UD` at the opcode byte (R60). -/
theorem decode_vex_ud {m : Mode} {v1 v2 : Byte} (rest : List Byte)
    (hext : m = .m32 → bits v1 5 3 = 7#3) (hmap : bits v1 0 5 = 2#5) (hpp : bits v2 0 2 = 1#2)
    (hres : v2.getLsbD 7 = true ∨ bits v2 3 4 ≠ 15#4) :
    decode m (0xC4#8 :: v1 :: v2 :: 0x13#8 :: rest) = .ud := by
  have htop : m = .m32 → bits v1 6 2 = 3#2 := fun hm => (bits_ext_eq_seven (hext hm)).1
  have hb : m = .m32 → v1.getLsbD 5 = true := fun hm => (bits_ext_eq_seven (hext hm)).2
  simp only [decode_vex, decodeVex, withByte_cons]
  rw [if_neg (not_m32_and_not htop id), if_neg (not_not_intro hmap), if_neg (not_not_intro hpp),
    if_neg (not_not_intro rfl), if_neg (not_m32_and_not hb (by simp)), ← ite_or, if_pos hres]

/-- The reserved fields of an EVEX encoding (R60, R61, and R63 for zeroing). -/
def evexReserved (p0 p1 p2 : Byte) : Prop :=
  bits p0 2 2 ≠ 0#2 ∨ p1.getLsbD 2 = false ∨ p1.getLsbD 7 = true ∨ bits p1 3 4 ≠ 15#4 ∨
    p2.getLsbD 3 = false ∨ (p2.getLsbD 7 = true ∧ bits p2 0 3 = 0#3) ∨
    (bits p2 5 2 = 3#2 ∧ p2.getLsbD 4 = false)

/-- With the extension bits stored 1 in 32-bit mode, none of them is stored 0 there. -/
theorem not_evexExtBit_m32 {m : Mode} {p0 p2 : Byte}
    (hext : m = .m32 → bits p0 4 4 = 15#4 ∧ p2.getLsbD 3 = true) :
    ¬ (m = .m32 ∧ (p0.getLsbD 5 = false ∨ p0.getLsbD 4 = false ∨ p2.getLsbD 3 = false)) := by
  rintro ⟨hm, h⟩
  obtain ⟨hp0, hv'⟩ := hext hm
  obtain ⟨-, hb, hr'⟩ := bits_ext_eq_fifteen hp0
  simp only [hb, hr', hv', Bool.true_eq_false, or_self] at h

/-- An EVEX encoding of the map, `pp` and opcode is `UD` at the opcode byte where a reserved
field is not as it must be. -/
theorem decode_evex_ud {m : Mode} {p0 p1 p2 : Byte} (rest : List Byte)
    (hext : m = .m32 → bits p0 4 4 = 15#4 ∧ p2.getLsbD 3 = true) (hmm : bits p0 0 2 = 2#2)
    (hpp : bits p1 0 2 = 1#2) (hres : evexReserved p0 p1 p2) :
    decode m (0x62#8 :: p0 :: p1 :: p2 :: 0x13#8 :: rest) = .ud := by
  have htop : m = .m32 → bits p0 6 2 = 3#2 := fun hm => (bits_ext_eq_fifteen (hext hm).1).1
  simp only [decode_evex, decodeEvex, withByte_cons]
  rw [if_neg (not_m32_and_not htop id), ite_eq_left_iff]
  intro hzero
  rw [ite_eq_left_iff]
  intro hone
  rw [if_neg (by simp [hmm, hpp]), if_neg (not_not_intro rfl),
    if_neg (not_evexExtBit_m32 hext), ite_eq_left_iff]
  intro hw
  rw [ite_eq_left_iff]
  intro hv
  rw [ite_eq_left_iff]
  intro hv'
  rw [ite_eq_left_iff]
  intro hz
  obtain ⟨hll, hb⟩ : bits p2 5 2 = 3#2 ∧ p2.getLsbD 4 = false := by
    unfold evexReserved at hres
    tauto
  rw [if_neg (ne_true_of_eq_false hb), if_pos hll]

/-- Settles O5: each line answers at the last byte it names. -/
theorem shortStringsAreDecided : Obligations.ShortStringsAreDecided := by
  refine ⟨fun m v1 rest hmap => ?_, fun m v1 v2 rest hpp _ _ => ?_,
    fun m v1 v2 rest hext hmap hpp hres => decode_vex_ud rest hext hmap hpp hres,
    fun m p0 rest htop hzero => ?_, fun m p0 p1 rest htop hone => ?_,
    fun m p0 p1 rest _ hzero hone hother => ?_⟩
  · simp [decode_vex, decodeVex, hmap]
  · simp [decode_vex, decodeVex, hpp]
  · simp only [decode_evex, decodeEvex, withByte_cons, if_neg (not_m32_and_not htop id),
      if_pos hzero]
  · simp only [decode_evex, decodeEvex, withByte_cons, if_neg (not_m32_and_not htop id),
      if_pos hone, ite_self]
  · simp only [decode_evex, decodeEvex, withByte_cons, hzero, hone, if_pos hother, ite_self,
      ne_eq, not_true_eq_false, Bool.true_eq_false, if_false]

/-- A VEX encoding of another map, `pp` or opcode byte is another instruction (R61). -/
theorem decode_vex_other {m : Mode} {v1 v2 op : Byte} (rest : List Byte)
    (h : bits v1 0 5 ≠ 2#5 ∨ bits v2 0 2 ≠ 1#2 ∨ op ≠ 0x13#8) :
    decode m (0xC4#8 :: v1 :: v2 :: op :: rest) = .refuse .notVcvtph2ps := by
  simp only [decode_vex, decodeVex, withByte_cons]
  rw [← ite_or, ← ite_or, ← ite_or, if_pos]
  tauto

/-- An EVEX encoding of another `mm`, `pp` or opcode byte is another instruction where the
reserved bits of `P0` and `P1` are as they must be (R61). -/
theorem decode_evex_other {m : Mode} {p0 p1 p2 op : Byte} (rest : List Byte)
    (hzero : bits p0 2 2 = 0#2) (hone : p1.getLsbD 2 = true)
    (h : bits p0 0 2 ≠ 2#2 ∨ bits p1 0 2 ≠ 1#2 ∨ op ≠ 0x13#8) :
    decode m (0x62#8 :: p0 :: p1 :: p2 :: op :: rest) = .refuse .notVcvtph2ps := by
  simp only [decode_evex, decodeEvex, withByte_cons]
  rw [if_neg (not_not_intro hzero), if_neg (ne_false_of_eq_true hone), ← ite_or, ← ite_or, if_pos]
  tauto

/-! ### Register numbers (R51, R52) -/

/-- An extension bit, stored complemented, as a number. -/
theorem toNat_not_getLsbD (v : Byte) (k : Nat) :
    (!v.getLsbD k).toNat = 1 - (bits v k 1).toNat := by
  have h : bits v k 1 = BitVec.ofBool (v.getLsbD k) := by
    apply BitVec.eq_of_getLsbD_eq
    intro i hi
    simp [show i = 0 by omega]
  rw [h]
  cases v.getLsbD k <;> rfl

/-- A register number of four bits, as a number. -/
theorem toNat_ofBool_append (e : Bool) (r : BitVec 3) :
    (BitVec.ofBool e ++ r).toNat = 8 * e.toNat + r.toNat := by
  revert e r; decide

/-- A register number of five bits, as a number. -/
theorem toNat_ofBool_append_append (e' e : Bool) (r : BitVec 3) :
    (BitVec.ofBool e' ++ BitVec.ofBool e ++ r).toNat = 16 * e'.toNat + 8 * e.toNat + r.toNat := by
  revert e' e r; decide

/-- The byte `VEX1`, from its fields. -/
theorem vexByte1_of_fields {v1 : Byte} (h : bits v1 0 5 = 2#5) :
    vexByte1 (!v1.getLsbD 7) (!v1.getLsbD 6) (!v1.getLsbD 5) = v1 := by
  revert v1; decide

/-- The byte `VEX2` without reserved fields, from its length bit. -/
theorem vexByte2_of_fields {v2 : Byte} (h : v2 &&& 0xFB#8 = 0x79#8) :
    vexByte2 (v2.getLsbD 2) = v2 := by
  revert v2; decide

/-- The byte `P0`, from its fields. -/
theorem evexByte0_of_fields {p0 : Byte} (h : bits p0 0 4 = 2#4) :
    evexByte0 (!p0.getLsbD 7) (!p0.getLsbD 6) (!p0.getLsbD 5) (!p0.getLsbD 4) = p0 := by
  revert p0; decide

/-- The byte `P2`, from its fields. -/
theorem evexByte2_of_fields {p2 : Byte} (h : p2.getLsbD 3 = true) :
    evexByte2 (p2.getLsbD 7) (bits p2 5 2) (p2.getLsbD 4) (bits p2 0 3) = p2 := by
  revert p2; decide

theorem getLsbD_vexDst (v1 modrm : Byte) : (vexDst v1 modrm).getLsbD 3 = !v1.getLsbD 7 := by
  unfold vexDst
  generalize (!v1.getLsbD 7) = e, bits modrm 3 3 = r
  revert e r; decide

theorem evexDst_fields (p0 modrm : Byte) :
    (evexDst p0 modrm).getLsbD 3 = (!p0.getLsbD 7) ∧
    (evexDst p0 modrm).getLsbD 4 = (!p0.getLsbD 4) ∧
    bits modrm 3 3 = (evexDst p0 modrm).setWidth 3 := by
  unfold evexDst
  generalize (!p0.getLsbD 4) = e', (!p0.getLsbD 7) = e, bits modrm 3 3 = r
  revert e' e r; decide

/-- Settles O6: the bytes are those of the encoder, and `X` has no part in a register operand. -/
theorem vexRegisterNumbers : Obligations.VexRegisterNumbers := by
  intro v1 v2 modrm rest hmap hv2 hmod
  refine ⟨vexDst v1 modrm, BitVec.ofBool (!v1.getLsbD 5) ++ bits modrm 0 3, ?_, ?_, ?_⟩
  · have h := decode_vexBytes (m := .m64) (dst := vexDst v1 modrm) (x := !v1.getLsbD 6)
      (b := !v1.getLsbD 5) (l := v2.getLsbD 2) (rest := rest) (BitVec.isLt _) nofun
      (setWidth_ofBool_append _ _).symm (if_pos hmod)
    rw [getLsbD_vexDst, vexByte1_of_fields hmap, vexByte2_of_fields hv2] at h
    rw [h, apply_ite Decoded.instr]
  · rw [vexDst, toNat_ofBool_append, toNat_not_getLsbD]
  · rw [toNat_ofBool_append, toNat_not_getLsbD]

/-- Bits 3:0 of `P0` are its reserved bits and `mm`. -/
theorem bits_p0_low {p0 : Byte} (h : bits p0 0 4 = 2#4) :
    bits p0 2 2 = 0#2 ∧ bits p0 0 2 = 2#2 := by
  revert p0; decide

/-- An EVEX encoding with the fixed fields of R49, by its operand 2: the `{sae}` form where
`b = 1`, else the form that `L'L` selects. -/
theorem decode_evex_fixed {m : Mode} {p0 p2 modrm : Byte} {rest : List Byte} {src : EvexSrc}
    (hext : m = .m32 → bits p0 4 4 = 15#4) (hp0 : bits p0 0 4 = 2#4)
    (hv' : p2.getLsbD 3 = true) (hmask : p2.getLsbD 7 = true → bits p2 0 3 ≠ 0#3)
    (hll : bits p2 5 2 ≠ 3#2)
    (hsae : p2.getLsbD 4 = true → bits modrm 6 2 = 3#2 ∧ bits p2 5 2 = 2#2)
    (hsrc : decodeEvexSrc modrm (!p0.getLsbD 6) (!p0.getLsbD 5) rest = some src) :
    decode m (0x62#8 :: p0 :: 0x7D#8 :: p2 :: 0x13#8 :: modrm :: rest) =
      if p2.getLsbD 4 then
        .instr (.evex512Sae (evexDst p0 modrm)
          (BitVec.ofBool (!p0.getLsbD 6) ++ BitVec.ofBool (!p0.getLsbD 5) ++ bits modrm 0 3)
          (bits p2 0 3) (p2.getLsbD 7))
      else evexOfLL (bits p2 5 2) (evexDst p0 modrm) src (bits p2 0 3) (p2.getLsbD 7) := by
  have hbits (hm : m = .m32) := bits_ext_eq_fifteen (hext hm)
  have htop (hm : m = .m32) := (bits_top_eq_three p0).mp (hbits hm).1
  obtain ⟨hr, hr', hreg⟩ := evexDst_fields p0 modrm
  have hdst : (evexDst p0 modrm).toNat < nvec m true :=
    nvec_evex (fun hm => by simp [hbits hm, htop hm]) _
  have h := decode_evexBytes (sae := p2.getLsbD 4) hdst
    (fun hm => by simp [hbits hm, htop hm]) (maskOk_iff.mpr hmask) hreg hll hsae hsrc
  rw [hr, hr', evexByte0_of_fields hp0, evexByte2_of_fields hv'] at h
  exact h

/-- Settles O7: the bytes are those of the encoder, and `L'L` selects the form. -/
theorem evexRegisterNumbers : Obligations.EvexRegisterNumbers := by
  intro p0 p2 modrm rest hp0 hp2 hll hmask hmod
  obtain ⟨hv', hb⟩ : p2.getLsbD 3 = true ∧ p2.getLsbD 4 = false := by
    revert p2
    decide
  refine ⟨evexDst p0 modrm,
    BitVec.ofBool (!p0.getLsbD 6) ++ BitVec.ofBool (!p0.getLsbD 5) ++ bits modrm 0 3, ?_, ?_, ?_⟩
  · rw [decode_evex_fixed (m := .m64) nofun hp0 hv' hmask hll
      (absurd · (ne_true_of_eq_false hb)) (if_pos hmod), if_neg (ne_true_of_eq_false hb)]
  · simp only [evexDst, toNat_ofBool_append_append, toNat_not_getLsbD]
  · simp only [toNat_ofBool_append_append, toNat_not_getLsbD]

/-! ### The `b` bit (R62) -/

/-- An EVEX encoding with the fixed fields of R49 and `b = 1` that names no `{sae}` form: `UD`
for memory, else refused by name. -/
theorem decode_evex_b {m : Mode} {p0 p2 modrm : Byte} (rest : List Byte)
    (hext : m = .m32 → bits p0 4 4 = 15#4) (hp0 : bits p0 0 4 = 2#4)
    (hv' : p2.getLsbD 3 = true) (hmask : p2.getLsbD 7 = true → bits p2 0 3 ≠ 0#3)
    (hb : p2.getLsbD 4 = true) (h : bits modrm 6 2 ≠ 3#2 ∨ bits p2 5 2 ≠ 2#2) :
    decode m (0x62#8 :: p0 :: 0x7D#8 :: p2 :: 0x13#8 :: modrm :: rest) =
      if bits modrm 6 2 ≠ 3#2 then .ud else .refuse .saeWithOtherLL := by
  have htop (hm : m = .m32) : bits p0 6 2 = 3#2 := (bits_ext_eq_fifteen (hext hm)).1
  have hbits : ¬ (m = .m32 ∧ (p0.getLsbD 5 = false ∨ p0.getLsbD 4 = false)) := by
    simpa only [hv', Bool.true_eq_false, or_false] using
      not_evexExtBit_m32 (p0 := p0) fun hm => ⟨hext hm, hv'⟩
  obtain ⟨hzero, hmm⟩ := bits_p0_low hp0
  obtain ⟨hpp, hone, hw, hv⟩ := evexByte1_fields
  rw [decode_evex, show (0x7D#8 : Byte) = evexByte1 from rfl, decodeEvex_cons,
    if_neg (not_m32_and_not htop id)]
  simp only [hzero, hmm, hpp, hone, hw, hv, hv', hb, if_neg hbits, if_neg (not_and.mpr hmask),
    ne_eq, not_true_eq_false, Bool.true_eq_false, Bool.false_eq_true, or_self, or_false, if_false,
    true_and]
  by_cases hmod : bits modrm 6 2 = 3#2
  · simp only [hmod, not_true_eq_false, if_false, if_pos (h.resolve_left (not_not_intro hmod))]
  · simp only [hmod, not_false_eq_true, if_true]

/-- Settles O10: with all its bytes there the encoding has an operand 2, and `b`, `mod` and
`L'L` select the line. -/
theorem evexBBitTable : Obligations.EvexBBitTable := by
  intro m p0 p2 modrm rest hext hp0 hv' hmask hfits d
  obtain ⟨src, hsrc⟩ : ∃ src,
      decodeEvexSrc modrm (!p0.getLsbD 6) (!p0.getLsbD 5) rest = some src := by
    have h := decodeEvexSrc_map_len modrm (!p0.getLsbD 6) (!p0.getLsbD 5) rest
    rw [if_pos hfits] at h
    obtain ⟨src, hsrc, -⟩ := Option.map_eq_some_iff.mp h
    exact ⟨src, hsrc⟩
  have hplain {ll : BitVec 2} (hb : p2.getLsbD 4 = false) (hll : bits p2 5 2 = ll)
      (hne : ll ≠ 3#2) : d = evexOfLL ll (evexDst p0 modrm) src (bits p2 0 3) (p2.getLsbD 7) := by
    subst hll
    exact (decode_evex_fixed hext hp0 hv' hmask hne (absurd · (ne_true_of_eq_false hb)) hsrc).trans
      (if_neg (ne_true_of_eq_false hb))
  refine ⟨fun hb hll => ⟨_, _, hplain hb hll (by decide)⟩,
    fun hb hll => ⟨_, _, hplain hb hll (by decide)⟩,
    fun hb hll => ⟨_, _, hplain hb hll (by decide)⟩, fun hb hmod hll => ?_,
    fun hb hmod hll => ?_, fun hb hmod => ?_⟩
  · exact ⟨_, _, (decode_evex_fixed hext hp0 hv' hmask (by simp [hll]) (fun _ => ⟨hmod, hll⟩)
      hsrc).trans (if_pos hb)⟩
  · exact (decode_evex_b rest hext hp0 hv' hmask hb (.inr hll)).trans
      (if_neg (not_not_intro hmod))
  · exact (decode_evex_b rest hext hp0 hv' hmask hb (.inl hmod)).trans (if_pos hmod)

/-! ### 32-bit mode (R58) -/

/-- A VEX encoding with stored `B` 0 is refused by name. -/
theorem decode_vex_extBit {v1 v2 : Byte} (rest : List Byte) (htop : bits v1 6 2 = 3#2)
    (hb : v1.getLsbD 5 = false) (hmap : bits v1 0 5 = 2#5) (hpp : bits v2 0 2 = 1#2) :
    decode .m32 (0xC4#8 :: v1 :: v2 :: 0x13#8 :: rest) = .refuse .extBitIn32BitMode := by
  simp only [decode_vex, decodeVex, withByte_cons]
  rw [if_neg fun ⟨_, hne⟩ => hne htop, if_neg (not_not_intro hmap),
    if_neg (not_not_intro hpp), if_neg (not_not_intro rfl), if_pos ⟨trivial, hb⟩]

/-- An EVEX encoding with stored `B`, `R'` or `V'` 0 is refused by name. -/
theorem decode_evex_extBit {p0 p1 p2 : Byte} (rest : List Byte) (htop : bits p0 6 2 = 3#2)
    (hp0 : bits p0 0 4 = 2#4) (hone : p1.getLsbD 2 = true) (hpp : bits p1 0 2 = 1#2)
    (hbits : p0.getLsbD 5 = false ∨ p0.getLsbD 4 = false ∨ p2.getLsbD 3 = false) :
    decode .m32 (0x62#8 :: p0 :: p1 :: p2 :: 0x13#8 :: rest) = .refuse .extBitIn32BitMode := by
  obtain ⟨hzero, hmm⟩ := bits_p0_low hp0
  simp only [decode_evex, decodeEvex, withByte_cons]
  rw [if_neg fun ⟨_, hne⟩ => hne htop, if_neg (not_not_intro hzero),
    if_neg (ne_false_of_eq_true hone), if_neg (by simp [hmm, hpp]), if_neg (not_not_intro rfl),
    if_pos ⟨trivial, hbits⟩]

/-- A register source of a VEX form well-formed in 32-bit mode. -/
theorem vexSource_reg_m32 {src : VexSrc} {s : State} {f : Form} {len : Nat} {n : BitVec 5}
    (hwf : src.wf .m32 = true) (h : vexSource s f len src = .reg n) : n.toNat < 8 := by
  cases src with
  | mem g => cases h
  | reg r =>
    cases h
    rw [BitVec.toNat_setWidth_of_le (by decide)]
    exact of_decide_eq_true hwf

/-- A register source of an EVEX form well-formed in 32-bit mode. -/
theorem evexSource_reg_m32 {src : EvexSrc} {s : State} {f : Form} {len : Nat} {n : BitVec 5}
    (hwf : src.wf .m32 = true) (h : evexSource s f len src = .reg n) : n.toNat < 8 := by
  cases src with
  | mem g => cases h
  | reg r =>
    cases h
    exact of_decide_eq_true hwf

/-- The vector registers that an instruction well-formed in 32-bit mode names. -/
theorem instOf_registers_m32 {i : Instr} (h : i.wf .m32 = true) (s : State) :
    (instOf i s).dst.toNat < 8 ∧ ∀ n, (instOf i s).src = .reg n → n.toNat < 8 := by
  cases i <;> simp only [Instr.wf, Bool.and_eq_true, decide_eq_true_eq] at h
  case vex128 | vex256 =>
    obtain ⟨hdst, hsrc⟩ := h
    refine ⟨?_, fun n hn => vexSource_reg_m32 hsrc hn⟩
    exact (BitVec.toNat_setWidth_of_le (by decide)).trans_lt hdst
  case evex512Sae dst src aaa z =>
    obtain ⟨⟨hdst, hsrc⟩, -⟩ := h
    exact ⟨hdst, fun n hn => Source.reg.inj hn ▸ hsrc⟩
  all_goals
    obtain ⟨⟨hdst, hsrc⟩, -⟩ := h
    exact ⟨hdst, fun n hn => evexSource_reg_m32 hsrc hn⟩

/-- Settles O14: a line of the decoder for each clause, and what is decoded is well-formed. -/
theorem mode32ExtensionBits : Obligations.Mode32ExtensionBits := by
  refine ⟨fun v1 rest htop => ?_, fun p0 rest htop => ?_,
    fun v1 v2 rest htop hb hmap hpp => decode_vex_extBit rest htop hb hmap hpp,
    fun p0 p1 p2 rest htop hp0 hone hpp hbits => decode_evex_extBit rest htop hp0 hone hpp hbits,
    fun bs i s h => ?_⟩
  · simp only [decode_vex, decodeVex, withByte_cons]
    rw [if_pos ⟨trivial, htop⟩]
  · simp only [decode_evex, decodeEvex, withByte_cons]
    rw [if_pos ⟨trivial, htop⟩]
  · obtain ⟨hwf, -⟩ := decode_wf_fits h
    obtain ⟨hdst, hsrc⟩ := instOf_registers_m32 hwf s
    exact ⟨hdst, hsrc, hwf⟩

end Sys2Proof

namespace Sys2Proof.Machine

/-! ### A step on an encoding that is no instruction (R60 to R64) -/

/-- A step at bytes that are `UD` raises `#UD`. -/
theorem step_of_decode_ud {s : State} (hf : s.faultRecord = none)
    (hd : decode s.mode s.fetch = .ud) : step s = raise .ud s := by
  have hip : s.ip ≠ s.textStop := ip_ne_textStop (by rintro h; rw [h] at hd; cases hd)
  simp [step, hf, hip, hd]

/-- A step at bytes that are refused is refused, where there is a byte at all. -/
theorem step_of_decode_refuse {s : State} {why : DecodeRefusal} (hf : s.faultRecord = none)
    (hne : s.fetch ≠ []) (hd : decode s.mode s.fetch = .refuse why) :
    step s = .refused (.undecoded why) := by
  simp [step, hf, ip_ne_textStop hne, hd]

/-- Settles O8: both are lines of `UD` at the opcode byte. -/
theorem reservedVvvvAndVexWRaiseUD : Obligations.ReservedVvvvAndVexWRaiseUD := by
  refine ⟨fun s v1 v2 rest hf hfetch hext hmap hpp hres => step_of_decode_ud hf ?_,
    fun s p0 p1 p2 rest hf hfetch hext hmm hpp hv => step_of_decode_ud hf ?_⟩
  · rw [hfetch]
    exact decode_vex_ud rest hext hmap hpp hres
  · rw [hfetch]
    refine decode_evex_ud rest hext hmm hpp ?_
    unfold evexReserved
    tauto

/-- Settles O9: the reserved fields are `UD`, and the rest is another instruction. -/
theorem reservedEvexFieldsRaiseUD : Obligations.ReservedEvexFieldsRaiseUD := by
  refine ⟨fun s p0 p1 p2 rest hf hfetch hext hmm hpp hres => step_of_decode_ud hf ?_,
    fun s v1 v2 op rest hf hfetch hother => step_of_decode_refuse hf (by simp [hfetch]) ?_,
    fun s p0 p1 p2 op rest hf hfetch hzero hone hother =>
      step_of_decode_refuse hf (by simp [hfetch]) ?_⟩
  · rw [hfetch]
    refine decode_evex_ud rest hext hmm hpp ?_
    unfold evexReserved
    tauto
  · rw [hfetch]
    exact decode_vex_other rest hother
  · rw [hfetch]
    exact decode_evex_other rest hzero hone hother

/-- Settles O11: zeroing without a writemask is one of the reserved fields. -/
theorem zeroingWithoutMaskRaisesUD : Obligations.ZeroingWithoutMaskRaisesUD := by
  intro s p0 p1 p2 rest hf hfetch hext hmm hpp hz haaa
  refine step_of_decode_ud hf ?_
  rw [hfetch]
  refine decode_evex_ud rest hext hmm hpp ?_
  unfold evexReserved
  tauto

/-- The prefixes that make an instruction `UD`, by their bytes (R64). -/
theorem isUdPrefix_of_byte {m : Mode} {b : Byte}
    (h : b ∈ [0xF0#8, 0x66#8, 0xF2#8, 0xF3#8] ∨ (m = .m64 ∧ 0x40#8 ≤ b ∧ b ≤ 0x4F#8)) :
    isUdPrefix m b = true := by
  rcases h with h | ⟨rfl, h⟩
  · simp only [List.mem_cons, List.not_mem_nil, or_false] at h
    rcases h with rfl | rfl | rfl | rfl <;> cases m <;> rfl
  · revert b
    decide

/-- The prefixes that are refused, by their bytes (R64). -/
theorem isRefusedPrefix_of_byte {b : Byte}
    (h : b ∈ [0x26#8, 0x2E#8, 0x36#8, 0x3E#8, 0x64#8, 0x65#8, 0x67#8]) (m : Mode) :
    isUdPrefix m b = false ∧ isRefusedPrefix b = true := by
  cases m <;> revert b <;> decide

/-- Settles O12: the first byte decides, or, where it is `LOCK` or its like, what follows it. -/
theorem legacyPrefixesRaiseUDOrRefuse : Obligations.LegacyPrefixesRaiseUDOrRefuse := by
  refine ⟨fun s b rest hf hfetch hb hrest => step_of_decode_ud hf ?_,
    fun s b rest hf hfetch hb => step_of_decode_refuse hf (by simp [hfetch]) ?_⟩
  · rw [hfetch]
    refine decode_udPrefix (isUdPrefix_of_byte hb) fun why hwhy => ?_
    rcases hrest with ⟨i, hi⟩ | hud
    · cases hi.symm.trans hwhy
    · cases hud.symm.trans hwhy
  · obtain ⟨hud, hrefused⟩ := isRefusedPrefix_of_byte hb s.mode
    rw [hfetch, decode_cons hud, if_pos hrefused]

/-! ### Effective addresses (R53 to R57) -/

/-- A word at the mode's width, from an integer it is the residue of. -/
theorem wrap_ofInt_toNat (m : Mode) (z : ℤ) :
    ((wrap m (BitVec.ofInt 64 z)).toNat : ℤ) = z % (addrSpace m : ℤ) := by
  have h : ((BitVec.ofInt 64 z).toNat : ℤ) = z % (2 ^ 64 : ℕ) := by
    rw [BitVec.toNat_ofInt]
    omega
  rw [wrap_toNat, Int.natCast_mod, h, Int.emod_emod_of_dvd]
  exact_mod_cast addrSpace_dvd m

/-- A word is the residue of its number. -/
theorem ofInt_natCast_toNat (x : Addr) : BitVec.ofInt 64 (x.toNat : ℤ) = x := by
  rw [BitVec.ofInt_natCast, BitVec.ofNat_toNat, BitVec.setWidth_eq]

theorem dispValue_eq (f : Form) (d : Disp) : dispValue f d = BitVec.ofInt 64 (dispInt f d) := by
  cases d with
  | none => rfl
  | d8 d => rw [dispInt, BitVec.ofInt_mul, BitVec.ofInt_natCast]; rfl
  | d32 d => rfl

theorem indexValue_eq (s : State) (idx : BitVec 4) (scale : BitVec 2) :
    indexValue s idx scale = BitVec.ofInt 64 (indexInt s idx scale) := by
  unfold indexValue indexInt
  split
  · rfl
  · have hshift : s.readGpr idx <<< scale.toNat =
        BitVec.ofNat 64 ((s.readGpr idx).toNat * 2 ^ scale.toNat) := by
      apply BitVec.eq_of_toNat_eq
      rw [BitVec.toNat_shiftLeft, BitVec.toNat_ofNat, Nat.shiftLeft_eq]
    rw [hshift, ← BitVec.ofInt_natCast]
    push_cast
    rfl

/-- The address of a memory operand is the residue of the exact sum at the mode's width. -/
theorem effectiveAddress_eq (s : State) (f : Form) (len : Nat) (m : MemForm) :
    effectiveAddress s f len m = wrap s.mode (BitVec.ofInt 64 (addrSum s f len m)) := by
  unfold effectiveAddress
  cases m with
  | base b d => simp only [addrSum, BitVec.ofInt_add, ofInt_natCast_toNat, dispValue_eq]
  | dispOnly d =>
    unfold addrSum
    cases s.mode with
    | m64 =>
      simp only [BitVec.ofInt_add, ofInt_natCast_toNat]
      rw [BitVec.ofInt_natCast]
      rfl
    | m32 => rfl
  | sib b idx scale d =>
    simp only [addrSum, BitVec.ofInt_add, ofInt_natCast_toNat, dispValue_eq, indexValue_eq]
  | sibNoBase idx scale d =>
    simp only [addrSum, BitVec.ofInt_add, indexValue_eq]
    rfl

/-- Settles O24: each term is the residue of its integer, and residues add. -/
theorem effectiveAddressIsSum : Obligations.EffectiveAddressIsSum := by
  intro s f len m
  rw [effectiveAddress_eq, wrap_ofInt_toNat]

/-! ### The bits of a register source (R52) -/

/-- The decoded record takes nothing from the vector registers. -/
theorem instOf_withVec (i : Instr) (s : State) (v : Vector VecWord 32) :
    instOf i { s with vec := v } = instOf i s := by
  cases i <;> rfl

/-- A source element of a register is bits of the register that exist. -/
theorem halfAt_withVec {s : State} {n : BitVec 5} {x : VecWord} {kl j : Nat} (hj : j < kl)
    (h : ∀ b < 16 * kl, x.getLsbD b = s.vec[n.toNat].getLsbD b) :
    halfAt { s with vec := s.vec.set n.toNat x } (.reg n) j = halfAt s (.reg n) j := by
  apply BitVec.eq_of_getLsbD_eq
  intro b hb
  have hbit := h (16 * j + b) (by omega)
  simp only [halfAt, State.readVec, Vector.getElem_set_self, BitVec.getLsbD_extractLsb',
    BitVec.getLsbD_setWidth, hbit]

/-- Whether Invalid arises is not changed by the bits above the source elements. -/
theorem invalidArises_withVec {s : State} {n : BitVec 5} {x : VecWord} {kl : Nat}
    (aaa : BitVec 3) (h : ∀ b < 16 * kl, x.getLsbD b = s.vec[n.toNat].getLsbD b) :
    invalidArises { s with vec := s.vec.set n.toNat x } (.reg n) aaa kl ↔
      invalidArises s (.reg n) aaa kl := by
  unfold invalidArises
  refine exists_congr fun j => and_congr_right fun hj => ?_
  rw [halfAt_withVec hj h]
  rfl

/-- The destination after completion, where only bits above the source elements differ. -/
theorem completed_readVec_withVec {s : State} {i : Inst} {n : BitVec 5} {x : VecWord}
    (hav : s.available i.form = true) (hsrc : i.src = .reg n) (hne : n ≠ i.dst)
    (h : ∀ b < 16 * i.form.kl, x.getLsbD b = s.vec[n.toNat].getLsbD b) :
    (completed { s with vec := s.vec.set n.toNat x } i).readVec i.dst =
      (completed s i).readVec i.dst := by
  have hav' : ({ s with vec := s.vec.set n.toNat x } : State).available i.form = true := hav
  have hkept : ({ s with vec := s.vec.set n.toNat x } : State).readVec i.dst = s.readVec i.dst := by
    simp only [State.readVec]
    rw [Vector.getElem_set_ne _ _ fun he => hne (BitVec.eq_of_toNat_eq he)]
  refine eq_of_lanes fun j => ?_
  rw [completed_lane hav', completed_lane hav]
  by_cases hj : j < i.form.kl
  · rw [if_pos hj, if_pos hj, hsrc, halfAt_withVec hj h, hkept]
    rfl
  · rw [if_neg hj, if_neg hj]

/-- A register source has no alignment check, so no free value is drawn. -/
theorem drawn_of_reg {i : Inst} {n : BitVec 5} (h : i.src = .reg n) (s : State) :
    drawn s i = s := by
  simp [drawn, acDue, h]

/-- Settles O45: the checks, the Invalid condition and every lane of the destination depend on
the source elements alone. -/
theorem upperSourceBitsIgnored : Obligations.UpperSourceBitsIgnored := by
  intro i s t n x hx hsrc hne hlow
  obtain ⟨hav, hts, -, -, hend⟩ := exec_next hx
  have hr : reachesConversion { s with vec := s.vec.set n.toNat x } (instOf i s) :=
    ⟨hav, hts, by simp [memFaultOf, hsrc], by simp [acDue, hsrc]⟩
  have hinv := invalidArises_withVec (instOf i s).aaa hlow
  rw [← hsrc] at hinv
  rw [exec_eq, instOf_withVec]
  rw [drawn_of_reg hsrc] at hend
  rcases hend with ⟨hq, rfl⟩ | ⟨hsae, hi, him, rfl⟩
  · refine ⟨_, execInst_of_noInvalid hr (by rwa [hinv]), ?_⟩
    rw [drawn_of_reg hsrc, completed_mxcsr, completed_mxcsr]
    exact ⟨completed_readVec_withVec hav hsrc hne hlow, rfl⟩
  · refine ⟨_, execInst_of_maskedInvalid hr hsae (hinv.mpr hi) him, ?_⟩
    rw [drawn_of_reg hsrc, completed_mxcsr, completed_mxcsr]
    exact ⟨completed_readVec_withVec (s := s.setIE) hav hsrc hne hlow, rfl⟩

end Sys2Proof.Machine

/-! PROOF. The element conversion of spec/40_vcvtph2ps.md R76: the fields of each result, its
number and its value, and the Invalid condition. -/

namespace Sys2Proof.Machine

/-! ### Fields, and fields as numbers -/

@[simp] theorem mkSingle_sign (s : BitVec 1) (e : BitVec 8) (f : BitVec 23) :
    (mkSingle s e f).extractLsb' 31 1 = s := by
  apply BitVec.eq_of_getLsbD_eq
  intro b hb
  obtain rfl := Nat.lt_one_iff.mp hb
  rw [BitVec.getLsbD_extractLsb', getLsbD_mkSingle]
  simp

@[simp] theorem mkSingle_exp (s : BitVec 1) (e : BitVec 8) (f : BitVec 23) :
    (mkSingle s e f).extractLsb' 23 8 = e := by
  apply BitVec.eq_of_getLsbD_eq
  intro b hb
  simp [getLsbD_mkSingle, hb, show 23 + b < 31 by omega]

@[simp] theorem mkSingle_frac (s : BitVec 1) (e : BitVec 8) (f : BitVec 23) :
    (mkSingle s e f).extractLsb' 0 23 = f := by
  apply BitVec.eq_of_getLsbD_eq
  intro b hb
  simp [getLsbD_mkSingle, hb]

/-- Exponent and fraction make up all bits but the sign. -/
theorem half_magnitude_eq_zero {h : Half} (he : halfExp h = 0#5) (hf : halfFrac h = 0#10) :
    h.extractLsb' 0 15 = 0#15 := by
  simp only [halfExp, halfFrac, ← BitVec.toNat_inj, BitVec.extractLsb'_toNat,
    BitVec.toNat_ofNat, Nat.shiftRight_eq_div_pow] at *
  omega

/-- The exponent of a normal result. -/
theorem normalExp_toNat (e : BitVec 5) : (e.setWidth 8 + 112#8).toNat = e.toNat + 112 := by
  have he := e.isLt
  simp only [BitVec.toNat_add, BitVec.toNat_setWidth, BitVec.toNat_ofNat]
  omega

/-- Thirteen 0 bits behind a fraction. -/
theorem toNat_append_zeros {w : Nat} (f : BitVec w) : (f ++ 0#13).toNat = f.toNat * 2 ^ 13 := by
  rw [BitVec.toNat_append, BitVec.toNat_ofNat, Nat.zero_mod, Nat.or_zero, Nat.shiftLeft_eq]

/-- The fraction of a quiet NaN: bit 22 set, the low 9 bits of the payload kept. -/
theorem quietFrac_toNat (f : BitVec 10) :
    (1#1 ++ f.setWidth 9 ++ 0#13).toNat = 2 ^ 22 + f.toNat % 2 ^ 9 * 2 ^ 13 := by
  have hlt : f.toNat % 2 ^ 9 < 2 ^ 9 := Nat.mod_lt _ (by decide)
  rw [toNat_append_zeros, BitVec.toNat_append, BitVec.toNat_setWidth,
    ← Nat.shiftLeft_add_eq_or_of_lt hlt, Nat.shiftLeft_eq, BitVec.toNat_ofNat]
  omega

/-! ### The result of each class (the rows of R76) -/

theorem cvtResult_zero {h : Half} (he : halfExp h = 0#5) (hf : halfFrac h = 0#10) :
    cvtResult h = mkSingle (halfSign h) 0#8 0#23 := by
  simp [cvtResult, he, hf]

theorem cvtResult_denormal {h : Half} (he : halfExp h = 0#5) (hf : halfFrac h ≠ 0#10) :
    cvtResult h = cvtDenormal (halfSign h) (halfFrac h) := by
  simp [cvtResult, he, hf]

theorem cvtResult_normal {h : Half} (he : halfExp h ≠ 0#5) (he' : halfExp h ≠ 31#5) :
    cvtResult h =
      mkSingle (halfSign h) ((halfExp h).setWidth 8 + 112#8) (halfFrac h ++ 0#13) := by
  simp [cvtResult, he, he']

theorem cvtResult_infinity {h : Half} (he : halfExp h = 31#5) (hf : halfFrac h = 0#10) :
    cvtResult h = mkSingle (halfSign h) 255#8 0#23 := by
  simp [cvtResult, he, hf]

theorem cvtResult_nan {h : Half} (he : halfExp h = 31#5) (hf : halfFrac h ≠ 0#10) :
    cvtResult h =
      mkSingle (halfSign h) 255#8 (1#1 ++ (halfFrac h).setWidth 9 ++ 0#13) := by
  simp [cvtResult, he, hf]

theorem highestOne_le (f : BitVec 10) (n : Nat) : highestOne f n ≤ n := by
  induction n with
  | zero => exact le_refl _
  | succ n ih =>
    unfold highestOne
    split
    · exact le_refl _
    · omega

/-! ### Sign, exponent and low bits of every result (R77) -/

/-- Every result has the sign of the input, exponent 0 for a zero only, and 0 in the low 13
bits of its fraction. -/
theorem cvtResult_fields (h : Half) :
    ∃ e f, cvtResult h = mkSingle (halfSign h) e f ∧
      (e = 0#8 → halfExp h = 0#5 ∧ halfFrac h = 0#10) ∧ f.extractLsb' 0 13 = 0#13 := by
  by_cases he : halfExp h = 0#5
  · by_cases hf : halfFrac h = 0#10
    · exact ⟨_, _, cvtResult_zero he hf, fun _ => ⟨he, hf⟩, by decide⟩
    · have hp := highestOne_le (halfFrac h) 9
      refine ⟨_, _, cvtResult_denormal he hf, fun h0 => ?_, ?_⟩
      · have := congrArg BitVec.toNat h0
        simp only [BitVec.toNat_ofNat] at this
        omega
      · apply BitVec.eq_of_getLsbD_eq
        intro b hb
        simp [hb, show b < 23 - highestOne (halfFrac h) 9 by omega]
  · by_cases he' : halfExp h = 31#5
    · by_cases hf : halfFrac h = 0#10
      · exact ⟨_, _, cvtResult_infinity he' hf, fun h0 => absurd h0 (by decide), by decide⟩
      · exact ⟨_, _, cvtResult_nan he' hf, fun h0 => absurd h0 (by decide),
          BitVec.extractLsb'_append_eq_right⟩
    · refine ⟨_, _, cvtResult_normal he he', fun h0 => ?_, BitVec.extractLsb'_append_eq_right⟩
      have := congrArg BitVec.toNat h0
      rw [normalExp_toNat, BitVec.toNat_ofNat] at this
      omega

/-- Settles O29: the sign, the exponent and the low bits are those of the result's fields. -/
theorem conversionSignAndRange : Obligations.ConversionSignAndRange := by
  intro h
  obtain ⟨e, f, hr, hzero, hlow⟩ := cvtResult_fields h
  simp only [cvtH2s, hr]
  refine ⟨?_, fun he => ?_, ?_⟩
  · rw [getLsbD_mkSingle]
    simp [halfSign]
  · rw [mkSingle_exp] at he
    obtain ⟨hexp, hfrac⟩ := hzero he
    exact half_magnitude_eq_zero hexp hfrac
  · rw [← hlow]
    apply BitVec.eq_of_getLsbD_eq
    intro b hb
    simp [getLsbD_mkSingle, hb, show b < 23 by omega]

/-! ### The Invalid condition -/

theorem isSignaling_iff (h : Half) : isSignaling h = true ↔
    (halfExp h).toNat = 31 ∧ 0 < (halfFrac h).toNat ∧ (halfFrac h).toNat < 512 := by
  have hquiet : (halfFrac h).getLsbD 9 = decide (512 ≤ (halfFrac h).toNat) :=
    BitVec.msb_eq_decide (halfFrac h)
  rw [isSignaling, hquiet]
  simp [← BitVec.toNat_inj, Nat.pos_iff_ne_zero, and_assoc]

theorem cvtH2s_quiet {h : Half}
    (hq : ¬ ((halfExp h).toNat = 31 ∧ 0 < (halfFrac h).toNat ∧ (halfFrac h).toNat < 512)) :
    (cvtH2s h).2 = false :=
  Bool.eq_false_iff.mpr (mt (isSignaling_iff h).mp hq)

/-! ### Denormal inputs, by the place `p` of the leading 1 -/

section Denormal

variable {h : Half} {p : Nat} (he : halfExp h = 0#5) (hlo : 2 ^ p ≤ (halfFrac h).toNat)
  (hhi : (halfFrac h).toNat < 2 ^ (p + 1))

include hlo in
theorem place_lt : p < 10 :=
  (Nat.pow_lt_pow_iff_right (by decide)).mp (lt_of_le_of_lt hlo (halfFrac h).isLt)

include he hlo hhi in
/-- A denormal input becomes a normal number with the leading 1 left out. -/
theorem cvtResult_of_place : ∃ e f, cvtResult h = mkSingle (halfSign h) e f ∧
    e.toNat = p + 103 ∧ f.toNat = (halfFrac h).toNat * 2 ^ (23 - p) % 2 ^ 23 := by
  have hf : halfFrac h ≠ 0#10 := fun h0 => by
    rw [h0] at hlo
    exact absurd hlo (by simp)
  have hp := place_lt hlo
  rw [cvtResult_denormal he hf, cvtDenormal, highestOne_eq hlo hhi]
  refine ⟨_, _, rfl, ?_, ?_⟩
  · rw [BitVec.toNat_ofNat]
    omega
  · have hlt := (halfFrac h).isLt
    rw [BitVec.toNat_shiftLeft, Nat.shiftLeft_eq, BitVec.toNat_setWidth_of_le (by decide)]

end Denormal

/-- The leading 1 of a fraction, at place `p`, shifted to place 23 and cut off. -/
theorem shifted_mod_add {f p : Nat} (hp : p ≤ 23) (hlo : 2 ^ p ≤ f) (hhi : f < 2 ^ (p + 1)) :
    f * 2 ^ (23 - p) % 2 ^ 23 + 2 ^ 23 = f * 2 ^ (23 - p) := by
  have hpow : 2 ^ p * 2 ^ (23 - p) = 2 ^ 23 := by rw [← pow_add, Nat.add_sub_cancel' hp]
  have h1 : 2 ^ 23 ≤ f * 2 ^ (23 - p) := hpow ▸ Nat.mul_le_mul_right _ hlo
  have h2 : f * 2 ^ (23 - p) < 2 * 2 ^ 23 := by
    rw [← hpow, ← mul_assoc, ← pow_succ']
    exact Nat.mul_lt_mul_of_pos_right hhi (by positivity)
  omega

/-! ### Values -/

theorem singleValue_mkSingle (s : BitVec 1) (e : BitVec 8) (f : BitVec 23) :
    singleValue (mkSingle s e f) = (-1) ^ s.toNat *
      (if e = 0#8 then (f.toNat : ℚ) * 2 ^ (-149 : ℤ)
       else 2 ^ ((e.toNat : ℤ) - 127) * (1 + (f.toNat : ℚ) / 8388608)) := by
  simp only [singleValue, mkSingle_sign, mkSingle_exp, mkSingle_frac]

/-- A normal single-precision number, from the numbers of its fields. -/
theorem singleValue_normal {s : BitVec 1} {e : BitVec 8} (he : e.toNat ≠ 0) (f : BitVec 23) :
    singleValue (mkSingle s e f) =
      (-1) ^ s.toNat * (2 ^ ((e.toNat : ℤ) - 127) * (1 + (f.toNat : ℚ) / 8388608)) := by
  have he0 : e ≠ 0#8 := fun h => he (congrArg BitVec.toNat h)
  rw [singleValue_mkSingle, if_neg he0]

/-- The value of a denormal input, as its leading 1 and the rest. -/
theorem denormal_value {f p : Nat} (hp : p ≤ 23) (hlo : 2 ^ p ≤ f) (hhi : f < 2 ^ (p + 1)) :
    (2 : ℚ) ^ (((p + 103 : ℕ) : ℤ) - 127) *
        (1 + ((f * 2 ^ (23 - p) % 2 ^ 23 : ℕ) : ℚ) / 8388608) =
      f * 2 ^ (-24 : ℤ) := by
  have hfrac : ((f * 2 ^ (23 - p) % 2 ^ 23 : ℕ) : ℚ) = f * 2 ^ (23 - p) - 8388608 := by
    rw [eq_sub_iff_add_eq]
    exact_mod_cast shifted_mod_add hp hlo hhi
  have hexp : ((p + 103 : ℕ) : ℤ) - 127 = p + (-24) := by
    push_cast
    ring
  have hpow : (2 : ℚ) ^ p * 2 ^ (23 - p) = 8388608 := by
    rw [← pow_add, Nat.add_sub_cancel' hp]
    norm_num
  rw [hfrac, hexp, zpow_add₀ two_ne_zero, zpow_natCast]
  linear_combination (f : ℚ) * 2 ^ (-24 : ℤ) / 8388608 * hpow

/-- The result of a finite input has the value of the input. -/
theorem singleValue_cvtResult {h : Half} (hfin : halfExp h ≠ 31#5) :
    singleValue (cvtResult h) = halfValue h := by
  unfold halfValue
  by_cases he : halfExp h = 0#5
  · rw [if_pos he]
    by_cases hf : halfFrac h = 0#10
    · simp [cvtResult_zero he hf, singleValue_mkSingle, hf]
    · have hne : (halfFrac h).toNat ≠ 0 := fun h0 => hf (BitVec.eq_of_toNat_eq h0)
      have hlo := Nat.pow_log_le_self 2 hne
      have hhi := Nat.lt_pow_succ_log_self (b := 2) (by decide) (halfFrac h).toNat
      have hp := place_lt hlo
      obtain ⟨e, f, hr, hexp, hfrac⟩ := cvtResult_of_place he hlo hhi
      rw [hr, singleValue_normal (by omega), hexp, hfrac, denormal_value (by omega) hlo hhi]
  · rw [if_neg he, cvtResult_normal he hfin, singleValue_normal (by rw [normalExp_toNat]; omega),
      normalExp_toNat, toNat_append_zeros]
    have hexp : (((halfExp h).toNat + 112 : ℕ) : ℤ) - 127 = (halfExp h).toNat - 15 := by
      push_cast
      ring
    rw [hexp]
    push_cast
    ring

/-- The result of a NaN, as a number: fraction bit 22 and the low 9 bits of the payload. -/
theorem cvtResult_nan_toNat {h : Half} (he : halfExp h = 31#5) (hf : halfFrac h ≠ 0#10) :
    (cvtResult h).toNat = (halfSign h).toNat * 2 ^ 31 + 255 * 2 ^ 23 +
      (2 ^ 22 + (halfFrac h).toNat % 2 ^ 9 * 2 ^ 13) := by
  rw [cvtResult_nan he hf, mkSingle_toNat, quietFrac_toNat]
  rfl

/-- Settles O28: each row by the fields of its result, and the value by classes. -/
theorem conversionTable : Obligations.ConversionTable := by
  intro h sg e f r
  have hr : r = (cvtResult h).toNat := rfl
  have hf := (halfFrac h).isLt
  refine ⟨fun ⟨he, hzero⟩ => ⟨?_, cvtH2s_quiet (by omega)⟩,
    fun p he hlo hhi => ⟨?_, cvtH2s_quiet (by omega)⟩,
    fun ⟨he, he'⟩ => ⟨?_, cvtH2s_quiet (by omega)⟩,
    fun ⟨he, hzero⟩ => ⟨?_, cvtH2s_quiet (by omega)⟩,
    fun ⟨he, hbit⟩ => ⟨?_, cvtH2s_quiet (by omega)⟩,
    fun ⟨he, hpos, hbit⟩ => ⟨?_, (isSignaling_iff h).mpr ⟨he, hpos, hbit⟩⟩,
    fun he => singleValue_cvtResult fun he' => he (congrArg BitVec.toNat he')⟩
  · rw [hr, cvtResult_zero (BitVec.eq_of_toNat_eq he) (BitVec.eq_of_toNat_eq hzero),
      mkSingle_toNat]
    simp [sg]
  · obtain ⟨e', f', hres, hexp, hfrac⟩ := cvtResult_of_place (BitVec.eq_of_toNat_eq he) hlo hhi
    rw [hr, hres, mkSingle_toNat, hexp, hfrac]
  · have hne : halfExp h ≠ 0#5 := fun h0 => by simp [e, h0] at he
    have hne' : halfExp h ≠ 31#5 := fun h0 => by simp [e, h0] at he'
    rw [hr, cvtResult_normal hne hne', mkSingle_toNat, normalExp_toNat, toNat_append_zeros]
  · rw [hr, cvtResult_infinity (BitVec.eq_of_toNat_eq he) (BitVec.eq_of_toNat_eq hzero),
      mkSingle_toNat]
    simp [sg]
  · have hne : halfFrac h ≠ 0#10 := fun h0 => by simp [f, h0] at hbit
    rw [hr, cvtResult_nan_toNat (BitVec.eq_of_toNat_eq he) hne]
    omega
  · have hne : halfFrac h ≠ 0#10 := fun h0 => by simp [f, h0] at hpos
    rw [hr, cvtResult_nan_toNat (BitVec.eq_of_toNat_eq he) hne]
    omega

end Sys2Proof.Machine

/-! PROOF. The statements of spec/40_vcvtph2ps.md on the execution sequence: how an instruction
completes (R78 to R85), what it leaves alone (R75, R87 to R90), and what its result depends on
(R79, R88, R95). -/

namespace Sys2Proof.Machine

/-! ### Completion (R78) -/

/-- Without the parameter no alignment check is due (spec/60_exceptions.md R105). -/
theorem acDue_of_noReport {s : State} (h : s.cfg.evexReportsAc = false) (f : Form)
    (src : Source) : acDue s f src = false := by
  cases src <;> simp [acDue, h]

/-- The instruction sets `IE`: an Invalid condition arises and is not suppressed (R78 step 7,
R90). -/
def flagsInvalid (s : State) (i : Inst) : Prop :=
  i.sae = false ∧ invalidArises s i.src i.aaa i.form.kl

/-- Invalid leaves no flag where it is suppressed or not there. -/
theorem not_flagsInvalid_iff (s : State) (i : Inst) :
    ¬ flagsInvalid s i ↔ i.sae = true ∨ ¬ invalidArises s i.src i.aaa i.form.kl := by
  rw [flagsInvalid, not_and_or, Bool.not_eq_false]

/-- `MXCSR` and the counter of free values are all that completion changes before it writes the
destination and advances `pc`: the counter only where `#AC` is a parameter, and `IE` exactly
where Invalid is flagged. -/
theorem exec_next_completed {i : Instr} {s t : State} (hx : exec i s = .next t) :
    ∃ n x, t = completed { s with acTicks := n, mxcsr := x } (instOf i s) ∧
      (s.cfg.evexReportsAc = false → n = s.acTicks) ∧
      (flagsInvalid s (instOf i s) → x = s.mxcsr ||| 1#32) ∧
      (¬ flagsInvalid s (instOf i s) → x = s.mxcsr) := by
  obtain ⟨-, -, -, -, hend⟩ := exec_next hx
  obtain ⟨n, hn, hnot, -⟩ := drawn_eq s (instOf i s)
  have hticks : s.cfg.evexReportsAc = false → n = s.acTicks := fun hac =>
    hnot (acDue_of_noReport hac _ _)
  rw [hn] at hend
  rcases hend with ⟨hq, rfl⟩ | ⟨hsae, hinv, -, rfl⟩
  · exact ⟨n, _, rfl, hticks, fun hf => absurd hf ((not_flagsInvalid_iff ..).mpr hq),
      fun _ => rfl⟩
  · exact ⟨n, _, rfl, hticks, fun _ => rfl, fun hf => absurd ⟨hsae, hinv⟩ hf⟩

/-- Where the conversion is reached and Invalid raises nothing, the instruction completes. -/
theorem exec_of_reachesConversion {i : Instr} {s : State}
    (hr : reachesConversion s (instOf i s)) (hq : invalidQuiet s (instOf i s)) :
    ∃ t, exec i s = .next t := by
  rw [exec_eq]
  by_cases hf : flagsInvalid s (instOf i s)
  · obtain ⟨hsae, hinv⟩ := hf
    have him : s.im = true := by simpa [invalidQuiet, hsae, hinv] using hq
    exact ⟨_, execInst_of_maskedInvalid hr hsae hinv him⟩
  · exact ⟨_, execInst_of_noInvalid hr ((not_flagsInvalid_iff ..).mp hf)⟩

/-- A lane of the destination after an instruction that completes (R86, R87). -/
theorem exec_lane {i : Instr} {s t : State} (hx : exec i s = .next t) (j : Nat) :
    lane (t.readVec (instOf i s).dst) j =
      if j < (instOf i s).form.kl then
        if maskBit s (instOf i s).aaa j then (s.cfg.cvt (halfAt s (instOf i s).src j)).1
        else if (instOf i s).z then 0#32 else lane (s.readVec (instOf i s).dst) j
      else 0#32 := by
  obtain ⟨hav, -⟩ := exec_next hx
  obtain ⟨n, x, rfl, -⟩ := exec_next_completed hx
  exact completed_lane (s := { s with acTicks := n, mxcsr := x }) hav j

/-- What completion of `i` makes of `s`: each selected element converted, each other kept or
zeroed, 0 above the last element, `pc` advanced, and `IE` set exactly where Invalid is flagged
(R78, R86, R87, R90). -/
structure Converted (s : State) (i : Inst) (t : State) : Prop where
  selectedLane : ∀ j < i.form.kl, selected s i.aaa j →
    lane (t.readVec i.dst) j = (s.cfg.cvt (halfAt s i.src j)).1
  maskedLane : ∀ j < i.form.kl, ¬ selected s i.aaa j →
    lane (t.readVec i.dst) j = if i.z then 0#32 else lane (s.readVec i.dst) j
  upperLane : ∀ j, i.form.kl ≤ j → lane (t.readVec i.dst) j = 0#32
  pc : t.pc = wrap s.mode (s.ip + BitVec.ofNat 64 i.len)
  flagged : flagsInvalid s i → t.mxcsr = s.mxcsr ||| 1#32
  unflagged : ¬ flagsInvalid s i → t.mxcsr = s.mxcsr

/-- Every instruction that completes converts its elements. -/
theorem converted_of_exec {i : Instr} {s t : State} (hx : exec i s = .next t) :
    Converted s (instOf i s) t where
  selectedLane j hj hsel := by
    rw [exec_lane hx, if_pos hj, if_pos ((maskBit_iff ..).mpr hsel)]
  maskedLane j hj hsel := by
    rw [exec_lane hx, if_pos hj, if_neg (mt (maskBit_iff ..).mp hsel)]
  upperLane j hj := by rw [exec_lane hx, if_neg (Nat.not_lt.mpr hj)]
  pc := by
    obtain ⟨n, x, rfl, -⟩ := exec_next_completed hx
    rfl
  flagged hf := by
    obtain ⟨n, x, rfl, -, hie, -⟩ := exec_next_completed hx
    exact hie hf
  unflagged hf := by
    obtain ⟨n, x, rfl, -, -, hkept⟩ := exec_next_completed hx
    exact hkept hf

/-! ### The VEX forms (R80, R81) -/

section NoMask

variable {s t : State} {i : Inst} (hc : Converted s i t) (haaa : i.aaa = 0#3)
  (hsae : i.sae = false)

include haaa

/-- Without a writemask every element is selected (R86). -/
theorem selected_of_noMask (s : State) (j : Nat) : selected s i.aaa j := .inl haaa

include hsae in
/-- Without a writemask or suppression, Invalid is flagged where the conversion of any element
reports it. -/
theorem flagsInvalid_iff_of_noMask (s : State) :
    flagsInvalid s i ↔ ∃ j < i.form.kl, (s.cfg.cvt (halfAt s i.src j)).2 = true := by
  simp [flagsInvalid, invalidArises, hsae, selected_of_noMask haaa]

include hc

theorem Converted.lane_of_noMask (j : Nat) (hj : j < i.form.kl) :
    lane (t.readVec i.dst) j = (s.cfg.cvt (halfAt s i.src j)).1 :=
  hc.selectedLane j hj (selected_of_noMask haaa s j)

include hsae

theorem Converted.flagged_of_noMask
    (h : ∃ j < i.form.kl, (s.cfg.cvt (halfAt s i.src j)).2 = true) : t.mxcsr = s.mxcsr ||| 1#32 :=
  hc.flagged ((flagsInvalid_iff_of_noMask haaa hsae s).mpr h)

theorem Converted.unflagged_of_noMask
    (h : ∀ j < i.form.kl, (s.cfg.cvt (halfAt s i.src j)).2 = false) : t.mxcsr = s.mxcsr := by
  apply hc.unflagged
  rw [flagsInvalid_iff_of_noMask haaa hsae]
  simpa using h

end NoMask

/-- Settles O30: the form has no mask, so all its four elements are converted. -/
theorem vex128Converts : Obligations.Vex128Converts := by
  intro dst src s i hr hq
  obtain ⟨t, hx⟩ := exec_of_reachesConversion (i := .vex128 dst src) hr hq
  have hc := converted_of_exec hx
  exact ⟨t, hx, hc.lane_of_noMask rfl, fun j _ => hc.upperLane j, hc.pc,
    hc.flagged_of_noMask rfl rfl, hc.unflagged_of_noMask rfl rfl⟩

/-- Settles O31: the form has no mask, so all its eight elements are converted. -/
theorem vex256Converts : Obligations.Vex256Converts := by
  intro dst src s i hr hq
  obtain ⟨t, hx⟩ := exec_of_reachesConversion (i := .vex256 dst src) hr hq
  have hc := converted_of_exec hx
  exact ⟨t, hx, hc.lane_of_noMask rfl, fun j _ => hc.upperLane j, hc.pc,
    hc.flagged_of_noMask rfl rfl, hc.unflagged_of_noMask rfl rfl⟩

/-! ### The EVEX forms (R82 to R85) -/

theorem Converted.flagged_of_noSae {s t : State} {i : Inst} (hc : Converted s i t)
    (hsae : i.sae = false) (h : invalidArises s i.src i.aaa i.form.kl) :
    t.mxcsr = s.mxcsr ||| 1#32 :=
  hc.flagged ⟨hsae, h⟩

theorem Converted.unflagged_of_notArises {s t : State} {i : Inst} (hc : Converted s i t)
    (h : ¬ invalidArises s i.src i.aaa i.form.kl) : t.mxcsr = s.mxcsr :=
  hc.unflagged fun hf => h hf.2

/-- Settles O32: the four elements of the form are converted, kept or zeroed by the mask. -/
theorem evex128Converts : Obligations.Evex128Converts := by
  intro dst src aaa z s i hr hq
  obtain ⟨t, hx⟩ := exec_of_reachesConversion (i := .evex128 dst src aaa z) hr hq
  have hc := converted_of_exec hx
  exact ⟨t, hx, hc.selectedLane, hc.maskedLane, fun j _ => hc.upperLane j, hc.pc,
    hc.flagged_of_noSae rfl, hc.unflagged_of_notArises⟩

/-- Settles O33: as the 128-bit form, with eight elements. -/
theorem evex256Converts : Obligations.Evex256Converts := by
  intro dst src aaa z s i hr hq
  obtain ⟨t, hx⟩ := exec_of_reachesConversion (i := .evex256 dst src aaa z) hr hq
  have hc := converted_of_exec hx
  exact ⟨t, hx, hc.selectedLane, hc.maskedLane, fun j _ => hc.upperLane j, hc.pc,
    hc.flagged_of_noSae rfl, hc.unflagged_of_notArises⟩

/-- Settles O34: as the 128-bit form, with sixteen elements, which fill the register. -/
theorem evex512Converts : Obligations.Evex512Converts := by
  intro dst src aaa z s i hr hq
  obtain ⟨t, hx⟩ := exec_of_reachesConversion (i := .evex512 dst src aaa z) hr hq
  have hc := converted_of_exec hx
  exact ⟨t, hx, hc.selectedLane, hc.maskedLane, hc.pc,
    hc.flagged_of_noSae rfl, hc.unflagged_of_notArises⟩

/-- A form with a register source reaches the conversion where it is available and `TS` is
clear: no read has to be admitted and no alignment check is due. -/
theorem reachesConversion_of_reg {i : Inst} {s : State} {n : BitVec 5} (hsrc : i.src = .reg n)
    (hav : s.available i.form = true) (hts : s.ts = false) : reachesConversion s i :=
  ⟨hav, hts, by simp [memFaultOf, hsrc], by simp [acDue, hsrc]⟩

/-- Settles O35: the `{sae}` form has a register source and suppresses Invalid, and its record is
the plain form's in all that the data result depends on. -/
theorem evex512SaeConverts : Obligations.Evex512SaeConverts := by
  intro dst src aaa z s hav hts
  obtain ⟨t, hx⟩ := exec_of_reachesConversion (i := .evex512Sae dst src aaa z)
    (reachesConversion_of_reg rfl hav hts) (.inl rfl)
  have hc := converted_of_exec hx
  refine ⟨t, hx, hc.selectedLane, hc.maskedLane, hc.pc, hc.unflagged nofun, fun u hu => ?_⟩
  obtain ⟨n, x, rfl, -⟩ := exec_next_completed hx
  obtain ⟨n', x', rfl, -⟩ := exec_next_completed hu
  rfl

/-! ### What is left alone and what is cleared (R75, R87, R89, R90) -/

/-- Setting `IE` keeps every other bit of `MXCSR`. -/
theorem getLsbD_or_one {x : BitVec 32} {b : Nat} (h : b ≠ 0) :
    (x ||| 1#32).getLsbD b = x.getLsbD b := by
  simp [h]

/-- Settles O36: completion changes the destination, `pc`, `IE` and the counter, and no more. -/
theorem completionFrame : Obligations.CompletionFrame := by
  intro i s t hx
  obtain ⟨n, x, rfl, hticks, hie⟩ := exec_next_completed hx
  refine ⟨fun m hm => completed_readVec_other hm, rfl, rfl, rfl, rfl, rfl, rfl, rfl, rfl, rfl,
    fun _ => rfl, rfl, rfl, rfl, ?_, ?_, hticks⟩
  · by_cases hf : flagsInvalid s (instOf i s)
    · cases hie.1 hf
      exact fun _ hb => getLsbD_or_one hb
    · cases hie.2 hf
      exact fun _ _ => rfl
  · by_cases hf : flagsInvalid s (instOf i s)
    · cases hie.1 hf
      exact fun _ => setIE_ie s
    · cases hie.2 hf
      exact id

/-- The new destination is 0 above the vector length (R87). -/
theorem getLsbD_newDest_above {i : Inst} {b : Nat} (hb : i.form.vl ≤ b) (s : State)
    (src : BitVec 256) : (newDest s i src).getLsbD b = false :=
  getLsbD_pack_above (by decide) 512 _ hb

@[simp] theorem drawn_vec (s : State) (i : Inst) : (drawn s i).vec = s.vec := by
  obtain ⟨n, hn, -, -⟩ := drawn_eq s i
  rw [hn]

/-- `raise` leaves every vector register (spec/60_exceptions.md R107). -/
theorem raise_after_vec {e e' : Exception} {a : Addr} {s t : State}
    (h : .fault (.raised e a t) = raise e' s) : t.vec = s.vec := by
  cases h
  rfl

/-- Settles O38: the destination written is 0 above the form's elements, and an exception
writes no vector register. -/
theorem upperDestinationZeroed : Obligations.UpperDestinationZeroed := by
  intro i s t
  refine ⟨fun hx b hb => ?_, fun e pc hx => ?_⟩
  · obtain ⟨hav, -⟩ := exec_next hx
    obtain ⟨n, x, rfl, -⟩ := exec_next_completed hx
    rw [completed_readVec_dst (s := { s with acTicks := n, mxcsr := x }) hav]
    exact getLsbD_newDest_above hb _ _
  · rcases exec_fault hx with ⟨e', hr⟩ | ⟨-, -, -, -, hr⟩
    · exact raise_after_vec hr
    · simpa using raise_after_vec hr

/-! ### Source and destination, lanes, privilege (R79, R88, R95) -/

/-- Writing the destination and advancing `pc` leave the opmask registers. -/
@[simp] theorem completed_k (s : State) (i : Inst) : (completed s i).k = s.k := rfl

/-- What completion writes depends on the destination's number only through the value the
destination held. -/
theorem exec_withDst {i i' : Instr} {s t u : State} {d : BitVec 5}
    (hx : exec i s = .next t) (hx' : exec i' s = .next u)
    (hi : instOf i' s = { instOf i s with dst := d })
    (hold : s.readVec d = s.readVec (instOf i s).dst) :
    t.readVec (instOf i s).dst = u.readVec d ∧ t.mxcsr = u.mxcsr ∧ t.k = u.k := by
  have hlane : t.readVec (instOf i s).dst = u.readVec d := by
    refine eq_of_lanes fun j => ?_
    have hu := exec_lane hx' j
    rw [hi] at hu
    rw [exec_lane hx, hu, hold]
  have hflag : flagsInvalid s (instOf i' s) ↔ flagsInvalid s (instOf i s) := by
    rw [hi]
    rfl
  obtain ⟨n, x, rfl, -, hie, hkept⟩ := exec_next_completed hx
  obtain ⟨n', x', rfl, -, hie', hkept'⟩ := exec_next_completed hx'
  rw [hflag] at hie' hkept'
  refine ⟨hlane, ?_, by rw [completed_k, completed_k]⟩
  rw [completed_mxcsr, completed_mxcsr]
  by_cases hf : flagsInvalid s (instOf i s)
  · exact (hie hf).trans (hie' hf).symm
  · exact (hkept hf).trans (hkept' hf).symm

/-- Settles O40: in each form the two records differ in the destination alone. -/
theorem sourceIsSampledFirst : Obligations.SourceIsSampledFirst := by
  refine ⟨fun n d s t u hold => ⟨fun hx hx' => ?_, fun hx hx' => ?_⟩,
    fun n d aaa z s t u hold => ⟨fun hx hx' => ?_, fun hx hx' => ?_, fun hx hx' => ?_,
      fun hx hx' => ?_⟩⟩
  all_goals obtain ⟨hvec, hmxcsr, hk⟩ := exec_withDst hx hx' rfl hold
  iterate 2 exact ⟨hvec, hmxcsr⟩
  all_goals exact ⟨hvec, hmxcsr, hk⟩

/-- Settles O41: a lane of the destination is an expression in the three elements that agree. -/
theorem lanesAreIndependent : Obligations.LanesAreIndependent := by
  intro i s s' t t' j hx hx' hcfg hj hsrc hsel hold
  obtain ⟨hform, -, -, hz, -⟩ := instOf_congr i s s'
  have hmask : maskBit s (instOf i s).aaa j = maskBit s' (instOf i s').aaa j := by
    rwa [Bool.eq_iff_iff, maskBit_iff, maskBit_iff]
  rw [exec_lane hx, exec_lane hx', hmask, hsrc, hold, hz, ← hform, cvt_congr hcfg]

/-- The decoded record takes nothing from the privilege level. -/
theorem instOf_withCpl (i : Instr) (s : State) (c : BitVec 2) :
    instOf i { s with cpl := c } = instOf i s := by
  cases i <;> rfl

/-- Where no alignment check is due, no free value is drawn. -/
theorem drawn_of_noReport {s : State} (h : s.cfg.evexReportsAc = false) (i : Inst) :
    drawn s i = s := by
  simp [drawn, acDue_of_noReport h]

/-- Settles O44: where `#AC` is not a parameter nothing reads the privilege level. -/
theorem privilegeLevelPlaysNoPart : Obligations.PrivilegeLevelPlaysNoPart := by
  intro i s t c hac hx
  obtain ⟨hav, hts, hmem, -, hend⟩ := exec_next hx
  have hac' : ({ s with cpl := c } : State).cfg.evexReportsAc = false := hac
  have hr : reachesConversion { s with cpl := c } (instOf i s) :=
    ⟨hav, hts, hmem, by simp [acDue_of_noReport hac']⟩
  rw [drawn_of_noReport hac] at hend
  rw [exec_eq, instOf_withCpl]
  rcases hend with ⟨hq, rfl⟩ | ⟨hsae, hinv, him, rfl⟩
  · rw [execInst_of_noInvalid hr hq, drawn_of_noReport hac']
    rfl
  · rw [execInst_of_maskedInvalid hr hsae hinv him, drawn_of_noReport hac']
    rfl

/-! ### Runs (R93) -/

/-- An instruction takes at least five bytes (spec/30_encoding.md R66). -/
theorem five_le_len (i : Instr) : 5 ≤ i.len := by
  cases i <;> simp only [Instr.len] <;> omega

/-- A step consumes the bytes of one instruction, which lie in the text, and keeps its end. -/
theorem step_textLeft {s t : State} (h : step s = .next t) :
    t.textLeft + 5 ≤ s.textLeft ∧ t.textEnd = s.textEnd := by
  obtain ⟨-, i, hd, hx⟩ := step_next h
  have hfits : i.len ≤ s.textLeft := by simpa using (decode_wf_fits hd).2
  have hlen := five_le_len i
  obtain ⟨n, x, rfl, -⟩ := exec_next_completed hx
  refine ⟨?_, rfl⟩
  have hleft : (completed { s with acTicks := n, mxcsr := x } (instOf i s)).textLeft =
      s.textLeft - i.len := by
    rw [← instOf_len i s]
    exact advance_textLeft _ ((instOf_len i s).symm ▸ hfits)
  omega

/-- A run of one step more is a step and a run. -/
theorem run_succ {n : Nat} {s t : State} (h : Host.Core.run core (n + 1) s = .next t) :
    ∃ u, step s = .next u ∧ Host.Core.run core n u = .next t := by
  simp only [Host.Core.run] at h
  split at h
  next u hu => exact ⟨u, hu, h⟩
  · cases h
  · cases h

/-- Settles O60: by induction on the number of steps, each of which consumes five bytes or
more. -/
theorem runsAreBounded : Obligations.RunsAreBounded := by
  intro n
  induction n with
  | zero =>
    intro s t hinv h
    cases h
    exact ⟨hinv, le_refl _, rfl⟩
  | succ n ih =>
    intro s t hinv h
    obtain ⟨u, hstep, hrun⟩ := run_succ h
    obtain ⟨hleft, hend⟩ := step_textLeft hstep
    obtain ⟨hinvt, hleft', hend'⟩ := ih u t (stepKeepsInvariant s u hinv hstep) hrun
    exact ⟨hinvt, by omega, hend'.trans hend⟩

end Sys2Proof.Machine

/-! PROOF. The statements of spec/60_exceptions.md: the order of the checks (R108), the condition
of each exception (R101 to R106), and the fault outcome, which is precise and final (R107,
R109). -/

namespace Sys2Proof.Machine

/-! ### One rule per check of the sequence (R102, R103, R105, R106)

The rule of the memory fault (R104) is `exec_of_memFaultOf`. -/

theorem exec_of_unavailable {i : Instr} {s : State} (hav : s.available (instOf i s).form = false) :
    exec i s = raise .ud s := by
  simp [exec_eq, execInst, hav]

theorem exec_of_ts {i : Instr} {s : State} (hav : s.available (instOf i s).form = true)
    (hts : s.ts = true) : exec i s = raise .nm s := by
  simp [exec_eq, execInst, hav, hts]

/-- A due alignment check that occurs is raised before the source is converted. -/
theorem exec_of_acOccurs {i : Instr} {s : State} (hav : s.available (instOf i s).form = true)
    (hts : s.ts = false) (hmem : memFaultOf s (instOf i s) = none)
    (hdue : acDue s (instOf i s).form (instOf i s).src = true)
    (hocc : Config.acOccurs s.acTicks = true) : exec i s = raise .ac s := by
  simp [exec_eq, execInst, readAndConvert, hav, hts, hmem, hdue, hocc]

/-- The conversion starts from `s` with the counter of free values moved on. -/
theorem drawn_eq_ticksAfter (s : State) (i : Inst) :
    drawn s i = { s with acTicks := ticksAfter s i } := by
  rw [drawn, ticksAfter]
  split <;> rfl

/-- The exception of an unmasked Invalid and the state it is raised in, by `s` itself. -/
theorem raiseInvalid_drawn (s : State) (i : Inst) :
    raiseInvalid (drawn s i) = raise (if s.osxmmexcpt then .xm else .ud)
      { s.setIE with acTicks := ticksAfter s i } := by
  rw [raiseInvalid, drawn_eq_ticksAfter]
  rfl

/-- An unmasked Invalid raises `#XM` or `#UD` and nothing else. -/
theorem raiseInvalid_exception {s t : State} {e : Exception} {pc : Addr}
    (h : raiseInvalid s = .fault (.raised e pc t)) : e = .xm ∨ e = .ud := by
  cases h
  cases s.osxmmexcpt
  · exact .inr rfl
  · exact .inl rfl

/-- Invalid raises an exception where it arises, unmasked and not suppressed. -/
theorem not_invalidQuiet_iff (s : State) (i : Inst) :
    ¬ invalidQuiet s i ↔
      i.sae = false ∧ s.im = false ∧ invalidArises s i.src i.aaa i.form.kl := by
  simp [invalidQuiet]

theorem exec_of_unmaskedInvalid {i : Instr} {s : State} (hr : reachesConversion s (instOf i s))
    (hq : ¬ invalidQuiet s (instOf i s)) :
    exec i s = raise (if s.osxmmexcpt then .xm else .ud)
      { s.setIE with acTicks := ticksAfter s (instOf i s) } := by
  obtain ⟨hsae, him, hinv⟩ := (not_invalidQuiet_iff ..).mp hq
  rw [exec_eq, execInst_of_reachesConversion hr, ← raiseInvalid_drawn]
  rcases convert_cases (instOf i s) s with ⟨hq', _⟩ | ⟨_, _, him', _⟩ | ⟨_, _, _, hc⟩
  · simp [hsae, hinv] at hq'
  · simp [him] at him'
  · exact hc

/-! ### Availability (R102, spec/10_state.md R17) -/

/-- The feature flags a form needs (spec/00_scope.md R1). -/
theorem hasForm_iff (p : Params) (f : Form) :
    p.hasForm f = true ↔
      ((f = .vex128 ∨ f = .vex256) → p.hasF16c = true) ∧
      ((f = .evex128 ∨ f = .evex256) → p.hasAvx512f = true ∧ p.hasAvx512vl = true) ∧
      (f = .evex512 → p.hasAvx512f = true) := by
  cases f <;> simp [Params.hasForm]

theorem isEvex_iff (f : Form) :
    f.isEvex = true ↔ f = .evex128 ∨ f = .evex256 ∨ f = .evex512 := by
  cases f <;> simp [Form.isEvex]

/-- A field of bits is all ones where each of its bits is 1. -/
theorem extract_eq_allOnes_iff {n : Nat} (x : BitVec n) (k w : Nat) :
    x.extractLsb' k w = BitVec.allOnes w ↔ ∀ j : Fin w, x.getLsbD (k + j) = true := by
  rw [BitVec.eq_of_getLsbD_eq_iff, Fin.forall_iff]
  refine forall₂_congr fun j hj => ?_
  simp [hj]

/-- `XCR0[2:1] = 11b`. -/
theorem xcr0_avx_iff (x : BitVec 64) :
    x.extractLsb' 1 2 = 3#2 ↔ x.getLsbD 1 = true ∧ x.getLsbD 2 = true :=
  (extract_eq_allOnes_iff x 1 2).trans Fin.forall_fin_two

/-- `XCR0[7:5] = 111b`. -/
theorem xcr0_avx512_iff (x : BitVec 64) :
    x.extractLsb' 5 3 = 7#3 ↔
      x.getLsbD 5 = true ∧ x.getLsbD 6 = true ∧ x.getLsbD 7 = true :=
  (extract_eq_allOnes_iff x 5 3).trans <|
    Fin.forall_fin_succ.trans (and_congr_right' Fin.forall_fin_two)

/-- `OS_ENABLED(form)`, bit by bit. -/
theorem osEnabled_iff (s : State) (f : Form) :
    s.osEnabled f = true ↔
      s.cr0.getLsbD 0 = true ∧ s.eflags.getLsbD 17 = false ∧ s.cr4.getLsbD 18 = true ∧
      s.xcr0.getLsbD 1 = true ∧ s.xcr0.getLsbD 2 = true ∧
      (f.isEvex = true →
        s.xcr0.getLsbD 5 = true ∧ s.xcr0.getLsbD 6 = true ∧ s.xcr0.getLsbD 7 = true) := by
  rw [← xcr0_avx512_iff, imp_iff_not_or]
  simp [State.osEnabled, State.protectedMode, State.vm, State.osxsave, xcr0_avx_iff, and_assoc]

/-- Settles O47: availability is the flags with `OS_ENABLED`, and the flags fix `MAX_VL`. -/
theorem unavailableFormRaisesUD : Obligations.UnavailableFormRaisesUD := by
  intro s f
  refine ⟨?_, fun i hi hav => exec_of_unavailable (hi ▸ hav),
    fun hav => vl_le_maxVl (available_hasForm hav)⟩
  rw [State.available, Bool.and_eq_true, hasForm_iff, osEnabled_iff, isEvex_iff]
  simp only [and_assoc]

/-! ### The memory fault (R104) -/

/-- Settles O49: the read is not admitted under either setting of fault suppression, and a
register has no read to admit. -/
theorem inaccessibleOperandRaisesMemFault : Obligations.InaccessibleOperandRaisesMemFault := by
  refine ⟨fun i s a hav hts hsrc hno => ?_, fun i s t n a pc k hsrc hx => ?_⟩
  · refine exec_of_memFaultOf hav hts ((memFaultOf_eq_some_iff hsrc).mpr ?_)
    rcases hno with ⟨hoff, hacc⟩ | ⟨hon, hsel⟩
    · rwa [sourceAdmitted_of_noSuppression hoff]
    · rwa [sourceAdmitted_eq_false_of_suppression hon]
  · have hmem := memFaultOf_of_exec_memFault hx
    simp [memFaultOf, hsrc] at hmem

/-! ### The alignment check (R105) -/

/-- When an alignment check is due, bit by bit. -/
theorem acDue_iff (s : State) (f : Form) (src : Source) :
    acDue s f src = true ↔ ∃ a, src = .mem a ∧ f.isEvex = true ∧ a.toNat % 2 = 1 ∧
      s.cfg.evexReportsAc = true ∧ s.cr0.getLsbD 18 = true ∧ s.eflags.getLsbD 18 = true ∧
      s.cpl = 3#2 := by
  cases src with
  | reg n => simp [acDue]
  | mem a =>
    have hodd : a.getLsbD 0 = true ↔ a.toNat % 2 = 1 := by
      rw [BitVec.getLsbD, Nat.testBit_zero, decide_eq_true_iff]
    simp only [acDue, State.alignmentChecked, State.am, State.acFlag, Bool.and_eq_true, hodd,
      beq_iff_eq, Source.mem.injEq, exists_eq_left']
    tauto

/-- A memory fault is no alignment check. -/
theorem memFaultOf_ne_ac (s : State) (i : Inst) : memFaultOf s i ≠ some .ac := by
  unfold memFaultOf
  split
  · exact nofun
  · split <;> exact nofun

/-- An alignment check is raised only where one is due. -/
theorem acDue_of_exec_ac {i : Instr} {s t : State} {pc : Addr}
    (h : exec i s = .fault (.raised .ac pc t)) :
    acDue s (instOf i s).form (instOf i s).src = true := by
  rw [exec_eq] at h
  rcases execInst_cases (instOf i s) s with ⟨_, hr⟩ | ⟨_, _, hr⟩ | ⟨_, _, e, hmem, hr⟩ |
    ⟨_, _, _, hdue, _, _⟩ | ⟨_, _, _, _, hconv⟩
  · cases hr.symm.trans h
  · cases hr.symm.trans h
  · cases hr.symm.trans h
    exact absurd hmem (memFaultOf_ne_ac _ _)
  · exact hdue
  · rw [hconv] at h
    rcases convert_cases (instOf i s) s with ⟨_, hc⟩ | ⟨_, _, _, hc⟩ | ⟨_, _, _, hc⟩
    · cases hc.symm.trans h
    · cases hc.symm.trans h
    · exact absurd (raiseInvalid_exception (hc.symm.trans h)) (by decide)

/-- Completion leaves the counter of free values where the alignment check left it. -/
theorem exec_next_acTicks {i : Instr} {s t : State} (hx : exec i s = .next t) :
    t.acTicks = ticksAfter s (instOf i s) := by
  obtain ⟨-, -, -, -, ⟨-, rfl⟩ | ⟨-, -, -, rfl⟩⟩ := exec_next hx
  all_goals
    rw [drawn_eq_ticksAfter]
    rfl

/-- Settles O51: each hypothesis of the first part denies a condition of `acDue`, and where a
check is due the free value raises it or lets the conversion follow. -/
theorem alignmentCheckOnlyByParameter : Obligations.AlignmentCheckOnlyByParameter := by
  refine ⟨fun i s hoff pc t hx => ?_, fun i s hav hts hmem hdue =>
    ⟨exec_of_acOccurs hav hts hmem hdue, fun hocc hq => ?_⟩⟩
  · obtain ⟨a, hsrc, hevex, hodd, hrep, ham, hac, hcpl⟩ :=
      (acDue_iff ..).mp (acDue_of_exec_ac hx)
    refine absurd (hoff a hsrc) ?_
    rw [hevex, hodd, hrep, ham, hac, hcpl]
    decide
  · obtain ⟨t, hx⟩ := exec_of_reachesConversion ⟨hav, hts, hmem, fun _ => hocc⟩ hq
    exact ⟨t, hx, by rw [exec_next_acTicks hx, ticksAfter, if_pos hdue]⟩

/-! ### The Invalid condition (R106) -/

/-- Settles O52: masked or not there, Invalid is quiet and the instruction completes; unmasked,
`CR4.OSXMMEXCPT` chooses the exception. -/
theorem unmaskedInvalidRaisesXM : Obligations.UnmaskedInvalidRaisesXM := by
  intro i s hr hsae I bad
  have hloud : bad → s.mxcsr.getLsbD 7 = false → exec i s =
      raise (if s.osxmmexcpt then .xm else .ud) { s.setIE with acTicks := ticksAfter s I } :=
    fun hbad him => exec_of_unmaskedInvalid hr ((not_invalidQuiet_iff ..).mpr ⟨hsae, him, hbad⟩)
  refine ⟨fun hbad him => ?_, fun hbad him hosx => ?_, fun hbad him hosx => ?_, fun hgood => ?_⟩
  · obtain ⟨t, hx⟩ := exec_of_reachesConversion hr (.inr (.inl him))
    exact ⟨t, hx, (converted_of_exec hx).flagged_of_noSae hsae hbad⟩
  · rw [hloud hbad him, State.osxmmexcpt, if_pos hosx]
    rfl
  · rw [hloud hbad him, State.osxmmexcpt, if_neg (Bool.not_eq_true _ ▸ hosx)]
    rfl
  · obtain ⟨t, hx⟩ := exec_of_reachesConversion hr (.inr (.inr hgood))
    exact ⟨t, hx, (converted_of_exec hx).unflagged_of_notArises hgood⟩

/-! ### The order of the checks (R108) -/

/-- Settles O54: one rule per check, in the order of the sequence. -/
theorem exceptionPriority : Obligations.ExceptionPriority :=
  ⟨fun _ hf hd => step_of_decode_ud hf hd, fun _ _ =>
    ⟨exec_of_unavailable, exec_of_ts, fun _ => exec_of_memFaultOf, exec_of_acOccurs,
      exec_of_unmaskedInvalid⟩⟩

/-! ### The fault outcome (R100, R107, R109) -/

/-- An instruction that raises records its address and changes nothing else, but for what an
unmasked Invalid leaves. -/
theorem exec_raised {i : Instr} {s t : State} {e : Exception} {pc : Addr}
    (hx : exec i s = .fault (.raised e pc t)) :
    pc = s.ip ∧
    (t = { s with faultRecord := some ⟨e, s.ip⟩ } ∨
      t = { s with mxcsr := s.mxcsr ||| 1#32, faultRecord := some ⟨e, s.ip⟩,
                   acTicks := ticksAfter s (instOf i s) } ∧
        (e = .xm ∨ e = .ud) ∧ s.im = false ∧ (instOf i s).sae = false ∧
        invalidArises s (instOf i s).src (instOf i s).aaa (instOf i s).form.kl) := by
  rcases exec_fault hx with ⟨e', hr⟩ | ⟨-, hsae, hinv, him, hr⟩
  · cases hr
    exact ⟨rfl, .inl rfl⟩
  · have he := raiseInvalid_exception hr.symm
    rw [raiseInvalid_drawn] at hr
    cases hr
    exact ⟨rfl, .inr ⟨rfl, he, him, hsae, hinv⟩⟩

/-- A step raises an exception where the bytes at `pc` are `UD`, or where the instruction they
decode to raises it. -/
theorem step_fault {s : State} {f : Fault} (hf : s.faultRecord = none) (h : step s = .fault f) :
    .fault f = raise .ud s ∨ ∃ i, decode s.mode s.fetch = .instr i ∧ exec i s = .fault f := by
  simp only [step, hf] at h
  split at h
  · cases h
  split at h
  next i hd => exact .inr ⟨i, hd, h⟩
  · exact .inl h.symm
  · cases h

/-- The state after a step that raises: the fault record is set, `IE` may be, and the model's
counter may have moved. -/
theorem step_raised {s t : State} {e : Exception} {pc : Addr} (hf : s.faultRecord = none)
    (h : step s = .fault (.raised e pc t)) :
    pc = s.ip ∧ ∃ x n, (x = s.mxcsr ∨ x = s.mxcsr ||| 1#32) ∧
      t = { s with mxcsr := x, acTicks := n, faultRecord := some ⟨e, pc⟩ } := by
  rcases step_fault hf h with hr | ⟨i, -, hx⟩
  · cases hr
    exact ⟨rfl, s.mxcsr, s.acTicks, .inl rfl, rfl⟩
  · obtain ⟨rfl, rfl | ⟨rfl, -⟩⟩ := exec_raised hx
    · exact ⟨rfl, s.mxcsr, s.acTicks, .inl rfl, rfl⟩
    · exact ⟨rfl, _, _, .inr rfl, rfl⟩

/-- Settles O53: the address is the instruction's, and no field but the fault record, `MXCSR` and
the counter is written. -/
theorem faultsArePrecise : Obligations.FaultsArePrecise := by
  refine ⟨fun i s t e pc hx => exec_raised hx, fun s t e pc hf h => ?_⟩
  obtain ⟨hpc, x, n, hx, rfl⟩ := step_raised hf h
  exact ⟨hpc, rfl, rfl, rfl, rfl, rfl, rfl, hx⟩

/-- A recorded fault is given again by every step, with the state as it is. -/
theorem step_of_faultRecord {s : State} {e : Exception} {pc : Addr}
    (h : s.faultRecord = some ⟨e, pc⟩) : step s = .fault (.raised e pc s) := by
  simp [step, h]

/-- Settles O21: the step that raises has recorded the fault, which the next step finds. -/
theorem faultedStepStaysFaulted : Obligations.FaultedStepStaysFaulted := by
  intro s t e pc hf h
  obtain ⟨hpc, x, n, -, rfl⟩ := step_raised hf h
  exact ⟨hpc, rfl, rfl, step_of_faultRecord rfl⟩

theorem not_finished_of_faultRecord {s : State} {r : FaultRecord} (h : s.faultRecord = some r) :
    ¬ s.finished := by
  simp [State.finished, h]

/-- No run from a state with a fault recorded ends successfully: it takes no step, and the state
itself is not the end of one. -/
theorem not_endsIn_of_faultRecord {s u : State} {r : FaultRecord} (h : s.faultRecord = some r) :
    ¬ endsIn s u := by
  rintro ⟨n, hrun, hfin⟩
  cases n with
  | zero =>
    cases hrun
    exact not_finished_of_faultRecord h hfin
  | succ n =>
    obtain ⟨v, hstep, -⟩ := run_succ hrun
    cases (step_of_faultRecord h).symm.trans hstep

/-- Settles O20: `raise` sets the fault record, and a recorded fault stays. -/
theorem raiseRecordsFault : Obligations.RaiseRecordsFault := by
  intro e s t
  exact ⟨rfl, not_finished_of_faultRecord rfl, step_of_faultRecord rfl,
    fun _ => not_endsIn_of_faultRecord rfl⟩

/-- Settles O48: `TS` is bit 3 of `CR0`. -/
theorem taskSwitchedRaisesNM : Obligations.TaskSwitchedRaisesNM :=
  fun _ _ hav hts => exec_of_ts hav hts

/-- Settles O55: each end of the sequence and of the conversion is a completion or a `raise`. -/
theorem noInstructionIsRefused : Obligations.NoInstructionIsRefused := by
  intro i s
  rw [exec_eq]
  rcases execInst_cases (instOf i s) s with ⟨_, hr⟩ | ⟨_, _, hr⟩ | ⟨_, _, e, _, hr⟩ |
    ⟨_, _, _, _, _, hr⟩ | ⟨_, _, _, _, hconv⟩
  iterate 4 exact .inr ⟨_, _, hr⟩
  rw [hconv]
  rcases convert_cases (instOf i s) s with ⟨_, hc⟩ | ⟨_, _, _, hc⟩ | ⟨_, _, _, hc⟩
  · exact .inl ⟨_, hc⟩
  · exact .inl ⟨_, hc⟩
  · exact .inr ⟨_, _, hc.trans (raiseInvalid_drawn s _)⟩

end Sys2Proof.Machine

/-! PROOF. The statements of spec/70_reset_and_hazards.md: what reset leaves (R125), the launch
of a table word (R126), and how a run ends (R129). -/

namespace Sys2Proof.Machine

/-! ### The state after reset (R125) -/

/-- No form is enabled after reset: `CR0.PE` is 0 (spec/10_state.md R17). -/
theorem reset_osEnabled (f : Form) : State.reset.osEnabled f = false := by
  refine Bool.eq_false_iff.mpr fun h => ?_
  obtain ⟨hpe, -⟩ := (osEnabled_iff ..).mp h
  exact absurd hpe (by decide)

/-- Settles O56: the registers are 0 at their stored width, and the rest is the reset state field
by field. -/
theorem resetValues : Obligations.ResetValues := by
  refine ⟨fun n => ?_, fun n => ?_, rfl, rfl, rfl, by decide, rfl, rfl, reset_osEnabled, rfl⟩
  · rw [invariantHoldsAfterReset.vecWidth n]
    exact Vector.getElem_replicate _
  · rw [invariantHoldsAfterReset.kWidth n]
    exact Vector.getElem_replicate _

/-- Settles O57: no form is enabled, so none is available. -/
theorem everyFormIsUDAfterReset : Obligations.EveryFormIsUDAfterReset :=
  fun _ => exec_of_unavailable (by rw [State.available, reset_osEnabled, Bool.and_false])

/-! ### A table word as the program (R126) -/

theorem decodeTableWord_eq_some {nbits w : Nat} {i : Instr} (h : decodeTableWord nbits w = some i) :
    decode .m64 (tableBytes nbits w) = .instr i := by
  unfold decodeTableWord at h
  split at h
  next hd => rwa [← Option.some.inj h]
  · cases h
  · cases h

theorem withFetchWord_fetch {s : State} (nbits w : Nat) (h : s.mem.wf) :
    (s.withFetchWord nbits w).fetch = tableBytes nbits w :=
  loadedTextIsFetched s.enable64 _ h (by simp [tableBytes, maxLen, addrSpace])

/-- Settles O19: the placed bytes are fetched, in the mode in which the word is read. -/
theorem placedWordRunsNext : Obligations.PlacedWordRunsNext := by
  intro s nbits w i hd hwf
  refine step_of_decode rfl ?_
  rw [withFetchWord_fetch nbits w hwf]
  exact decodeTableWord_eq_some hd

/-! ### The end of a run (R129) -/

theorem finished_iff (s : State) : s.finished ↔ s.faultRecord = none ∧ s.textLeft = 0 := by
  rw [State.finished, textLeft_eq_zero]

theorem step_of_finished {s : State} (h : s.finished) : step s = .refused .endOfProgram := by
  obtain ⟨hf, hip⟩ := h
  simp [step, hf, hip]

/-- A run from where a run has ended takes no step. -/
theorem eq_of_endsIn_of_finished {s u : State} (hs : s.finished) (h : endsIn s u) : s = u := by
  obtain ⟨n, hrun, -⟩ := h
  cases n with
  | zero => exact Host.Outcome.next.inj hrun
  | succ n =>
    obtain ⟨v, hstep, -⟩ := run_succ hrun
    cases (step_of_finished hs).symm.trans hstep

/-- Where a step answers a next state, a run ends only as it does from there. -/
theorem endsIn_of_step {s v u : State} (hstep : step s = .next v) (h : endsIn s u) :
    endsIn v u := by
  obtain ⟨n, hrun, hfin⟩ := h
  cases n with
  | zero =>
    cases hrun
    cases (step_of_finished hfin).symm.trans hstep
  | succ n =>
    obtain ⟨v', hstep', hrun'⟩ := run_succ hrun
    cases hstep'.symm.trans hstep
    exact ⟨n, hrun', hfin⟩

/-- Settles O22: by induction on the steps of one of the two runs, each of which the other takes
too. -/
theorem runEndsAtEndOfText : Obligations.RunEndsAtEndOfText := by
  refine ⟨fun s hs => step_of_finished hs, ?_⟩
  rintro s t u ⟨n, hrun, hfin⟩ hu
  induction n generalizing s with
  | zero =>
    cases hrun
    exact eq_of_endsIn_of_finished hfin hu
  | succ n ih =>
    obtain ⟨v, hstep, hrun'⟩ := run_succ hrun
    exact ih v hrun' (endsIn_of_step hstep hu)

theorem encode_length (i : Instr) : (encode i).length = i.len := by
  cases i
  case vex128 | vex256 => exact Laws.EncodedHead.encodeVex_length ..
  case evex512Sae => exact Laws.EncodedHead.encodeEvex_length _ _ _ (.reg _) ..
  all_goals exact Laws.EncodedHead.encodeEvex_length ..

/-- An instruction that completes consumes its bytes, where they lie in the text. -/
theorem exec_textLeft {i : Instr} {s t : State} (hx : exec i s = .next t)
    (hfits : i.len ≤ s.textLeft) : t.textLeft = s.textLeft - i.len := by
  obtain ⟨n, x, rfl, -⟩ := exec_next_completed hx
  rw [← instOf_len i s] at hfits ⊢
  exact advance_textLeft _ hfits

theorem exec_faultRecord {i : Instr} {s t : State} (hx : exec i s = .next t) :
    t.faultRecord = s.faultRecord := by
  obtain ⟨n, x, rfl, -⟩ := exec_next_completed hx
  rfl

/-- Settles O23: the instruction consumes the text left, which is its own length; what is left is
counted modulo the address space. -/
theorem lastInstructionEndsRun : Obligations.LastInstructionEndsRun := by
  intro s t i hf hwf hfetch hstep
  have hx : exec i s = .next t := by
    rw [← hstep, stepRunsEncodedInstruction s i [] hf hwf (by rw [hfetch, List.append_nil])]
  have hleft : s.textLeft = i.len := by rw [← fetch_length, hfetch, encode_length]
  have hfin : t.finished := by
    rw [finished_iff, exec_faultRecord hx, exec_textLeft hx hleft.ge, hleft]
    exact ⟨hf, Nat.sub_self _⟩
  exact ⟨hfin, step_of_finished hfin⟩

end Sys2Proof.Machine

/-! PROOF. Three statements that rest on the sections above: words of
spec/95_test_vectors.md under the decoder, the writemask of spec/40_vcvtph2ps.md R86, and the VEX
and EVEX forms that fit the same operands (spec/93_implementation_defined.md U23). -/

namespace Sys2Proof.Machine

/-! ### Words of the test vectors -/

/-- A word that is what the encoder writes for a well-formed instruction decodes to it. -/
theorem decode_of_eq_encode {m : Mode} {bs : List Byte} {i : Instr} (hbs : bs = encode i)
    (hwf : i.wf m = true) : decode m bs = .instr i := by
  rw [hbs, ← List.append_nil (encode i), decode_encode hwf]

/-- Settles O15: each word is the encoding the model writes for the instruction listed. -/
theorem wordsOfTheSpecDecode : Obligations.WordsOfTheSpecDecode := by
  refine ⟨?_, ?_, ?_, ?_, ?_, ?_, ?_, ?_⟩
  all_goals exact decode_of_eq_encode (by decide) (by decide)

/-! ### What the opmask registers decide (R86) -/

/-- The decoded record takes nothing from the opmask registers. -/
theorem instOf_withK (i : Instr) (s : State) (v : Vector (BitVec 64) 8) :
    instOf i { s with k := v } = instOf i s := by
  cases i <;> rfl

/-- Every element of a form has a bit in the part of an opmask register that exists. -/
theorem kl_le_kbits (f : Form) (p : Params) : f.kl ≤ p.kbits := by
  have hkl : f.kl ≤ 16 := by cases f <;> decide
  have hkbits : 16 ≤ p.kbits := by
    unfold Params.kbits
    split <;> decide
  exact hkl.trans hkbits

theorem kbits_le_width (p : Params) : p.kbits ≤ 64 := by
  unfold Params.kbits
  split <;> decide

/-- An opmask register with the same bit `j` selects element `j` as before. -/
theorem maskBit_withK {s : State} {aaa : BitVec 3} {x : BitVec 64} {f : Form} {j : Nat}
    (hj : j < f.kl) (h : x.getLsbD j = (s.readK aaa).getLsbD j) :
    maskBit { s with k := s.k.set aaa.toNat x } aaa j = maskBit s aaa j := by
  have hbit : j < s.cfg.kbits := hj.trans_le (kl_le_kbits f s.cfg)
  have hwidth : j < 64 := hbit.trans_le (kbits_le_width s.cfg)
  have hread : (({ s with k := s.k.set aaa.toNat x } : State).readK aaa).getLsbD j =
      (s.readK aaa).getLsbD j := by
    rw [← h]
    simp [State.readK, hbit, hwidth]
  rw [maskBit, hread, maskBit]

section SameMask

variable {s : State} {v : Vector (BitVec 64) 8} {i : Inst}
  (h : ∀ j < i.form.kl, maskBit { s with k := v } i.aaa j = maskBit s i.aaa j)

include h

theorem memFaultOf_withK : memFaultOf { s with k := v } i = memFaultOf s i := by
  have hadm (a : Addr) :
      sourceAdmitted { s with k := v } i.form i.aaa a = sourceAdmitted s i.form i.aaa a := by
    rw [Bool.eq_iff_iff]
    simp only [sourceAdmitted]
    split
    · simp only [List.all_eq_true, List.mem_range]
      refine forall₂_congr fun j hj => ?_
      rw [h j hj]
      rfl
    · rfl
  simp only [memFaultOf, hadm]

theorem reachesConversion_withK (hr : reachesConversion s i) :
    reachesConversion { s with k := v } i := by
  obtain ⟨hav, hts, hmem, hac⟩ := hr
  exact ⟨hav, hts, (memFaultOf_withK h).trans hmem, hac⟩

theorem invalidArises_withK :
    invalidArises { s with k := v } i.src i.aaa i.form.kl ↔
      invalidArises s i.src i.aaa i.form.kl := by
  refine exists_congr fun j => and_congr_right fun hj => ?_
  rw [← maskBit_iff, h j hj, maskBit_iff]
  rfl

theorem completed_withK : completed { s with k := v } i = { completed s i with k := v } := by
  have hdest (src : BitVec 256) : newDest { s with k := v } i src = newDest s i src := by
    refine pack_congr 512 fun j hj => ?_
    rw [newLane, h j hj]
    rfl
  rw [completed, hdest]
  rfl

end SameMask

/-- The free value drawn does not depend on the opmask registers. -/
theorem drawn_withK (s : State) (i : Inst) (v : Vector (BitVec 64) 8) :
    drawn { s with k := v } i = { drawn s i with k := v } := by
  have hdue : acDue { s with k := v } i.form i.src = acDue s i.form i.src := rfl
  rw [drawn, drawn, hdue]
  split <;> rfl

/-- With opmask registers that select the same elements an instruction that completes does the
same. -/
theorem exec_withK {i : Instr} {s t : State} {v : Vector (BitVec 64) 8} (hx : exec i s = .next t)
    (h : ∀ j < (instOf i s).form.kl,
      maskBit { s with k := v } (instOf i s).aaa j = maskBit s (instOf i s).aaa j) :
    exec i { s with k := v } = .next { t with k := v } := by
  have hr := reachesConversion_withK h (reachesConversion_of_exec hx)
  obtain ⟨-, -, -, -, hend⟩ := exec_next hx
  obtain ⟨n, hn, -, -⟩ := drawn_eq s (instOf i s)
  rw [exec_eq, instOf_withK]
  rw [← invalidArises_withK h] at hend
  rcases hend with ⟨hq, rfl⟩ | ⟨hsae, hinv, him, rfl⟩
  · rw [execInst_of_noInvalid hr hq, drawn_withK, hn]
    exact congrArg _ (completed_withK (s := { s with acTicks := n }) h)
  · rw [execInst_of_maskedInvalid hr hsae hinv him, drawn_withK, hn]
    exact congrArg _ (completed_withK (s := ({ s with acTicks := n } : State).setIE) h)

/-- A VEX form has no writemask. -/
theorem instOf_aaa_of_vex {i : Instr} {s : State} (h : (instOf i s).form.isEvex = false) :
    (instOf i s).aaa = 0#3 := by
  cases i
  case vex128 | vex256 => rfl
  all_goals cases h

/-- Where no selected element reports Invalid, none arises, whatever the others are. -/
theorem not_invalidArises_of_selected {s : State} {i : Inst}
    (h : ∀ j < i.form.kl, selected s i.aaa j → (s.cfg.cvt (halfAt s i.src j)).2 = false) :
    ¬ invalidArises s i.src i.aaa i.form.kl := by
  rintro ⟨j, hj, hsel, hinv⟩
  exact Bool.eq_false_iff.mp (h j hj hsel) hinv

/-- Settles O39: the elements are those of `Converted`, Invalid ranges over the selected elements
alone, and of the opmask registers only the bits that select an element are read. -/
theorem writemaskGovernsElements : Obligations.WritemaskGovernsElements := by
  intro i s I
  refine ⟨fun hr hquiet => ?_, fun hvex j => .inl (instOf_aaa_of_vex hvex), fun t hx => ?_⟩
  · have hnone := not_invalidArises_of_selected hquiet
    obtain ⟨t, hx⟩ := exec_of_reachesConversion hr (.inr (.inr hnone))
    exact ⟨t, hx, (converted_of_exec hx).unflagged_of_notArises hnone⟩
  · have hc := converted_of_exec hx
    have hk : t.k = s.k := by
      obtain ⟨n, x, rfl, -⟩ := exec_next_completed hx
      rfl
    refine ⟨hc.selectedLane, fun j hj hsel hz => ?_, fun j hj hsel hz => ?_, hk,
      fun x hlow => ⟨_, exec_withK hx fun j hj => maskBit_withK hj (hlow j hj), rfl, rfl⟩⟩
    · rw [hc.maskedLane j hj hsel, if_neg (Bool.eq_false_iff.mp hz)]
    · rw [hc.maskedLane j hj hsel, if_pos hz]

/-! ### The VEX and the EVEX form of the same length -/

/-- The data result depends on the form only through the number of elements, and on the length of
the instruction not at all. -/
theorem completed_vec_withForm {i : Inst} {f : Form} (hkl : f.kl = i.form.kl) (len : Nat)
    (s : State) :
    (completed s { i with form := f, len := len }).vec = (completed s i).vec := by
  have hsrc : sourceBits s f i.src = sourceBits s i.form i.src := by
    cases i.src <;> rw [sourceBits, sourceBits, hkl]
  have hdest (src : BitVec 256) :
      newDest s { i with form := f, len := len } src = newDest s i src := by
    simp only [newDest, hkl]
    rfl
  rw [completed_vec, completed_vec, hdest, hsrc]

/-- Two completions from one state that flag Invalid under the same condition end with the same
`MXCSR`. -/
theorem Converted.mxcsr_eq {s t u : State} {i i' : Inst} (ht : Converted s i t)
    (hu : Converted s i' u) (h : flagsInvalid s i ↔ flagsInvalid s i') : t.mxcsr = u.mxcsr := by
  by_cases hf : flagsInvalid s i
  · rw [ht.flagged hf, hu.flagged (h.mp hf)]
  · rw [ht.unflagged hf, hu.unflagged (mt h.mpr hf)]

/-- Two completions of instructions whose records differ in the form and the length alone, for
forms of as many elements, write the same registers and flags. -/
theorem exec_withForm {i i' : Instr} {s t u : State} {f : Form} {len : Nat}
    (hx : exec i s = .next t) (hx' : exec i' s = .next u)
    (hi : instOf i' s = { instOf i s with form := f, len := len })
    (hkl : f.kl = (instOf i s).form.kl) : t.vec = u.vec ∧ t.mxcsr = u.mxcsr := by
  have hflag : flagsInvalid s (instOf i s) ↔ flagsInvalid s (instOf i' s) := by
    simp only [flagsInvalid, hi, hkl]
  refine ⟨?_, (converted_of_exec hx).mxcsr_eq (converted_of_exec hx') hflag⟩
  obtain ⟨n, x, rfl, -⟩ := exec_next_completed hx
  obtain ⟨n', x', rfl, -⟩ := exec_next_completed hx'
  rw [hi, completed_vec_withForm hkl]
  rfl

/-- Settles O46: the records of the two forms differ in the form and the length alone. -/
theorem vexAndEvexAgree : Obligations.VexAndEvexAgree :=
  fun _ _ _ _ _ => ⟨fun hx hx' => exec_withForm hx hx' rfl rfl,
    fun hx hx' => exec_withForm hx hx' rfl rfl⟩

end Sys2Proof.Machine
